-- ==== Sys2Proof/Word.lean ====
section
/-! DEFINITION. The words of the block: bytes, register addresses, command words, op codes and line levels (00_scope.md R7, R10; 10_state.md R21; 30_encoding.md R99). -/

namespace Sys2Proof

/-- A bus byte, a register value or a latch: 8 bits, unsigned (00_scope.md R10, DATA_BITS of R7). -/
abbrev Byte := BitVec 8

/-- A register address: "a 6-bit value" (ADDR_BITS of 00_scope.md R7; 10_state.md R40). -/
abbrev RegAddr := BitVec 6

/-- The host's command word (30_encoding.md R99). -/
abbrev CmdWord := BitVec 20

/-- The op code field of a command word and of a response (30_encoding.md R100; 10_state.md R30). -/
abbrev OpCode := BitVec 4

/-- The level of an output line; for `cs`, low is selected (10_state.md R21, CS_ACTIVE of 00_scope.md R7). -/
inductive Level where
  | low
  | high
  deriving DecidableEq, Repr

/-- The line's level as a bit. -/
def Level.bit : Level → BitVec 1
  | .low => 0
  | .high => 1

end Sys2Proof
end

