-- ==== Sys2Proof/Config.lean ====
section
/-! DEFINITION. The constants MATT fixes (00_scope.md R7), the parameters it leaves open (00_scope.md R8, R9) and the free draws of the oracle (20_memory.md R66). -/

namespace Sys2Proof

namespace Const

/-! Each constant is the row of 00_scope.md R7 with the same name. -/

def frameAddrMask : Nat := 0x7E
def frameReadFlag : Nat := 0x80
def cmdBusyMask : Byte := 0x10
def antMask : Byte := 0x03
def txLastBitsShort : Nat := 7
def reqa : Byte := 0x26
def anticollCmd : Byte := 0x93
def anticollNvb : Byte := 0x20
def irqWaitMask : Byte := 0x30
def irqPollMax : Nat := 25
def atqaLen : Byte := 2
def uidFrameLen : Byte := 5
def tSettle : Nat := 50
def tSend : Nat := 10
def tPoll : Nat := 1
def spiClkHz : Nat := 1000000
def spiMode : Nat := 0
def csActive : Level := .low
def rstInactive : Level := .high

end Const

/-- One entry of INIT_WRITES (00_scope.md R8): a register address and the byte written there. -/
structure InitWrite where
  addr : RegAddr
  value : Byte
  deriving DecidableEq, Repr

/-- INIT_WRITES: exactly five entries, the fifth the mode register byte (00_scope.md R8; 10_state.md R47). -/
structure InitWrites where
  w1 : InitWrite
  w2 : InitWrite
  w3 : InitWrite
  w4 : InitWrite
  w5 : InitWrite
  deriving DecidableEq, Repr

/-- SPI_BIT_ORDER (00_scope.md R8); no rule reads it. -/
inductive BitOrder where
  | msbFirst
  | lsbFirst
  deriving DecidableEq, Repr

/-- The parameters of 00_scope.md R8, one field per row. -/
structure Config where
  aCommand : RegAddr
  aComIrq : RegAddr
  aFifoData : RegAddr
  aFifoLevel : RegAddr
  aBitFraming : RegAddr
  aTxControl : RegAddr
  cmdIdle : Byte
  cmdSoftReset : Byte
  cmdTransceive : Byte
  bfShort : Byte
  startSendMask : Byte
  flushMask : Byte
  initWrites : InitWrites
  /-- `none` is the unbounded wait of the driver source. -/
  resetPollMax : Option Nat
  /-- Length of a time unit in microseconds; no rule reads it. -/
  tUnitMicros : Nat
  readFill : Byte
  spiBitOrder : BitOrder
  deriving DecidableEq, Repr

namespace Config

/-- The default column of 00_scope.md R8 (93_implementation_defined.md G1 to G6). -/
def default : Config where
  aCommand := 0x01
  aComIrq := 0x04
  aFifoData := 0x09
  aFifoLevel := 0x0A
  aBitFraming := 0x0D
  aTxControl := 0x14
  cmdIdle := 0x00
  cmdSoftReset := 0x0F
  cmdTransceive := 0x0C
  bfShort := 0x07
  startSendMask := 0x80
  flushMask := 0x80
  initWrites := ⟨⟨0x2A, 0x8D⟩, ⟨0x2B, 0x3E⟩, ⟨0x2D, 0x1E⟩, ⟨0x2C, 0x00⟩, ⟨0x11, 0x3D⟩⟩
  resetPollMax := some 25
  tUnitMicros := 1000
  readFill := 0x00
  spiBitOrder := .msbFirst

/-- The six register addresses the step lists use. -/
def addresses (c : Config) : List RegAddr :=
  [c.aCommand, c.aComIrq, c.aFifoData, c.aFifoLevel, c.aBitFraming, c.aTxControl]

/-- Well-formedness (00_scope.md R9): the six addresses pairwise distinct, RESET_POLL_MAX at least 1
when it is a number. That addresses lie in 0..63 is the type `RegAddr`. -/
def wf (c : Config) : Bool :=
  decide c.addresses.Nodup && (c.resetPollMax != some 0)

/-- The n-th free draw of the environment (20_memory.md R66): no value of it can be known. -/
opaque freeByte : Nat → Byte

end Config

end Sys2Proof
end

