-- ==== Sys2Proof/Syntax.lean ====
section
/-! DEFINITION. The instructions: one constructor per row of spec/opcode_table.json (30_encoding.md R100, R101, R105). -/

namespace Sys2Proof

/-- The sixteen host commands keep both operand fields, used or not, because acceptance latches both
(10_state.md R27). The three frame kinds carry the fields of 30_encoding.md R92, R93, R94. -/
inductive Instr where
  | wrreg (addr data : Byte)
  | rdreg (addr data : Byte)
  | setbits (addr data : Byte)
  | clrbits (addr data : Byte)
  | reset (addr data : Byte)
  | anton (addr data : Byte)
  | antoff (addr data : Byte)
  | init (addr data : Byte)
  | reqp (addr data : Byte)
  | anticoll (addr data : Byte)
  | getuid (addr data : Byte)
  | reserved0 (addr data : Byte)
  | reservedC (addr data : Byte)
  | reservedD (addr data : Byte)
  | reservedE (addr data : Byte)
  | reservedF (addr data : Byte)
  | wframe (a : RegAddr) (v : Byte)
  | rframe (a : RegAddr) (f : Byte)
  | wburst2 (a : RegAddr) (v w : Byte)
  deriving DecidableEq, Repr

end Sys2Proof
end

