-- ==== Sys2Proof/WellFormed.lean ====
section
/-! DEFINITION. Which instruction terms the block of a given configuration can be handed or can emit (30_encoding.md R93, R94, R99, R101). -/

namespace Sys2Proof

/-- Every command word is accepted (R99, R101). A read frame's fill byte is READ_FILL (R93); the
write burst has one address and one pair of bytes (R94). -/
def Instr.wellFormed (c : Config) : Instr → Bool
  | .wrreg _ _ => true
  | .rdreg _ _ => true
  | .setbits _ _ => true
  | .clrbits _ _ => true
  | .reset _ _ => true
  | .anton _ _ => true
  | .antoff _ _ => true
  | .init _ _ => true
  | .reqp _ _ => true
  | .anticoll _ _ => true
  | .getuid _ _ => true
  | .reserved0 _ _ => true
  | .reservedC _ _ => true
  | .reservedD _ _ => true
  | .reservedE _ _ => true
  | .reservedF _ _ => true
  | .wframe _ _ => true
  | .rframe _ f => f == c.readFill
  | .wburst2 a v w => a == c.aFifoData && v == Const.anticollCmd && w == Const.anticollNvb

end Sys2Proof
end

