-- ==== Sys2Proof/Decode.lean ====
section
/-! DEFINITION. The encodings: frame bytes, the decoder of the command port and of a chip-select bracket, the encoder (30_encoding.md R90 to R105). -/

namespace Sys2Proof

/-- The frame byte of a write, of an address of any width (30_encoding.md R91). -/
def wframeByte (a : Nat) : Byte :=
  BitVec.ofNat 8 ((a <<< 1) &&& Const.frameAddrMask)

/-- The frame byte of a read, of an address of any width (30_encoding.md R91). -/
def rframeByte (a : Nat) : Byte :=
  BitVec.ofNat 8 (((a <<< 1) &&& Const.frameAddrMask) ||| Const.frameReadFlag)

/-! The fields of a frame byte (30_encoding.md R90). -/

def frameIsRead (t : Byte) : Bool := t.getLsbD 7
def frameAddr (t : Byte) : RegAddr := t.extractLsb' 1 6
def frameZ (t : Byte) : Bool := t.getLsbD 0

/-- Where an encoding stands: a word on the host's command port, or the bytes transmitted between a
CSL and its CSH. -/
inductive Encoded where
  | command (w : CmdWord)
  | bracket (bytes : List Byte)
  deriving DecidableEq, Repr

/-- Why bytes are no frame of this block (30_encoding.md R96, R97). -/
inductive DecodeError where
  /-- The bracket has no exchange or only one. -/
  | bracketTooShort
  /-- A read bracket of more than two exchanges. -/
  | readBurst
  /-- A write bracket of more than three exchanges. -/
  | writeTooLong
  /-- Bit 0 of the frame byte is set. -/
  | frameBitZeroSet
  deriving DecidableEq, Repr

/-! The fields of a command word (30_encoding.md R99). -/

def cmdOp (w : CmdWord) : OpCode := w.extractLsb' 16 4
def cmdAddr (w : CmdWord) : Byte := w.extractLsb' 8 8
def cmdData (w : CmdWord) : Byte := w.extractLsb' 0 8

/-- The instruction of an op code and its operand fields (30_encoding.md R100, R101): every one of
the sixteen op codes has one. Matched bit by bit, bit 3 first, as the table's pattern writes them. -/
def commandOf (op : OpCode) (addr data : Byte) : Instr :=
  match op.getLsbD 3, op.getLsbD 2, op.getLsbD 1, op.getLsbD 0 with
  | false, false, false, true => .wrreg addr data
  | false, false, true, false => .rdreg addr data
  | false, false, true, true => .setbits addr data
  | false, true, false, false => .clrbits addr data
  | false, true, false, true => .reset addr data
  | false, true, true, false => .anton addr data
  | false, true, true, true => .antoff addr data
  | true, false, false, false => .init addr data
  | true, false, false, true => .reqp addr data
  | true, false, true, false => .anticoll addr data
  | true, false, true, true => .getuid addr data
  | false, false, false, false => .reserved0 addr data
  | true, true, false, false => .reservedC addr data
  | true, true, false, true => .reservedD addr data
  | true, true, true, false => .reservedE addr data
  | true, true, true, true => .reservedF addr data

/-- The command port's decoder, total (30_encoding.md R105). -/
def decodeCommand (w : CmdWord) : Instr :=
  commandOf (cmdOp w) (cmdAddr w) (cmdData w)

/-- Classifying a bracket by its transmitted bytes, as 30_encoding.md R97 says and no more: bit 0 of
the frame byte is not looked at. -/
def classifyBracket : List Byte → Except DecodeError Instr
  | [] => .error .bracketTooShort
  | [_] => .error .bracketTooShort
  | [t0, t1] =>
    if frameIsRead t0 then .ok (.rframe (frameAddr t0) t1) else .ok (.wframe (frameAddr t0) t1)
  | [t0, t1, t2] =>
    if frameIsRead t0 then .error .readBurst else .ok (.wburst2 (frameAddr t0) t1 t2)
  | t0 :: _ =>
    if frameIsRead t0 then .error .readBurst else .error .writeTooLong

/-- The decoder of a bracket: R97, and bit 0 of the frame byte must be 0 (30_encoding.md R90, R96;
the table's fixed bit). -/
def decodeBracket (bytes : List Byte) : Except DecodeError Instr :=
  match classifyBracket bytes with
  | .error e => .error e
  | .ok i =>
    match bytes with
    | t0 :: _ => if frameZ t0 then .error .frameBitZeroSet else .ok i
    | [] => .error .bracketTooShort

/-- The decoder: total on any command word and any bracket. -/
def decode : Encoded → Except DecodeError Instr
  | .command w => .ok (decodeCommand w)
  | .bracket bytes => decodeBracket bytes

/-- A command word from its fields (30_encoding.md R99). -/
def commandWord (op : OpCode) (addr data : Byte) : CmdWord :=
  op ++ addr ++ data

/-- The encoder (30_encoding.md R92, R93, R94, R99, R100, R101). -/
def encode : Instr → Encoded
  | .wrreg a d => .command (commandWord 0x1 a d)
  | .rdreg a d => .command (commandWord 0x2 a d)
  | .setbits a d => .command (commandWord 0x3 a d)
  | .clrbits a d => .command (commandWord 0x4 a d)
  | .reset a d => .command (commandWord 0x5 a d)
  | .anton a d => .command (commandWord 0x6 a d)
  | .antoff a d => .command (commandWord 0x7 a d)
  | .init a d => .command (commandWord 0x8 a d)
  | .reqp a d => .command (commandWord 0x9 a d)
  | .anticoll a d => .command (commandWord 0xA a d)
  | .getuid a d => .command (commandWord 0xB a d)
  | .reserved0 a d => .command (commandWord 0x0 a d)
  | .reservedC a d => .command (commandWord 0xC a d)
  | .reservedD a d => .command (commandWord 0xD a d)
  | .reservedE a d => .command (commandWord 0xE a d)
  | .reservedF a d => .command (commandWord 0xF a d)
  | .wframe a v => .bracket [wframeByte a.toNat, v]
  | .rframe a f => .bracket [rframeByte a.toNat, f]
  | .wburst2 a v w => .bracket [wframeByte a.toNat, v, w]

/-- Byte k of a table word, byte 0 the least significant. -/
def tableByte (w k : Nat) : Byte := BitVec.ofNat 8 (w >>> (8 * k))

/-- A table word as it stands where the hardware has it: a 16-bit row is a two-byte bracket, first
byte the more significant (30_encoding.md R105); a row of 20 bits, given in 20 or 24 bits, is a
command word. A 24-bit word is taken as a command word when bits 23:20 are 0, else as a three-byte
bracket: the two kinds of 24-bit rows stand in different places of the hardware and the number alone
does not always tell them apart (log entry 10). -/
def tableEncoded (nbits w : Nat) : Option Encoded :=
  if nbits = 16 then
    if w < 2 ^ 16 then some (.bracket [tableByte w 1, tableByte w 0]) else none
  else if nbits = 20 ∨ nbits = 24 then
    if w < 2 ^ 20 then some (.command (BitVec.ofNat 20 w))
    else if nbits = 24 ∧ w < 2 ^ 24 then
      some (.bracket [tableByte w 2, tableByte w 1, tableByte w 0])
    else none
  else none

/-- The instruction the decoder reads from a table word. -/
def decodeTableWord (nbits w : Nat) : Option Instr :=
  match tableEncoded nbits w with
  | none => none
  | some e => (decode e).toOption

end Sys2Proof
end

