-- ==== Sys2Proof/Machine/State.lean ====
section
/-! DEFINITION. The machine's state as plain data: the block's lines, latches and position, the environment behind the bus, the history, and the inputs (10_state.md R20 to R50; 20_memory.md R66, R72, R73). -/

namespace Sys2Proof.Machine

/-! ## The drained bytes and the UID -/

/-- The drain buffer `buf[0..4]` (10_state.md R22): `b0` to `b3` the UID bytes, `b4` the checksum
byte (44_fifo_drain_parse.md R193). -/
structure Buf where
  b0 : Byte
  b1 : Byte
  b2 : Byte
  b3 : Byte
  b4 : Byte
  deriving DecidableEq, Repr

/-- The ten ASCII characters `uid_str[0..9]`, `c0` the leftmost (10_state.md R30). -/
structure UidStr where
  c0 : Byte
  c1 : Byte
  c2 : Byte
  c3 : Byte
  c4 : Byte
  c5 : Byte
  c6 : Byte
  c7 : Byte
  c8 : Byte
  c9 : Byte
  deriving DecidableEq, Repr

def Buf.zero : Buf := ⟨0, 0, 0, 0, 0⟩
def UidStr.zero : UidStr := ⟨0, 0, 0, 0, 0, 0, 0, 0, 0, 0⟩

/-- What ANTICOLL ends with (43_card_protocol.md R175 S8, S11): MATT's empty string, or the drained
bytes and their ten characters. -/
inductive AnticollResult where
  | empty
  | uid (raw : Buf) (str : UidStr)
  deriving DecidableEq, Repr

/-! ## Responses and history -/

/-- The status codes of 60_exceptions.md R211, code 7 included. -/
inductive Status where
  | ok
  | noCard
  | timeout
  | malformed
  | unresponsive
  | busFault
  | illegalOp
  | reserved7
  deriving DecidableEq, Repr

/-- The 3-bit code of a status (60_exceptions.md R211). -/
def Status.code : Status → BitVec 3
  | .ok => 0
  | .noCard => 1
  | .timeout => 2
  | .malformed => 3
  | .unresponsive => 4
  | .busFault => 5
  | .illegalOp => 6
  | .reserved7 => 7

/-- The response record (10_state.md R30). -/
structure Response where
  op : OpCode
  status : Status
  data : Byte
  presence : Bool
  uidLen : BitVec 4
  uidRaw : Buf
  uidStr : UidStr
  deriving DecidableEq, Repr

/-- One event of the bus trace (00_scope.md R12, R13). -/
inductive BusEvent where
  | csl
  | csh
  | x (tx rx : Byte)
  | dly (n : Nat)
  | rsth
  deriving DecidableEq, Repr

/-- One event of the history (10_state.md R20 part 3): an acceptance (R27), a bus event, a response
(R30, R31). -/
inductive Event where
  | cmd (op : OpCode) (addr data : Byte)
  | bus (e : BusEvent)
  | response (r : Response)
  deriving DecidableEq, Repr

/-! ## The sequencer position -/

/-- Where a body's operand comes from (20_memory.md R61; 30_encoding.md R104): the command's latch
(`a_lat` for an address, `d_lat` for a data byte), or a byte the caller gives. -/
inductive Operand where
  | latched
  | given (b : Byte)
  deriving DecidableEq, Repr

/-- The fill byte of a read frame: the parameter READ_FILL (30_encoding.md R93), or the fill byte of
an RFRAME instruction that is run on its own. -/
inductive Fill where
  | param
  | given (f : Byte)
  deriving DecidableEq, Repr

/-- Step labels of the body `wr` (40_register_access.md R123). -/
inductive WrAt where
  | s1 | s2 | s3 | s4
  deriving DecidableEq, Repr

/-- Step labels of the body `rd` (40_register_access.md R124); S4 holds the byte read, which no latch
of 10_state.md R22 does. -/
inductive RdAt where
  | s1 | s2 | s3
  | s4 (r : Byte)
  deriving DecidableEq, Repr

/-- Step labels of the body `wburst2` (40_register_access.md R126). -/
inductive BurstAt where
  | s1 | s2 | s3 | s4 | s5
  deriving DecidableEq, Repr

/-- Step labels of the bodies `setb` and `clrb` (41_bitmask.md R141, R142). -/
inductive RmwAt where
  | s1 | s2
  deriving DecidableEq, Repr

/-- Step labels of RESET (42_chip_control.md R151). -/
inductive ResetAt where
  | s1 | s2 | s3 | s4 | s5 | s6 | s7 | s8 | s9
  deriving DecidableEq, Repr

/-- Step labels of ANTON (42_chip_control.md R153). -/
inductive AntonAt where
  | s1 | s2 | s3
  deriving DecidableEq, Repr

/-- Step labels of ANTOFF (42_chip_control.md R154). -/
inductive AntoffAt where
  | s1
  deriving DecidableEq, Repr

/-- Step labels of INIT (42_chip_control.md R156). -/
inductive InitAt where
  | s1 | s2 | s3 | s4 | s5 | s6 | s7 | s8 | s9 | s10
  deriving DecidableEq, Repr

/-- Step labels of REQP (43_card_protocol.md R171). -/
inductive ReqpAt where
  | s1 | s2 | s3 | s4 | s5 | s6 | s7 | s8 | s9 | s10 | s11 | s12 | s13 | s14 | s15
  deriving DecidableEq, Repr

/-- Step labels of ANTICOLL (43_card_protocol.md R175); S11 holds the characters S10 made. -/
inductive AnticollAt where
  | s1 | s2 | s3 | s4 | s5 | s6 | s7 | s8 | s9 | s10
  | s11 (str : UidStr)
  deriving DecidableEq, Repr

/-- Step labels of the drain (44_fifo_drain_parse.md R192). -/
inductive DrainAt where
  | d1 | d2 | d3 | d4 | d5
  deriving DecidableEq, Repr

/-- Step labels of GETUID (43_card_protocol.md R178); S4 holds what ANTICOLL ended with. -/
inductive GetuidAt where
  | s1 | s2 | s3
  | s4 (u : AnticollResult)
  deriving DecidableEq, Repr

/-- One frame of the position stack: an operation, its operands, its step label (10_state.md R24). -/
inductive Frame where
  | wrreg (a v : Operand) (l : WrAt)
  | rdreg (a : Operand) (f : Fill) (l : RdAt)
  | wburst2 (a v0 v1 : Operand) (l : BurstAt)
  | setbits (a m : Operand) (l : RmwAt)
  | clrbits (a m : Operand) (l : RmwAt)
  | reset (l : ResetAt)
  | anton (l : AntonAt)
  | antoff (l : AntoffAt)
  | init (l : InitAt)
  | reqp (m : Operand) (l : ReqpAt)
  | anticoll (l : AnticollAt)
  | drain (l : DrainAt)
  | getuid (l : GetuidAt)
  deriving DecidableEq, Repr

/-- The position `run` (10_state.md R24). The stack of a busy block is never empty: `top` is its
innermost frame, `callers` the frames that called it, the caller of `top` first and the outermost
frame last. -/
inductive Run where
  | idle
  | busy (top : Frame) (callers : List Frame)
  deriving DecidableEq, Repr

/-! ## The environment -/

/-- The chip's registers as pairs (address, byte), addresses strictly rising, none of them 0x00: an
unlisted register reads 0x00 (20_memory.md R73). -/
abbrev Memory := List Host.Cell

/-- A queue of bytes `q[a]` of ENV_SCRIPT (20_memory.md R73): the bytes `items`, head first, and after
them, when `forever` holds a byte, that byte without end. R73 says "a queue of bytes" and does not say
whether it may be endless; 95_test_vectors.md V32 and P5 write queues "for ever" of one byte. That a
queue is finite or ends in one repeated byte is the model's reading (DESIGN CHOICE, log entry 21). -/
structure Queue where
  items : List Byte
  forever : Option Byte
  deriving DecidableEq, Repr

/-- The queues of ENV_SCRIPT (20_memory.md R73), addresses strictly rising, none empty: an unlisted
address has the empty queue. -/
abbrev Queues := List (Nat × Queue)

/-- The phase of the reference environments (20_memory.md R72). -/
inductive Phase where
  | off
  | addr
  | data (rw : Bool) (a : RegAddr)
  deriving DecidableEq, Repr

/-- The environment (20_memory.md R66, R72, R73). -/
inductive Env where
  /-- The unconstrained oracle of R66: each exchange takes the next byte of `answers`, and when none is
  left the next free draw; `drawn` counts the draws taken. -/
  | oracle (answers : List Byte) (drawn : Nat)
  /-- ENV_SCRIPT of R73; with no queue it is ENV_SIMPLE of R72. -/
  | script (regs : Memory) (queues : Queues) (phase : Phase)
  deriving DecidableEq, Repr

/-! ## The state -/

structure State where
  cs : Level
  rst : Level
  run : Run
  aLat : Byte
  dLat : Byte
  tmp : Byte
  irq : Byte
  lvl : Byte
  cnt : Nat
  buf : Buf
  presence : Bool
  timedOut : Bool
  history : List Event
  env : Env
  cfg : Config
  cmds : List CmdWord
  resetIn : List Bool
  deriving DecidableEq, Repr

/-- How a step can stop with no next state. None is the spec's: each is a move 00_scope.md R12 or
10_state.md R24 gives the block no way to make, in a state no run reaches. -/
inductive Fault where
  /-- The primitive CSL while `cs` is 0 (precondition of 00_scope.md R12). Safe: the machine stops. -/
  | cslWhileSelected
  /-- The primitive X while `cs` is 1 (precondition of 00_scope.md R12). Safe: the machine stops. -/
  | exchangeWhileDeselected
  /-- The primitive DLY while `cs` is 0 (precondition of 00_scope.md R12). Safe: the machine stops. -/
  | delayWhileSelected
  /-- A body ends and the frame below it stands at a step that called no such body, so the stack is
  none of 10_state.md R24. Raised by the shared return. Safe: the machine stops. -/
  | brokenStack
  deriving DecidableEq, Repr

/-- Why an instruction has no meaning. -/
inductive Refusal where
  /-- The instruction has no meaning yet; raised only by exec's arms. Safe: the machine stops. -/
  | notModelled (mnemonic : String)
  deriving DecidableEq, Repr

/-- The outcome of a step of this machine. -/
abbrev Outcome := Host.Outcome State Fault Refusal

/-- The state after the block's hardware reset (10_state.md R50; 70_reset_and_hazards.md R240). R50
leaves the latches unspecified: they are 0 here (DESIGN CHOICE, log entry 1). The configuration is
the default column of 00_scope.md R8 (log entry 2), the environment the oracle (log entry 3); no
command is presented and the reset input is inactive (log entries 4, 6). -/
def State.reset : State where
  cs := .high
  rst := .high
  run := .idle
  aLat := 0
  dLat := 0
  tmp := 0
  irq := 0
  lvl := 0
  cnt := 0
  buf := Buf.zero
  presence := false
  timedOut := false
  history := []
  env := .oracle [] 0
  cfg := Config.default
  cmds := []
  resetIn := []

end Sys2Proof.Machine
end

