-- ==== Sys2Proof/Machine/Memory.lean ====
section
/-! DEFINITION. The register file and the queues of the reference environments as canonical lists (20_memory.md R60, R72, R73). -/

namespace Sys2Proof.Machine

/-- What a register that is not listed reads as: "registers not listed are 0x00" (20_memory.md R73). -/
def Memory.unlisted : Byte := 0x00

namespace Memory

/-- Reading one register. -/
def read : Memory → Nat → Byte
  | [], _ => unlisted
  | (b, v) :: m, a => if a = b then v else read m a

/-- Storing a byte in a list with rising addresses. -/
def insert : Memory → Nat → Byte → Memory
  | [], a, v => [(a, v)]
  | (b, w) :: m, a, v =>
    if a < b then (a, v) :: (b, w) :: m
    else if a = b then (a, v) :: m
    else (b, w) :: insert m a v

/-- Removing the entry of an address. -/
def erase : Memory → Nat → Memory
  | [], _ => []
  | (b, w) :: m, a => if a = b then m else (b, w) :: erase m a

/-- Writing one register: a byte that an unlisted register would read removes the entry. -/
def write (m : Memory) (a : Nat) (v : Byte) : Memory :=
  if v = unlisted then erase m a else insert m a v

/-- Every address of the list is above `lo`, below 64 and above the ones before it, and no byte is
what an unlisted register reads as. -/
def wfAbove : Nat → Memory → Bool
  | _, [] => true
  | lo, (b, v) :: m => decide (lo ≤ b) && decide (b < 64) && (v != unlisted) && wfAbove (b + 1) m

/-- The canonical form, over the address space 0..63 (20_memory.md R60). -/
def wf (m : Memory) : Bool := wfAbove 0 m

end Memory

namespace Queue

def empty : Queue := ⟨[], none⟩

/-- The head of a queue and the queue with its head removed; none when it is empty (20_memory.md R73).
An endless rest is what it was after its head is removed. -/
def pop : Queue → Option (Byte × Queue)
  | ⟨b :: bs, r⟩ => some (b, ⟨bs, r⟩)
  | ⟨[], some b⟩ => some (b, ⟨[], some b⟩)
  | ⟨[], none⟩ => none

/-- The canonical form of a queue that is not empty: its last listed byte is none that the endless rest
would give anyway, so that equal queues are equal data. -/
def wf (q : Queue) : Bool := q.items.getLast? != q.forever

end Queue

namespace Queues

/-- The queue of an address; an unlisted address has the empty queue (20_memory.md R73). -/
def get : Queues → Nat → Queue
  | [], _ => Queue.empty
  | (b, l) :: q, a => if a = b then l else get q a

/-- The queues with the queue of one listed address replaced by `l`. -/
def put : Queues → Nat → Queue → Queues
  | [], _, _ => []
  | (b, k) :: q, a, l =>
    if a = b then (if l = Queue.empty then q else (b, l) :: q) else (b, k) :: put q a l

/-- The canonical form: addresses rising and below 64, every queue canonical and none empty. -/
def wfAbove : Nat → Queues → Bool
  | _, [] => true
  | lo, (b, l) :: q => decide (lo ≤ b) && decide (b < 64) && l.wf && wfAbove (b + 1) q

def wf (q : Queues) : Bool := wfAbove 0 q

end Queues

end Sys2Proof.Machine
end

