-- ==== Sys2Proof/Machine/Env.lean ====
section
/-! DEFINITION. The environment's answers to the five primitives (20_memory.md R66, R70, R72, R73). -/

namespace Sys2Proof.Machine.Env

/-- `Env.csl()` (20_memory.md R66, R72). -/
def csl : Env → Env
  | .oracle bs n => .oracle bs n
  | .script regs queues _ => .script regs queues .addr

/-- `Env.csh()` (20_memory.md R66, R72). -/
def csh : Env → Env
  | .oracle bs n => .oracle bs n
  | .script regs queues _ => .script regs queues .off

/-- `Env.dly(n)`: nothing (20_memory.md R66, R72). -/
def dly (_n : Nat) : Env → Env
  | .oracle bs n => .oracle bs n
  | .script regs queues phase => .script regs queues phase

/-- `Env.rsth()`: nothing (20_memory.md R66, R72). -/
def rsth : Env → Env
  | .oracle bs n => .oracle bs n
  | .script regs queues phase => .script regs queues phase

/-- `Env.xfer(tx) -> rx` (20_memory.md R66, R72, R73). An exchange in the phase Off "cannot happen"
(R72); the answer there is a free draw, so that no step of the block depends on the environment. -/
def xfer (tx : Byte) : Env → Byte × Env
  | .oracle (b :: bs) n => (b, .oracle bs n)
  | .oracle [] n => (Config.freeByte n, .oracle [] (n + 1))
  | .script regs queues .off => (Config.freeByte 0, .script regs queues .off)
  | .script regs queues .addr => (0x00, .script regs queues (.data (frameIsRead tx) (frameAddr tx)))
  | .script regs queues (.data false a) =>
    (0x00, .script (regs.write a.toNat tx) queues (.data false a))
  | .script regs queues (.data true a) =>
    match (Queues.get queues a.toNat).pop with
    | some (b, rest) => (b, .script regs (queues.put a.toNat rest) (.data true a))
    | none => (regs.read a.toNat, .script regs queues (.data true a))

/-- ENV_SIMPLE started with the registers `regs` (20_memory.md R72). -/
def simple (regs : Memory) : Env := .script regs [] .off

/-- ENV_SCRIPT(reg0, q) (20_memory.md R73). -/
def scripted (reg0 : Memory) (q : Queues) : Env := .script reg0 q .off

/-- The canonical form of the environment's register file and queues. -/
def wf : Env → Bool
  | .oracle _ _ => true
  | .script regs queues _ => regs.wf && queues.wf

end Sys2Proof.Machine.Env
end

