-- ==== Sys2Proof/Machine/Operands.lean ====
section
/-! DEFINITION. Operand forms (20_memory.md R61; 30_encoding.md R104; 41_bitmask.md R141, R142, R145) and the formatting of the UID (44_fifo_drain_parse.md R195, R196). -/

namespace Sys2Proof.Machine

/-- An address operand: the latch `a_lat`, or the byte given (20_memory.md R61). -/
def Operand.addr (o : Operand) (s : State) : Byte :=
  match o with
  | .latched => s.aLat
  | .given b => b

/-- A data operand: the latch `d_lat`, or the byte given (30_encoding.md R104). -/
def Operand.data (o : Operand) (s : State) : Byte :=
  match o with
  | .latched => s.dLat
  | .given b => b

/-- The byte transmitted while one is received (30_encoding.md R93). -/
def Fill.byte (f : Fill) (s : State) : Byte :=
  match f with
  | .param => s.cfg.readFill
  | .given b => b

/-- A configured register address as an operand (00_scope.md R8). -/
def Operand.ofReg (a : RegAddr) : Operand := .given (a.zeroExtend 8)

/-- The byte SETBITS writes (41_bitmask.md R141 S2). -/
def setResult (tmp m : Byte) : Byte := tmp ||| m

/-- The byte CLRBITS writes, `~m` taken in 8 bits (41_bitmask.md R142 S2). -/
def clearResult (tmp m : Byte) : Byte := tmp &&& ~~~m

/-- The nibble-to-character function (44_fifo_drain_parse.md R195). -/
def hexchar (n : BitVec 4) : Byte :=
  if n.toNat ≤ 9 then BitVec.ofNat 8 (0x30 + n.toNat) else BitVec.ofNat 8 (0x41 + (n.toNat - 10))

def highNibble (b : Byte) : BitVec 4 := b.extractLsb' 4 4
def lowNibble (b : Byte) : BitVec 4 := b.extractLsb' 0 4

/-- The format: two characters per byte, the high nibble first (44_fifo_drain_parse.md R196). -/
def formatUid (b : Buf) : UidStr where
  c0 := hexchar (highNibble b.b0)
  c1 := hexchar (lowNibble b.b0)
  c2 := hexchar (highNibble b.b1)
  c3 := hexchar (lowNibble b.b1)
  c4 := hexchar (highNibble b.b2)
  c5 := hexchar (lowNibble b.b2)
  c6 := hexchar (highNibble b.b3)
  c7 := hexchar (lowNibble b.b3)
  c8 := hexchar (highNibble b.b4)
  c9 := hexchar (lowNibble b.b4)

def Buf.toList (b : Buf) : List Byte := [b.b0, b.b1, b.b2, b.b3, b.b4]

/-- The parse (44_fifo_drain_parse.md R193): four UID bytes and the checksum byte, named and nothing
more; the checksum is not verified (R194). -/
def Buf.uid (b : Buf) : List Byte := [b.b0, b.b1, b.b2, b.b3]
def Buf.checksum (b : Buf) : Byte := b.b4

def UidStr.toList (u : UidStr) : List Byte :=
  [u.c0, u.c1, u.c2, u.c3, u.c4, u.c5, u.c6, u.c7, u.c8, u.c9]

end Sys2Proof.Machine
end

