-- ==== Sys2Proof/Machine/Flags.lean ====
section
/-! DEFINITION. The tests the steps make, the presence flag and the selection of the status (10_state.md R32; 41_bitmask.md R145; 43_card_protocol.md R173, R174; 60_exceptions.md R213). -/

namespace Sys2Proof.Machine

/-- RESET S5: `(tmp & 0x10) == 0` (42_chip_control.md R151). -/
def busyClear (tmp : Byte) : Bool := (tmp &&& Const.cmdBusyMask) == 0

/-- ANTON S2: `(tmp & 0x03) == 0x03` (42_chip_control.md R153). -/
def antennaIsOn (tmp : Byte) : Bool := (tmp &&& Const.antMask) == Const.antMask

/-- REQP S10: `(irq & 0x30) != 0` (43_card_protocol.md R171). -/
def irqSeen (irq : Byte) : Bool := (irq &&& Const.irqWaitMask) != 0

/-- RESET S8: "RESET_POLL_MAX is a number and cnt == RESET_POLL_MAX" (42_chip_control.md R151). -/
def resetBoundReached (max : Option Nat) (cnt : Nat) : Bool :=
  match max with
  | none => false
  | some n => cnt == n

/-- REQP S15: `lvl == 2`, all eight bits (43_card_protocol.md R171, R173, R174). -/
def presenceOf (lvl : Byte) : Bool := lvl == Const.atqaLen

/-- ANTICOLL S8 goes on when `lvl == 5`, all eight bits (43_card_protocol.md R173, R175). -/
def uidReady (lvl : Byte) : Bool := lvl == Const.uidFrameLen

/-- The status when REQP ends with `presence == 0`, tested in this order (60_exceptions.md R213). -/
def absentStatus (timedOut : Bool) (lvl : Byte) : Status :=
  if timedOut then .timeout else if lvl == 0 then .noCard else .malformed

/-- REQP's status (43_card_protocol.md R171, 60_exceptions.md R213). -/
def reqpStatus (presence timedOut : Bool) (lvl : Byte) : Status :=
  if presence then .ok else absentStatus timedOut lvl

/-- ANTICOLL's status (43_card_protocol.md R175, 60_exceptions.md R213). -/
def AnticollResult.status : AnticollResult → Status
  | .empty => .malformed
  | .uid _ _ => .ok

end Sys2Proof.Machine
end

