-- ==== Sys2Proof/Machine/Ops.lean ====
section
/-! DEFINITION. The named operations every step is made of: the five primitives (00_scope.md R12), the response (10_state.md R30), the abnormal completion (60_exceptions.md R217), acceptance (10_state.md R27), the block's own reset (70_reset_and_hazards.md R240, R241). -/

namespace Sys2Proof.Machine

/-! ## The history and its views -/

/-- One bus event appended to the history (00_scope.md R12, R13). -/
def emit (e : BusEvent) (s : State) : State :=
  { s with history := s.history ++ [.bus e] }

def Event.bus? : Event → Option BusEvent
  | .bus e => some e
  | .cmd _ _ _ => none
  | .response _ => none

def Event.response? : Event → Option Response
  | .response r => some r
  | .cmd _ _ _ => none
  | .bus _ => none

def Event.isCmd : Event → Bool
  | .cmd _ _ _ => true
  | .bus _ => false
  | .response _ => false

/-- The bus trace (00_scope.md R13). -/
def State.trace (s : State) : List BusEvent := s.history.filterMap Event.bus?

/-- The responses emitted (10_state.md R20, R30). -/
def State.responses (s : State) : List Response := s.history.filterMap Event.response?

/-! ## The command port (10_state.md R26) -/

def State.cmdReady (s : State) : Bool :=
  match s.run with
  | .idle => true
  | .busy _ _ => false

def State.cmdValid (s : State) : Bool := !s.cmds.isEmpty

/-! ## The primitives (00_scope.md R12) -/

/-- `CSL()`, whose precondition is `cs == 1`. -/
def csl (s : State) : Except Fault State :=
  match s.cs with
  | .high => .ok (emit .csl { s with cs := .low, env := s.env.csl })
  | .low => .error .cslWhileSelected

/-- `CSH()`, which has no precondition. -/
def csh (s : State) : State :=
  emit .csh { s with cs := .high, env := s.env.csh }

/-- `X(tx) -> rx`, whose precondition is `cs == 0`. -/
def exchange (tx : Byte) (s : State) : Except Fault (Byte × State) :=
  match s.cs with
  | .low =>
    .ok ((s.env.xfer tx).1, emit (.x tx (s.env.xfer tx).1) { s with env := (s.env.xfer tx).2 })
  | .high => .error .exchangeWhileDeselected

/-- "Transmit byte": X with the received byte discarded (40_register_access.md R121). -/
def transmit (tx : Byte) (s : State) : Except Fault State :=
  match exchange tx s with
  | .ok (_, s') => .ok s'
  | .error e => .error e

/-- `DLY(n)`, whose precondition is `cs == 1`. -/
def delay (n : Nat) (s : State) : Except Fault State :=
  match s.cs with
  | .high => .ok (emit (.dly n) { s with env := s.env.dly n })
  | .low => .error .delayWhileSelected

/-- `RSTH()`, which has no precondition. -/
def rsth (s : State) : State :=
  emit .rsth { s with rst := .high, env := s.env.rsth }

/-! ## Moving the position (10_state.md R24) -/

/-- `upc`: the position becomes `f` over the callers `K`. -/
def goto (f : Frame) (K : List Frame) (s : State) : State :=
  { s with run := .busy f K }

/-- A call: the frame `callee` is pushed on the frame `f` that calls it. -/
def call (callee f : Frame) (K : List Frame) (s : State) : State :=
  { s with run := .busy callee (f :: K) }

/-- The step goes on from what a primitive gave, or stops with its fault. -/
def andThen (x : Except Fault State) (k : State → Outcome) : Outcome :=
  match x with
  | .ok s => k s
  | .error e => .fault e

/-! ## Responses (10_state.md R30) -/

/-- The response of an operation that returns nothing: every field but op and status zero. -/
def Response.plain (op : OpCode) (status : Status) : Response where
  op := op
  status := status
  data := 0
  presence := false
  uidLen := 0
  uidRaw := Buf.zero
  uidStr := UidStr.zero

/-- The UID fields of a response (10_state.md R30, 44_fifo_drain_parse.md R198): all zero, or length
10 with the five bytes and their ten characters. -/
def Response.withUid (r : Response) : AnticollResult → Response
  | .empty => r
  | .uid raw str => { r with uidLen := 10, uidRaw := raw, uidStr := str }

/-- A response is emitted and the block is Idle again (10_state.md R30, R31; 70_reset_and_hazards.md
R251). -/
def respond (r : Response) (s : State) : State :=
  { s with run := .idle, history := s.history ++ [.response r] }

/-- The op code of the command whose outermost frame this is (30_encoding.md R100). A body that stands
outermost with operands that are not the command's latches is a frame run on its own and answers no
command; so is the burst, which no command is (30_encoding.md R94). -/
def Frame.commandOp : Frame → Option OpCode
  | .wrreg .latched .latched _ => some 0x1
  | .wrreg _ _ _ => none
  | .rdreg .latched .param _ => some 0x2
  | .rdreg _ _ _ => none
  | .wburst2 _ _ _ _ => none
  | .setbits _ _ _ => some 0x3
  | .clrbits _ _ _ => some 0x4
  | .reset _ => some 0x5
  | .anton _ => some 0x6
  | .antoff _ => some 0x7
  | .init _ => some 0x8
  | .reqp _ _ => some 0x9
  | .anticoll _ => some 0xA
  | .drain _ => none
  | .getuid _ => some 0xB

/-- The outermost frame of a stack. -/
def outermost (f : Frame) : List Frame → Frame
  | [] => f
  | c :: K => outermost c K

/-- The op code of the command in progress (10_state.md R27, R30). -/
def Run.commandOp : Run → Option OpCode
  | .idle => none
  | .busy f K => (outermost f K).commandOp

/-! ## The abnormal completion (00_scope.md R15; 60_exceptions.md R217) -/

/-- `raise`: `cs` is driven to 1 if it is 0, the response is emitted with the status and every other
field zero, the whole frame stack is dropped and the block is Idle. There is no return from it
(60_exceptions.md R220). A frame run on its own (no op code) answers no command. -/
def raise (op : Option OpCode) (status : Status) (s : State) : State :=
  let s1 := match s.cs with
    | .low => csh s
    | .high => s
  match op with
  | some o => respond (Response.plain o status) s1
  | none => { s1 with run := .idle }

/-! ## Acceptance (10_state.md R27) -/

/-- What acceptance of any command does: both latches written, the event CMD appended. -/
def latchCommand (op : OpCode) (addr data : Byte) (s : State) : State :=
  { s with aLat := addr, dLat := data, history := s.history ++ [.cmd op addr data] }

/-- Acceptance of a command whose outermost frame is `f`. -/
def accept (op : OpCode) (addr data : Byte) (f : Frame) (s : State) : State :=
  goto f [] (latchCommand op addr data s)

/-- Acceptance of a reserved op code: the command completes at once with ILLEGAL_OP
(60_exceptions.md R215). -/
def acceptReserved (op : OpCode) (addr data : Byte) (s : State) : State :=
  raise (some op) .illegalOp (latchCommand op addr data s)

/-! ## The block's reset input (10_state.md R50; 70_reset_and_hazards.md R240, R241) -/

/-- Reset drives `cs` to 1, drops the command without a response and leaves the state of R50. The chip
is not reset: its environment only sees chip-select go high if it was low. The configuration, the
environment and the inputs to come are kept. -/
def hardReset (s : State) : State :=
  let env := match s.cs with
    | .low => s.env.csh
    | .high => s.env
  { State.reset with env := env, cfg := s.cfg, cmds := s.cmds, resetIn := s.resetIn }

end Sys2Proof.Machine
end

