-- ==== Sys2Proof/Machine/Return.lean ====
section
/-! DEFINITION. How a body ends: its frame is popped, its result goes to the caller and the caller moves to its next label, or the command completes with its response (10_state.md R24, R30; 43_card_protocol.md R180). -/

namespace Sys2Proof.Machine

/-- What a body gives its caller: nothing, the byte of `rd`, or ANTICOLL's result. -/
inductive Ret where
  | nothing
  | byte (r : Byte)
  | anticoll (u : AnticollResult)
  deriving DecidableEq, Repr

/-- What a caller does when the body it called has ended: it goes on at a frame, or, when the call was
its last step, it ends too. -/
inductive Resume where
  | goesOn (f : Frame) (s : State)
  | ends (s : State)

/-- The step of a caller that the return of its callee completes. The rule of each line is that of the
caller's step list; a frame that stands at no call, or at a call of another body, has no line. -/
def afterCall (c : Frame) (r : Ret) (s : State) : Option Resume :=
  match c, r with
  | .setbits a m .s1, .byte b => some (.goesOn (.setbits a m .s2) { s with tmp := b })
  | .setbits _ _ .s2, .nothing => some (.ends s)
  | .clrbits a m .s1, .byte b => some (.goesOn (.clrbits a m .s2) { s with tmp := b })
  | .clrbits _ _ .s2, .nothing => some (.ends s)
  | .reset .s1, .nothing => some (.goesOn (.reset .s2) s)
  | .reset .s4, .byte b => some (.goesOn (.reset .s5) { s with tmp := b })
  | .anton .s1, .byte b => some (.goesOn (.anton .s2) { s with tmp := b })
  | .anton .s3, .nothing => some (.ends s)
  | .antoff .s1, .nothing => some (.ends s)
  | .init .s4, .nothing => some (.goesOn (.init .s5) s)
  | .init .s5, .nothing => some (.goesOn (.init .s6) s)
  | .init .s6, .nothing => some (.goesOn (.init .s7) s)
  | .init .s7, .nothing => some (.goesOn (.init .s8) s)
  | .init .s8, .nothing => some (.goesOn (.init .s9) s)
  | .init .s9, .nothing => some (.goesOn (.init .s10) s)
  | .init .s10, .nothing => some (.ends s)
  | .reqp m .s1, .nothing => some (.goesOn (.reqp m .s2) s)
  | .reqp m .s2, .nothing => some (.goesOn (.reqp m .s3) s)
  | .reqp m .s3, .nothing => some (.goesOn (.reqp m .s4) s)
  | .reqp m .s4, .nothing => some (.goesOn (.reqp m .s5) s)
  | .reqp m .s5, .nothing => some (.goesOn (.reqp m .s6) s)
  | .reqp m .s7, .nothing => some (.goesOn (.reqp m .s8) s)
  | .reqp m .s9, .byte b => some (.goesOn (.reqp m .s10) { s with irq := b })
  | .reqp m .s14, .byte b => some (.goesOn (.reqp m .s15) { s with lvl := b })
  | .anticoll .s1, .nothing => some (.goesOn (.anticoll .s2) s)
  | .anticoll .s2, .nothing => some (.goesOn (.anticoll .s3) s)
  | .anticoll .s3, .nothing => some (.goesOn (.anticoll .s4) s)
  | .anticoll .s4, .nothing => some (.goesOn (.anticoll .s5) s)
  | .anticoll .s6, .nothing => some (.goesOn (.anticoll .s7) s)
  | .anticoll .s7, .byte b => some (.goesOn (.anticoll .s8) { s with lvl := b })
  | .anticoll .s9, .nothing => some (.goesOn (.anticoll .s10) s)
  | .drain .d1, .byte b => some (.goesOn (.drain .d2) { s with buf := { s.buf with b0 := b } })
  | .drain .d2, .byte b => some (.goesOn (.drain .d3) { s with buf := { s.buf with b1 := b } })
  | .drain .d3, .byte b => some (.goesOn (.drain .d4) { s with buf := { s.buf with b2 := b } })
  | .drain .d4, .byte b => some (.goesOn (.drain .d5) { s with buf := { s.buf with b3 := b } })
  | .drain .d5, .byte b => some (.ends { s with buf := { s.buf with b4 := b } })
  | .getuid .s1, .nothing => some (.goesOn (.getuid .s2) s)
  | .getuid .s3, .anticoll u => some (.goesOn (.getuid (.s4 u)) s)
  | _, _ => none

/-- GETUID's response (43_card_protocol.md R178 S2, S4): with no ANTICOLL result it is S2's, with one
it is S4's. -/
def getuidResponse (r : Ret) (s : State) : Response :=
  match r with
  | .anticoll u => { Response.plain 0xB u.status with presence := true }.withUid u
  | .nothing => Response.plain 0xB (absentStatus s.timedOut s.lvl)
  | .byte _ => Response.plain 0xB (absentStatus s.timedOut s.lvl)

/-- The response fields of a command that completes normally, by its op code and what its outermost
operation ended with (10_state.md R30; the **Response** entry of each operation's rule). -/
def responseOf (op : OpCode) (f : Frame) (r : Ret) (s : State) : Response :=
  match f, r with
  | .rdreg _ _ _, .byte b => { Response.plain op .ok with data := b }
  | .reqp _ _, _ =>
    { Response.plain op (reqpStatus s.presence s.timedOut s.lvl) with presence := s.presence }
  | .anticoll _, .anticoll u => (Response.plain op u.status).withUid u
  | .getuid _, _ => getuidResponse r s
  | _, _ => Response.plain op .ok

/-- The outermost operation has ended: the command's response, and Idle (10_state.md R30). A frame run
on its own answers no command. -/
def complete (f : Frame) (r : Ret) (s : State) : State :=
  match f.commandOp with
  | some op => respond (responseOf op f r s) s
  | none => { s with run := .idle }

/-- The operation of frame `f` has ended with result `r` over the callers `K`: "its last step pops it
and the caller moves to its next label" (10_state.md R24); a caller whose last step the call was ends
in the same step. -/
def ret : List Frame → Frame → Ret → State → Outcome
  | [], f, r, s => .next (complete f r s)
  | c :: K, _, r, s =>
    match afterCall c r s with
    | some (.goesOn g s') => .next (goto g K s')
    | some (.ends s') => ret K c .nothing s'
    | none => .fault .brokenStack

end Sys2Proof.Machine
end

