-- ==== Sys2Proof/Machine/AccessSteps.lean ====
section
/-! DEFINITION. The step lists of the register access layer: the bodies `wr`, `rd`, `wburst2` (40_register_access.md R121 to R127). -/

namespace Sys2Proof.Machine

/-- `wr(a, v)` (40_register_access.md R123). -/
def stepWrreg (a v : Operand) (l : WrAt) (K : List Frame) (s : State) : Outcome :=
  match l with
  | .s1 => andThen (csl s) fun s => .next (goto (.wrreg a v .s2) K s)
  | .s2 => andThen (transmit (wframeByte (a.addr s).toNat) s) fun s => .next (goto (.wrreg a v .s3) K s)
  | .s3 => andThen (transmit (v.data s) s) fun s => .next (goto (.wrreg a v .s4) K s)
  | .s4 => ret K (.wrreg a v .s4) .nothing (csh s)

/-- `rd(a) -> r` (40_register_access.md R124). -/
def stepRdreg (a : Operand) (f : Fill) (l : RdAt) (K : List Frame) (s : State) : Outcome :=
  match l with
  | .s1 => andThen (csl s) fun s => .next (goto (.rdreg a f .s2) K s)
  | .s2 => andThen (transmit (rframeByte (a.addr s).toNat) s) fun s => .next (goto (.rdreg a f .s3) K s)
  | .s3 =>
    match exchange (f.byte s) s with
    | .ok (r, s) => .next (goto (.rdreg a f (.s4 r)) K s)
    | .error e => .fault e
  | .s4 r => ret K (.rdreg a f (.s4 r)) (.byte r) (csh s)

/-- `wburst2(a, v0, v1)` (40_register_access.md R126). -/
def stepWburst2 (a v0 v1 : Operand) (l : BurstAt) (K : List Frame) (s : State) : Outcome :=
  match l with
  | .s1 => andThen (csl s) fun s => .next (goto (.wburst2 a v0 v1 .s2) K s)
  | .s2 => andThen (transmit (wframeByte (a.addr s).toNat) s) fun s => .next (goto (.wburst2 a v0 v1 .s3) K s)
  | .s3 => andThen (transmit (v0.data s) s) fun s => .next (goto (.wburst2 a v0 v1 .s4) K s)
  | .s4 => andThen (transmit (v1.data s) s) fun s => .next (goto (.wburst2 a v0 v1 .s5) K s)
  | .s5 => ret K (.wburst2 a v0 v1 .s5) .nothing (csh s)

/-! The callee frames, as a caller pushes them. -/

def callWr (a : RegAddr) (v : Byte) : Frame := .wrreg (.ofReg a) (.given v) .s1
def callRd (a : RegAddr) : Frame := .rdreg (.ofReg a) .param .s1
def callWburst2 (a : RegAddr) (v0 v1 : Byte) : Frame := .wburst2 (.ofReg a) (.given v0) (.given v1) .s1

end Sys2Proof.Machine
end

