-- ==== Sys2Proof/Machine/BitmaskSteps.lean ====
section
/-! DEFINITION. The step lists of the bit-mask helpers: the bodies `setb`, `clrb` (41_bitmask.md R140, R141, R142). -/

namespace Sys2Proof.Machine

/-- `setb(a, m)` (41_bitmask.md R141). -/
def stepSetbits (a m : Operand) (l : RmwAt) (K : List Frame) (s : State) : Outcome :=
  match l with
  | .s1 => .next (call (.rdreg a .param .s1) (.setbits a m .s1) K s)
  | .s2 => .next (call (.wrreg a (.given (setResult s.tmp (m.data s))) .s1) (.setbits a m .s2) K s)

/-- `clrb(a, m)` (41_bitmask.md R142). -/
def stepClrbits (a m : Operand) (l : RmwAt) (K : List Frame) (s : State) : Outcome :=
  match l with
  | .s1 => .next (call (.rdreg a .param .s1) (.clrbits a m .s1) K s)
  | .s2 => .next (call (.wrreg a (.given (clearResult s.tmp (m.data s))) .s1) (.clrbits a m .s2) K s)

/-! The callee frames, as a caller pushes them. -/

def callSetb (a : RegAddr) (m : Byte) : Frame := .setbits (.ofReg a) (.given m) .s1
def callClrb (a : RegAddr) (m : Byte) : Frame := .clrbits (.ofReg a) (.given m) .s1

end Sys2Proof.Machine
end

