-- ==== Sys2Proof/Machine/ControlSteps.lean ====
section
/-! DEFINITION. The step lists of the chip control protocol: RESET, ANTON, ANTOFF, INIT (42_chip_control.md R151 to R158). -/

namespace Sys2Proof.Machine

/-- RESET (42_chip_control.md R151; 60_exceptions.md R214). -/
def stepReset (l : ResetAt) (K : List Frame) (s : State) : Outcome :=
  match l with
  | .s1 => .next (call (callWr s.cfg.aCommand s.cfg.cmdSoftReset) (.reset .s1) K s)
  | .s2 => andThen (delay Const.tSettle s) fun s => .next (goto (.reset .s3) K s)
  | .s3 => .next (goto (.reset .s4) K { s with cnt := 0 })
  | .s4 => .next (call (callRd s.cfg.aCommand) (.reset .s4) K s)
  | .s5 => if busyClear s.tmp then ret K (.reset .s5) .nothing s else .next (goto (.reset .s6) K s)
  | .s6 => andThen (delay Const.tPoll s) fun s => .next (goto (.reset .s7) K s)
  | .s7 => .next (goto (.reset .s8) K { s with cnt := s.cnt + 1 })
  | .s8 =>
    if resetBoundReached s.cfg.resetPollMax s.cnt then .next (raise s.run.commandOp .unresponsive s)
    else .next (goto (.reset .s9) K s)
  | .s9 => .next (goto (.reset .s4) K s)

/-- ANTON (42_chip_control.md R153). -/
def stepAnton (l : AntonAt) (K : List Frame) (s : State) : Outcome :=
  match l with
  | .s1 => .next (call (callRd s.cfg.aTxControl) (.anton .s1) K s)
  | .s2 => if antennaIsOn s.tmp then ret K (.anton .s2) .nothing s else .next (goto (.anton .s3) K s)
  | .s3 => .next (call (callSetb s.cfg.aTxControl Const.antMask) (.anton .s3) K s)

/-- ANTOFF (42_chip_control.md R154). -/
def stepAntoff (l : AntoffAt) (K : List Frame) (s : State) : Outcome :=
  match l with
  | .s1 => .next (call (callClrb s.cfg.aTxControl Const.antMask) (.antoff .s1) K s)

/-- INIT (42_chip_control.md R156); S1 has no effect (R158). -/
def stepInit (l : InitAt) (K : List Frame) (s : State) : Outcome :=
  match l with
  | .s1 => .next (goto (.init .s2) K s)
  | .s2 => .next (goto (.init .s3) K (csh s))
  | .s3 => .next (goto (.init .s4) K (rsth s))
  | .s4 => .next (call (.reset .s1) (.init .s4) K s)
  | .s5 => .next (call (callWr s.cfg.initWrites.w1.addr s.cfg.initWrites.w1.value) (.init .s5) K s)
  | .s6 => .next (call (callWr s.cfg.initWrites.w2.addr s.cfg.initWrites.w2.value) (.init .s6) K s)
  | .s7 => .next (call (callWr s.cfg.initWrites.w3.addr s.cfg.initWrites.w3.value) (.init .s7) K s)
  | .s8 => .next (call (callWr s.cfg.initWrites.w4.addr s.cfg.initWrites.w4.value) (.init .s8) K s)
  | .s9 => .next (call (callWr s.cfg.initWrites.w5.addr s.cfg.initWrites.w5.value) (.init .s9) K s)
  | .s10 => .next (call (.anton .s1) (.init .s10) K s)

end Sys2Proof.Machine
end

