-- ==== Sys2Proof/Machine/CardSteps.lean ====
section
/-! DEFINITION. The step lists of the card protocol: REQP, ANTICOLL, the drain, GETUID (43_card_protocol.md R170 to R178; 44_fifo_drain_parse.md R190 to R196). -/

namespace Sys2Proof.Machine

/-- `reqp(m)` (43_card_protocol.md R171). -/
def stepReqp (m : Operand) (l : ReqpAt) (K : List Frame) (s : State) : Outcome :=
  match l with
  | .s1 => .next (call (callWr s.cfg.aBitFraming s.cfg.bfShort) (.reqp m .s1) K s)
  | .s2 => .next (call (callSetb s.cfg.aFifoLevel s.cfg.flushMask) (.reqp m .s2) K s)
  | .s3 => .next (call (callWr s.cfg.aFifoData (m.data s)) (.reqp m .s3) K s)
  | .s4 => .next (call (callWr s.cfg.aCommand s.cfg.cmdTransceive) (.reqp m .s4) K s)
  | .s5 => .next (call (callSetb s.cfg.aBitFraming s.cfg.startSendMask) (.reqp m .s5) K s)
  | .s6 => andThen (delay Const.tSend s) fun s => .next (goto (.reqp m .s7) K s)
  | .s7 => .next (call (callClrb s.cfg.aBitFraming s.cfg.startSendMask) (.reqp m .s7) K s)
  | .s8 => .next (goto (.reqp m .s9) K { s with cnt := 0, timedOut := false })
  | .s9 => .next (call (callRd s.cfg.aComIrq) (.reqp m .s9) K s)
  | .s10 => if irqSeen s.irq then .next (goto (.reqp m .s14) K s) else .next (goto (.reqp m .s11) K s)
  | .s11 => andThen (delay Const.tPoll s) fun s => .next (goto (.reqp m .s12) K s)
  | .s12 => .next (goto (.reqp m .s13) K { s with cnt := s.cnt + 1 })
  | .s13 =>
    if s.cnt < Const.irqPollMax then .next (goto (.reqp m .s9) K s)
    else .next (goto (.reqp m .s14) K { s with timedOut := true })
  | .s14 => .next (call (callRd s.cfg.aFifoLevel) (.reqp m .s14) K s)
  | .s15 => ret K (.reqp m .s15) .nothing { s with presence := presenceOf s.lvl }

/-- `anticoll()` (43_card_protocol.md R175). -/
def stepAnticoll (l : AnticollAt) (K : List Frame) (s : State) : Outcome :=
  match l with
  | .s1 => .next (call (callSetb s.cfg.aFifoLevel s.cfg.flushMask) (.anticoll .s1) K s)
  | .s2 => .next (call (callWburst2 s.cfg.aFifoData Const.anticollCmd Const.anticollNvb) (.anticoll .s2) K s)
  | .s3 => .next (call (callWr s.cfg.aCommand s.cfg.cmdTransceive) (.anticoll .s3) K s)
  | .s4 => .next (call (callSetb s.cfg.aBitFraming s.cfg.startSendMask) (.anticoll .s4) K s)
  | .s5 => andThen (delay Const.tSend s) fun s => .next (goto (.anticoll .s6) K s)
  | .s6 => .next (call (callClrb s.cfg.aBitFraming s.cfg.startSendMask) (.anticoll .s6) K s)
  | .s7 => .next (call (callRd s.cfg.aFifoLevel) (.anticoll .s7) K s)
  | .s8 =>
    if uidReady s.lvl then .next (goto (.anticoll .s9) K s)
    else ret K (.anticoll .s8) (.anticoll .empty) s
  | .s9 => .next (call (.drain .d1) (.anticoll .s9) K s)
  | .s10 => .next (goto (.anticoll (.s11 (formatUid s.buf))) K s)
  | .s11 str => ret K (.anticoll (.s11 str)) (.anticoll (.uid s.buf str)) s

/-- The drain (44_fifo_drain_parse.md R192). -/
def stepDrain (l : DrainAt) (K : List Frame) (s : State) : Outcome :=
  .next (call (callRd s.cfg.aFifoData) (.drain l) K s)

/-- GETUID (43_card_protocol.md R178). -/
def stepGetuid (l : GetuidAt) (K : List Frame) (s : State) : Outcome :=
  match l with
  | .s1 => .next (call (.reqp (.given Const.reqa) .s1) (.getuid .s1) K s)
  | .s2 =>
    if s.presence then .next (goto (.getuid .s3) K s) else ret K (.getuid .s2) .nothing s
  | .s3 => .next (call (.anticoll .s1) (.getuid .s3) K s)
  | .s4 u => ret K (.getuid (.s4 u)) (.anticoll u) s

end Sys2Proof.Machine
end

