-- ==== Sys2Proof/Machine/Sequencer.lean ====
section
/-! DEFINITION. The sequencer of a busy block: one labelled step of the innermost frame (10_state.md R24; 70_reset_and_hazards.md R252). -/

namespace Sys2Proof.Machine

/-- The step of a busy block whose innermost frame is `f` over the callers `K`. -/
def advance (f : Frame) (K : List Frame) (s : State) : Outcome :=
  match f with
  | .wrreg a v l => stepWrreg a v l K s
  | .rdreg a fill l => stepRdreg a fill l K s
  | .wburst2 a v0 v1 l => stepWburst2 a v0 v1 l K s
  | .setbits a m l => stepSetbits a m l K s
  | .clrbits a m l => stepClrbits a m l K s
  | .reset l => stepReset l K s
  | .anton l => stepAnton l K s
  | .antoff l => stepAntoff l K s
  | .init l => stepInit l K s
  | .reqp m l => stepReqp m l K s
  | .anticoll l => stepAnticoll l K s
  | .drain l => stepDrain l K s
  | .getuid l => stepGetuid l K s

/-- What an idle block does with an instruction is `begin`; a busy block does not look at it
(10_state.md R26; 95_test_vectors.md V65) and takes its own step. -/
def whenIdle (s : State) (begin : State → Outcome) : Outcome :=
  match s.run with
  | .idle => begin s
  | .busy f K => advance f K s

/-- Acceptance by an idle block (10_state.md R27). -/
def beginCommand (op : OpCode) (addr data : Byte) (f : Frame) (s : State) : Outcome :=
  whenIdle s fun s => .next (accept op addr data f s)

/-- Acceptance of a reserved op code by an idle block (60_exceptions.md R215). -/
def beginReserved (op : OpCode) (addr data : Byte) (s : State) : Outcome :=
  whenIdle s fun s => .next (acceptReserved op addr data s)

/-- A frame run on its own by an idle block: the first step of its body (30_encoding.md R92 to R95). -/
def beginFrame (f : Frame) (s : State) : Outcome :=
  whenIdle s fun s => advance f [] s

end Sys2Proof.Machine
end

