-- ==== Sys2Proof/Machine/Access.lean ====
section
/-! DEFINITION. The meanings of WRREG and RDREG (40_register_access.md R123, R124): acceptance, from which the step lists of AccessSteps.lean run. -/

namespace Sys2Proof.Machine

/-- WRREG (R123): `wr(a_lat, d_lat)`, then the response. -/
def execWrreg (addr data : Byte) (s : State) : Outcome :=
  beginCommand 0x1 addr data (.wrreg .latched .latched .s1) s

/-- RDREG (R124): `rd(a_lat)`, then the response with the byte read. -/
def execRdreg (addr data : Byte) (s : State) : Outcome :=
  beginCommand 0x2 addr data (.rdreg .latched .param .s1) s

end Sys2Proof.Machine
end

