-- ==== Sys2Proof/Machine/Bitmask.lean ====
section
/-! DEFINITION. The meanings of SETBITS and CLRBITS (41_bitmask.md R141, R142): acceptance, from which the step lists of BitmaskSteps.lean run. -/

namespace Sys2Proof.Machine

/-- SETBITS (R141): `setb(a_lat, d_lat)`, then the response. -/
def execSetbits (addr data : Byte) (s : State) : Outcome :=
  beginCommand 0x3 addr data (.setbits .latched .latched .s1) s

/-- CLRBITS (R142): `clrb(a_lat, d_lat)`, then the response. -/
def execClrbits (addr data : Byte) (s : State) : Outcome :=
  beginCommand 0x4 addr data (.clrbits .latched .latched .s1) s

end Sys2Proof.Machine
end

