-- ==== Sys2Proof/Machine/CardProtocol.lean ====
section
/-! DEFINITION. The meanings of REQP, ANTICOLL and GETUID (43_card_protocol.md R171, R175, R178): acceptance, from which the step lists of CardSteps.lean run. -/

namespace Sys2Proof.Machine

/-- REQP (R171): `reqp(d_lat)`, then the response. -/
def execReqp (addr data : Byte) (s : State) : Outcome :=
  beginCommand 0x9 addr data (.reqp .latched .s1) s

/-- ANTICOLL (R175). -/
def execAnticoll (addr data : Byte) (s : State) : Outcome :=
  beginCommand 0xA addr data (.anticoll .s1) s

/-- GETUID (R178). -/
def execGetuid (addr data : Byte) (s : State) : Outcome :=
  beginCommand 0xB addr data (.getuid .s1) s

end Sys2Proof.Machine
end

