-- ==== Sys2Proof/Machine/ChipControl.lean ====
section
/-! DEFINITION. The meanings of RESET, ANTON, ANTOFF and INIT (42_chip_control.md R151, R153, R154, R156): acceptance, from which the step lists of ControlSteps.lean run. -/

namespace Sys2Proof.Machine

/-- RESET (R151). -/
def execReset (addr data : Byte) (s : State) : Outcome :=
  beginCommand 0x5 addr data (.reset .s1) s

/-- ANTON (R153). -/
def execAnton (addr data : Byte) (s : State) : Outcome :=
  beginCommand 0x6 addr data (.anton .s1) s

/-- ANTOFF (R154). -/
def execAntoff (addr data : Byte) (s : State) : Outcome :=
  beginCommand 0x7 addr data (.antoff .s1) s

/-- INIT (R156). -/
def execInit (addr data : Byte) (s : State) : Outcome :=
  beginCommand 0x8 addr data (.init .s1) s

end Sys2Proof.Machine
end

