-- ==== Sys2Proof/Machine/Frames.lean ====
section
/-! DEFINITION. The meanings of the three frame kinds: the body that emits the frame, with the frame's own fields as operands (30_encoding.md R92, R93, R94, R105; 40_register_access.md R123, R124, R126). -/

namespace Sys2Proof.Machine

/-- The body that emits `WFRAME a v`, standing at its first step (R92, R123). -/
def wframeBody (a : RegAddr) (v : Byte) : Frame := .wrreg (.ofReg a) (.given v) .s1

/-- The body that emits `RFRAME a f`, standing at its first step (R93, R124). -/
def rframeBody (a : RegAddr) (f : Byte) : Frame := .rdreg (.ofReg a) (.given f) .s1

/-- The body that emits `WBURST2 a v w`, standing at its first step (R94, R126). -/
def wburst2Body (a : RegAddr) (v w : Byte) : Frame := .wburst2 (.ofReg a) (.given v) (.given w) .s1

/-- WFRAME: the bracket is opened; the body's own steps send the two bytes and close it. -/
def execWframe (a : RegAddr) (v : Byte) (s : State) : Outcome := beginFrame (wframeBody a v) s

/-- RFRAME: the bracket is opened; the body's own steps send the two bytes and close it. -/
def execRframe (a : RegAddr) (f : Byte) (s : State) : Outcome := beginFrame (rframeBody a f) s

/-- WBURST2: the bracket is opened; the body's own steps send the three bytes and close it. -/
def execWburst2 (a : RegAddr) (v w : Byte) (s : State) : Outcome := beginFrame (wburst2Body a v w) s

end Sys2Proof.Machine
end

