-- ==== Sys2Proof/Machine/Reserved.lean ====
section
/-! DEFINITION. The meanings of the five reserved op codes: ILLEGAL_OP at acceptance (30_encoding.md R101; 60_exceptions.md R215). -/

namespace Sys2Proof.Machine

/-- Op code 0x0 (R215). -/
def execReserved0 (addr data : Byte) (s : State) : Outcome := beginReserved 0x0 addr data s

/-- Op code 0xC (R215). -/
def execReservedC (addr data : Byte) (s : State) : Outcome := beginReserved 0xC addr data s

/-- Op code 0xD (R215). -/
def execReservedD (addr data : Byte) (s : State) : Outcome := beginReserved 0xD addr data s

/-- Op code 0xE (R215). -/
def execReservedE (addr data : Byte) (s : State) : Outcome := beginReserved 0xE addr data s

/-- Op code 0xF (R215). -/
def execReservedF (addr data : Byte) (s : State) : Outcome := beginReserved 0xF addr data s

end Sys2Proof.Machine
end

