-- ==== Sys2Proof/Machine/Dispatch.lean ====
section
/-! DEFINITION. One arm per instruction: its meaning, called directly. -/

namespace Sys2Proof.Machine

def exec (i : Instr) (s : State) : Host.Outcome State Fault Refusal :=
  match i with
  | .wrreg addr data => Sys2Proof.Machine.execWrreg addr data s
  | .rdreg addr data => Sys2Proof.Machine.execRdreg addr data s
  | .setbits addr data => Sys2Proof.Machine.execSetbits addr data s
  | .clrbits addr data => Sys2Proof.Machine.execClrbits addr data s
  | .reset addr data => Sys2Proof.Machine.execReset addr data s
  | .anton addr data => Sys2Proof.Machine.execAnton addr data s
  | .antoff addr data => Sys2Proof.Machine.execAntoff addr data s
  | .init addr data => Sys2Proof.Machine.execInit addr data s
  | .reqp addr data => Sys2Proof.Machine.execReqp addr data s
  | .anticoll addr data => Sys2Proof.Machine.execAnticoll addr data s
  | .getuid addr data => Sys2Proof.Machine.execGetuid addr data s
  | .reserved0 addr data => Sys2Proof.Machine.execReserved0 addr data s
  | .reservedC addr data => Sys2Proof.Machine.execReservedC addr data s
  | .reservedD addr data => Sys2Proof.Machine.execReservedD addr data s
  | .reservedE addr data => Sys2Proof.Machine.execReservedE addr data s
  | .reservedF addr data => Sys2Proof.Machine.execReservedF addr data s
  | .wframe a v => Sys2Proof.Machine.execWframe a v s
  | .rframe a f => Sys2Proof.Machine.execRframe a f s
  | .wburst2 a v w => Sys2Proof.Machine.execWburst2 a v w s

end Sys2Proof.Machine
end

