-- ==== Sys2Proof/Machine/Fetch.lean ====
section
/-! DEFINITION. What the next step takes from the inputs: the level of the reset input, the command on the port; and how a table word is placed where the next step runs it (10_state.md R26; 70_reset_and_hazards.md R241; 30_encoding.md R105). -/

namespace Sys2Proof.Machine

/-- The level of the reset input at this step, and the state with that level taken. An input list that
has run out is inactive. -/
def takeReset (s : State) : Bool × State :=
  match s.resetIn with
  | [] => (false, s)
  | b :: bs => (b, { s with resetIn := bs })

/-- The command an idle block accepts at this step: the word on the port, decoded, and the state with
the word taken from the host (10_state.md R26). A busy block takes none. -/
def fetch (s : State) : Option (Instr × State) :=
  match s.run, s.cmds with
  | .busy _ _, _ => none
  | .idle, [] => none
  | .idle, w :: ws => some (decodeCommand w, { s with cmds := ws })

/-- The body that emits a frame instruction; none for a host command. -/
def frameBody : Instr → Option Frame
  | .wframe a v => some (wframeBody a v)
  | .rframe a f => some (rframeBody a f)
  | .wburst2 a v w => some (wburst2Body a v w)
  | _ => none

/-- The state in which the next step runs the encoded instruction: a command word stands on the port
of an idle block; a bracket's body stands at its first step over no caller, with chip-select
inactive. The reset input is inactive. Bytes that are no frame of the block change nothing. -/
def place (e : Encoded) (s : State) : State :=
  match e with
  | .command w => { s with run := .idle, cmds := w :: s.cmds, resetIn := [] }
  | .bracket bytes =>
    match decodeBracket bytes with
    | .ok i =>
      match frameBody i with
      | some f => { s with run := .busy f [], cs := .high, resetIn := [] }
      | none => s
    | .error _ => s

/-- A table word placed where the next step runs it. -/
def placeTableWord (s : State) (nbits w : Nat) : State :=
  match tableEncoded nbits w with
  | some e => place e s
  | none => s

end Sys2Proof.Machine
end

