-- ==== Sys2Proof/Machine/Step.lean ====
section
/-! DEFINITION. One step of the block (00_scope.md R6; 10_state.md R24, R26; 70_reset_and_hazards.md R241, R252). -/

namespace Sys2Proof.Machine

/-- A step with the reset input inactive: a busy block takes its one enabled step, an idle block runs
the command on the port, and waits when there is none. -/
def work (s : State) : Host.Outcome State Fault Refusal :=
  match s.run with
  | .busy f K => advance f K s
  | .idle =>
    match fetch s with
    | some (i, s') => exec i s'
    | none => .next s

/-- One step. -/
def step (s : State) : Host.Outcome State Fault Refusal :=
  match takeReset s with
  | (true, s') => .next (hardReset s')
  | (false, s') => work s'

/-- `s` with a table word placed where the next step runs it. -/
def State.withFetchWord (s : State) (nbits w : Nat) : State := placeTableWord s nbits w

end Sys2Proof.Machine
end

