-- ==== Sys2Proof/Machine/View.lean ====
section
/-! DEFINITION. Views of the state that the spec names and nothing stores: MATT's protocol state (10_state.md R25), the total of the delays (70_reset_and_hazards.md R250), the bytes of each bracket (00_scope.md R13). -/

namespace Sys2Proof.Machine

/-- MATT's top-level protocol states (10_state.md R25). -/
inductive ProtocolState where
  | idle
  | presenceDetected
  | noCard
  | uidReady
  | collisionOrTimeout
  deriving DecidableEq, Repr

/-- Whether the ANTICOLL frame among `frames` has found `lvl == 5` (it stands beyond its step S8). -/
def pastLengthTest : List Frame → Bool
  | [] => false
  | .anticoll .s9 :: _ => true
  | .anticoll .s10 :: _ => true
  | .anticoll (.s11 _) :: _ => true
  | _ :: K => pastLengthTest K

/-- The protocol state of a position whose frames are `frames`, outermost frame `f`, when GETUID is the
command in progress; none while another command runs (10_state.md R25). At S2 the flag `presence`
tells the two outcomes of REQP apart; ANTICOLL's failed length test and S4 are one state. -/
def protocolOf (f : Frame) (frames : List Frame) (s : State) : Option ProtocolState :=
  match f with
  | .getuid .s1 => some .idle
  | .getuid .s2 => some (if s.presence then .presenceDetected else .noCard)
  | .getuid .s3 => some (if pastLengthTest frames then .uidReady else .presenceDetected)
  | .getuid (.s4 (.uid _ _)) => some .uidReady
  | .getuid (.s4 .empty) => some .collisionOrTimeout
  | _ => none

/-- The view of 10_state.md R25. -/
def State.protocolState (s : State) : Option ProtocolState :=
  match s.run with
  | .idle => some .idle
  | .busy f K => protocolOf (outermost f K) (f :: K) s

/-- The total of the delay events of a trace, in time units: a lower bound of the time it takes
(60_exceptions.md R226; 70_reset_and_hazards.md R250). -/
def delayTotal : List BusEvent → Nat
  | [] => 0
  | .dly n :: es => n + delayTotal es
  | .csl :: es => delayTotal es
  | .csh :: es => delayTotal es
  | .x _ _ :: es => delayTotal es
  | .rsth :: es => delayTotal es

/-- The bytes transmitted, in order. -/
def transmitted : List BusEvent → List Byte
  | [] => []
  | .x tx _ :: es => tx :: transmitted es
  | .csl :: es => transmitted es
  | .csh :: es => transmitted es
  | .dly _ :: es => transmitted es
  | .rsth :: es => transmitted es

/-- The position stack as 10_state.md R24 writes it, outermost frame first; empty when Idle. -/
def Run.stack : Run → List Frame
  | .idle => []
  | .busy f K => K.reverse ++ [f]

end Sys2Proof.Machine
end

