-- ==== Sys2Proof/Safety.lean ====
section
/-! DEFINITION. The terms the claims use: a block ready for a command, the whole effect of each body and command, legal bus traces, legal positions, legal responses. -/

namespace Sys2Proof.Machine

/-! ## Where a command can start -/

/-- The block is idle with chip-select inactive (10_state.md R26; 40_register_access.md R122 (a)) and
no reset arrives. -/
def State.Ready (s : State) : Prop :=
  s.run = .idle ∧ s.cs = .high ∧ s.resetIn = []

/-- `k` steps, stopping at the first fault or refusal: the host's `Core.run` of this machine
(`run_eq_core` in Laws/Run.lean), with this machine's own types. -/
def runSteps : Nat → State → Outcome
  | 0, s => .next s
  | k + 1, s =>
    match step s with
    | .next t => runSteps k t
    | .fault r => .fault r
    | .refused r => .refused r

/-- `k` steps from `s` answer the next state `t`. -/
def Runs (k : Nat) (s t : State) : Prop := runSteps k s = .next t

/-- The instruction is run to its end: `exec` answers a next state, and the steps that follow, which
are the instruction's own, end in `t`, where the block is Idle again (70_reset_and_hazards.md R251).
No command the host presents next has been taken: each that an idle block takes leaves `cmds`. -/
def Completes (i : Instr) (s t : State) : Prop :=
  ∃ k t0, exec i s = .next t0 ∧ Runs k t0 t ∧ t.run = .idle ∧ t.cmds = s.cmds

/-- What acceptance leaves besides the position (10_state.md R27). -/
def accepted (op : OpCode) (addr data : Byte) (s : State) : State :=
  { s with aLat := addr, dLat := data, history := s.history ++ [.cmd op addr data] }

/-- What the response leaves (10_state.md R30). -/
def answered (r : Response) (s : State) : State :=
  { s with run := .idle, history := s.history ++ [.response r] }

/-- A response with every field but op and status zero (10_state.md R30). -/
def answer (op : OpCode) (st : Status) : Response :=
  ⟨op, st, 0, false, 0, ⟨0, 0, 0, 0, 0⟩, ⟨0, 0, 0, 0, 0, 0, 0, 0, 0, 0⟩⟩

/-- A response with the UID fields of ANTICOLL's result (10_state.md R30; 43_card_protocol.md R176). -/
def answerUid (op : OpCode) (presence : Bool) : AnticollResult → Response
  | .empty => { answer op .malformed with presence := presence }
  | .uid raw str =>
    { answer op .ok with presence := presence, uidLen := 10, uidRaw := raw, uidStr := str }

/-- The status of a REQP that ended with `presence == 0` (60_exceptions.md R213). -/
def absent (timedOut : Bool) (lvl : Byte) : Status :=
  if timedOut = true then .timeout else if lvl = 0 then .noCard else .malformed

/-! ## The whole effect of the bodies

Each function is the effect of a body from its first step to its last on everything but the position:
lines, latches, history, environment. The step lists of Machine/ are the model; these say in one
expression what a list has done when it has ended. -/

namespace Body

/-- CSL with its precondition met. -/
def select (s : State) : State := emit .csl { s with cs := .low, env := s.env.csl }

/-- X with its precondition met. -/
def send (tx : Byte) (s : State) : State :=
  emit (.x tx (s.env.xfer tx).1) { s with env := (s.env.xfer tx).2 }

/-- DLY with its precondition met. -/
def wait (n : Nat) (s : State) : State := emit (.dly n) { s with env := s.env.dly n }

/-- `wr(a, v)` (40_register_access.md R123). -/
def wr (a v : Byte) (s : State) : State :=
  csh (send v (send (wframeByte a.toNat) (select s)))

/-- The lines, history and environment after `rd(a)` with fill byte `f` (40_register_access.md R124). -/
def rd (a f : Byte) (s : State) : State :=
  csh (send f (send (rframeByte a.toNat) (select s)))

/-- The byte `rd(a)` gives: the one received in the second exchange. -/
def rdByte (a f : Byte) (s : State) : Byte :=
  ((send (rframeByte a.toNat) (select s)).env.xfer f).1

/-- `wburst2(a, v0, v1)` (40_register_access.md R126). -/
def wburst2 (a v0 v1 : Byte) (s : State) : State :=
  csh (send v1 (send v0 (send (wframeByte a.toNat) (select s))))

/-- A configured address as a byte. -/
def reg (a : RegAddr) : Byte := a.zeroExtend 8

/-- `wr` and `rd` at a configured address. -/
def wrReg (a : RegAddr) (v : Byte) (s : State) : State := wr (reg a) v s
def rdReg (a : RegAddr) (s : State) : State := rd (reg a) s.cfg.readFill s
def rdRegByte (a : RegAddr) (s : State) : Byte := rdByte (reg a) s.cfg.readFill s

/-- A read into `tmp` (10_state.md R22). -/
def readTmp (a : Byte) (s : State) : State :=
  { rd a s.cfg.readFill s with tmp := rdByte a s.cfg.readFill s }

/-- A read of ComIrqReg into `irq` (10_state.md R22). -/
def readIrq (s : State) : State :=
  { rdReg s.cfg.aComIrq s with irq := rdRegByte s.cfg.aComIrq s }

/-- The delay and the count that follow a failing poll. -/
def countPoll (s : State) : State := { wait 1 s with cnt := s.cnt + 1 }

/-- `setb(a, m)` (41_bitmask.md R141). -/
def setb (a m : Byte) (s : State) : State :=
  wr a ((readTmp a s).tmp ||| m) (readTmp a s)

/-- `clrb(a, m)` (41_bitmask.md R142). -/
def clrb (a m : Byte) (s : State) : State :=
  wr a ((readTmp a s).tmp &&& ~~~m) (readTmp a s)

/-- RESET's poll loop S4 to S9 with `n` polls left: whether bit 4 was read as 0, and the state
(42_chip_control.md R151). -/
def resetPoll : Nat → State → Bool × State
  | 0, s => (false, s)
  | n + 1, s =>
    if (readTmp (reg s.cfg.aCommand) s).tmp &&& 0x10 = 0 then (true, readTmp (reg s.cfg.aCommand) s)
    else resetPoll n (countPoll (readTmp (reg s.cfg.aCommand) s))

/-- RESET S1 to S3 (42_chip_control.md R151). -/
def resetSend (s : State) : State := { wait 50 (wrReg s.cfg.aCommand s.cfg.cmdSoftReset s) with cnt := 0 }

/-- RESET with RESET_POLL_MAX = `n` (42_chip_control.md R151): true when the busy bit was read as 0. -/
def reset (n : Nat) (s : State) : Bool × State := resetPoll n (resetSend s)

/-- ANTON (42_chip_control.md R153). -/
def anton (s : State) : State :=
  let a := reg s.cfg.aTxControl
  if (readTmp a s).tmp &&& 0x03 = 0x03 then readTmp a s else setb a 0x03 (readTmp a s)

/-- ANTOFF (42_chip_control.md R154). -/
def antoff (s : State) : State := clrb (reg s.cfg.aTxControl) 0x03 s

/-- INIT S5 to S9: the five INIT_WRITES in order (42_chip_control.md R156). -/
def initWrites (s : State) : State :=
  let w := s.cfg.initWrites
  wrReg w.w5.addr w.w5.value
    (wrReg w.w4.addr w.w4.value
      (wrReg w.w3.addr w.w3.value
        (wrReg w.w2.addr w.w2.value
          (wrReg w.w1.addr w.w1.value s))))

/-- INIT with RESET_POLL_MAX = `n` (42_chip_control.md R156): false when its RESET was UNRESPONSIVE, and
then S5 to S10 are not run. -/
def init (n : Nat) (s : State) : Bool × State :=
  let s1 := rsth (csh s)
  if (reset n s1).1 then (true, anton (initWrites (reset n s1).2))
  else (false, (reset n s1).2)

/-- The StartSend pulse (43_card_protocol.md R172). -/
def startSend (s : State) : State :=
  let a := reg s.cfg.aBitFraming
  clrb a s.cfg.startSendMask (wait 10 (setb a s.cfg.startSendMask s))

/-- REQP's poll loop S9 to S13 with `n` polls left (43_card_protocol.md R171). -/
def irqPoll : Nat → State → State
  | 0, s => { s with timedOut := true }
  | n + 1, s => if (readIrq s).irq &&& 0x30 ≠ 0 then readIrq s else irqPoll n (countPoll (readIrq s))

/-- REQP S1 to S7 (43_card_protocol.md R171). -/
def reqpSend (m : Byte) (s : State) : State :=
  startSend
    (wrReg s.cfg.aCommand s.cfg.cmdTransceive
      (wrReg s.cfg.aFifoData m
        (setb (reg s.cfg.aFifoLevel) s.cfg.flushMask
          (wrReg s.cfg.aBitFraming s.cfg.bfShort s))))

/-- A read of FIFOLevelReg into `lvl`. -/
def readLevel (s : State) : State :=
  { rdReg s.cfg.aFifoLevel s with lvl := rdRegByte s.cfg.aFifoLevel s }

/-- REQP S1 to S8 (43_card_protocol.md R171). -/
def reqpStart (m : Byte) (s : State) : State := { reqpSend m s with cnt := 0, timedOut := false }

/-- REQP S15: the presence flag from the length byte (43_card_protocol.md R171). -/
def judge (s : State) : State := { s with presence := s.lvl == 2 }

/-- `reqp(m)` (43_card_protocol.md R171). -/
def reqp (m : Byte) (s : State) : State := judge (readLevel (irqPoll 25 (reqpStart m s)))

/-- One read of the drain, into the buffer element `put` writes (44_fifo_drain_parse.md R192). -/
def drainRead (put : Byte → Buf → Buf) (s : State) : State :=
  { rdReg s.cfg.aFifoData s with buf := put (rdRegByte s.cfg.aFifoData s) s.buf }

/-- The drain D1 to D5 (44_fifo_drain_parse.md R192). -/
def drain (s : State) : State :=
  drainRead (fun r b => { b with b4 := r })
    (drainRead (fun r b => { b with b3 := r })
      (drainRead (fun r b => { b with b2 := r })
        (drainRead (fun r b => { b with b1 := r })
          (drainRead (fun r b => { b with b0 := r }) s))))

/-- ANTICOLL S1 to S7 (43_card_protocol.md R175). -/
def anticollSend (s : State) : State :=
  readLevel
    (startSend
      (wrReg s.cfg.aCommand s.cfg.cmdTransceive
        (wburst2 (reg s.cfg.aFifoData) 0x93 0x20
          (setb (reg s.cfg.aFifoLevel) s.cfg.flushMask s))))

/-- `anticoll()` (43_card_protocol.md R175). -/
def anticoll (s : State) : AnticollResult × State :=
  let s1 := anticollSend s
  if s1.lvl = 5 then (.uid (drain s1).buf (formatUid (drain s1).buf), drain s1) else (.empty, s1)

end Body

/-! ## Legal bus traces (30_encoding.md R96, R97; 40_register_access.md R122) -/

/-- What a prefix of a trace leaves open: nothing, or a bracket with the bytes transmitted in it. -/
inductive Bracket where
  | closed
  | opened (bytes : List Byte)
  deriving DecidableEq, Repr

/-- Reading one event: none when no block of this spec emits it there. A CSH with no bracket open is
the one INIT's S2 emits (42_chip_control.md R156). -/
def Bracket.next (b : Bracket) (e : BusEvent) : Option Bracket :=
  match b, e with
  | .closed, .csl => some (.opened [])
  | .closed, .csh => some .closed
  | .closed, .dly _ => some .closed
  | .closed, .rsth => some .closed
  | .closed, .x _ _ => none
  | .opened bs, .x tx _ => some (.opened (bs ++ [tx]))
  | .opened bs, .csh => if (decodeBracket bs).toOption.isSome then some .closed else none
  | .opened _, .csl => none
  | .opened _, .dly _ => none
  | .opened _, .rsth => none

/-- Reading a trace. -/
def Bracket.scan (b : Bracket) : List BusEvent → Option Bracket
  | [] => some b
  | e :: es =>
    match b.next e with
    | some b' => b'.scan es
    | none => none

/-- The bracket the innermost frame has open, with the bytes it has transmitted. -/
def Frame.openBracket (f : Frame) (s : State) : Bracket :=
  match f with
  | .wrreg _ _ .s1 => .closed
  | .wrreg _ _ .s2 => .opened []
  | .wrreg a _ .s3 => .opened [wframeByte (a.addr s).toNat]
  | .wrreg a v .s4 => .opened [wframeByte (a.addr s).toNat, v.data s]
  | .rdreg _ _ .s1 => .closed
  | .rdreg _ _ .s2 => .opened []
  | .rdreg a _ .s3 => .opened [rframeByte (a.addr s).toNat]
  | .rdreg a f (.s4 _) => .opened [rframeByte (a.addr s).toNat, f.byte s]
  | .wburst2 _ _ _ .s1 => .closed
  | .wburst2 _ _ _ .s2 => .opened []
  | .wburst2 a _ _ .s3 => .opened [wframeByte (a.addr s).toNat]
  | .wburst2 a v0 _ .s4 => .opened [wframeByte (a.addr s).toNat, v0.data s]
  | .wburst2 a v0 v1 .s5 => .opened [wframeByte (a.addr s).toNat, v0.data s, v1.data s]
  | _ => .closed

def State.openBracket (s : State) : Bracket :=
  match s.run with
  | .idle => .closed
  | .busy f _ => f.openBracket s

/-- The bus trace is a sequence of legal brackets, delays and line events, and what it leaves open is
the bracket the block stands in. -/
def State.TraceLegal (s : State) : Prop :=
  Bracket.closed.scan s.trace = some s.openBracket

/-! ## Legal positions (10_state.md R24; 43_card_protocol.md R180) -/

/-- The frame with its label at the first step. -/
def Frame.start : Frame → Frame
  | .wrreg a v _ => .wrreg a v .s1
  | .rdreg a f _ => .rdreg a f .s1
  | .wburst2 a v0 v1 _ => .wburst2 a v0 v1 .s1
  | .setbits a m _ => .setbits a m .s1
  | .clrbits a m _ => .clrbits a m .s1
  | .reset _ => .reset .s1
  | .anton _ => .anton .s1
  | .antoff _ => .antoff .s1
  | .init _ => .init .s1
  | .reqp m _ => .reqp m .s1
  | .anticoll _ => .anticoll .s1
  | .drain _ => .drain .d1
  | .getuid _ => .getuid .s1

/-- The body a frame calls at the step it stands at, as its rule says; none at a step that calls
nothing. -/
def callee (c : Frame) (s : State) : Option Frame :=
  match c with
  | .setbits a _ .s1 => some (.rdreg a .param .s1)
  | .setbits a m .s2 => some (.wrreg a (.given (s.tmp ||| m.data s)) .s1)
  | .clrbits a _ .s1 => some (.rdreg a .param .s1)
  | .clrbits a m .s2 => some (.wrreg a (.given (s.tmp &&& ~~~m.data s)) .s1)
  | .reset .s1 => some (callWr s.cfg.aCommand s.cfg.cmdSoftReset)
  | .reset .s4 => some (callRd s.cfg.aCommand)
  | .anton .s1 => some (callRd s.cfg.aTxControl)
  | .anton .s3 => some (callSetb s.cfg.aTxControl 0x03)
  | .antoff .s1 => some (callClrb s.cfg.aTxControl 0x03)
  | .init .s4 => some (.reset .s1)
  | .init .s5 => some (callWr s.cfg.initWrites.w1.addr s.cfg.initWrites.w1.value)
  | .init .s6 => some (callWr s.cfg.initWrites.w2.addr s.cfg.initWrites.w2.value)
  | .init .s7 => some (callWr s.cfg.initWrites.w3.addr s.cfg.initWrites.w3.value)
  | .init .s8 => some (callWr s.cfg.initWrites.w4.addr s.cfg.initWrites.w4.value)
  | .init .s9 => some (callWr s.cfg.initWrites.w5.addr s.cfg.initWrites.w5.value)
  | .init .s10 => some (.anton .s1)
  | .reqp _ .s1 => some (callWr s.cfg.aBitFraming s.cfg.bfShort)
  | .reqp _ .s2 => some (callSetb s.cfg.aFifoLevel s.cfg.flushMask)
  | .reqp m .s3 => some (callWr s.cfg.aFifoData (m.data s))
  | .reqp _ .s4 => some (callWr s.cfg.aCommand s.cfg.cmdTransceive)
  | .reqp _ .s5 => some (callSetb s.cfg.aBitFraming s.cfg.startSendMask)
  | .reqp _ .s7 => some (callClrb s.cfg.aBitFraming s.cfg.startSendMask)
  | .reqp _ .s9 => some (callRd s.cfg.aComIrq)
  | .reqp _ .s14 => some (callRd s.cfg.aFifoLevel)
  | .anticoll .s1 => some (callSetb s.cfg.aFifoLevel s.cfg.flushMask)
  | .anticoll .s2 => some (callWburst2 s.cfg.aFifoData 0x93 0x20)
  | .anticoll .s3 => some (callWr s.cfg.aCommand s.cfg.cmdTransceive)
  | .anticoll .s4 => some (callSetb s.cfg.aBitFraming s.cfg.startSendMask)
  | .anticoll .s6 => some (callClrb s.cfg.aBitFraming s.cfg.startSendMask)
  | .anticoll .s7 => some (callRd s.cfg.aFifoLevel)
  | .anticoll .s9 => some (.drain .d1)
  | .drain _ => some (callRd s.cfg.aFifoData)
  | .getuid .s1 => some (.reqp (.given 0x26) .s1)
  | .getuid .s3 => some (.anticoll .s1)
  | _ => none

/-- Whether a frame may stand outermost: a command's, with the latches as operands, or a frame run on
its own. -/
def Frame.isRoot : Frame → Bool
  | .wrreg .latched .latched _ => true
  | .wrreg (.given _) (.given _) _ => true
  | .rdreg .latched .param _ => true
  | .rdreg (.given _) (.given _) _ => true
  | .wburst2 (.given _) (.given _) (.given _) _ => true
  | .setbits .latched .latched _ => true
  | .clrbits .latched .latched _ => true
  | .reset _ => true
  | .anton _ => true
  | .antoff _ => true
  | .init _ => true
  | .reqp .latched _ => true
  | .anticoll _ => true
  | .getuid _ => true
  | _ => false

/-- Every frame was called by the step the frame below it stands at. -/
def stackLegal (s : State) : Frame → List Frame → Bool
  | f, [] => f.isRoot
  | f, c :: K => (callee c s == some f.start) && stackLegal s c K

/-- The poll counter of a loop is below its bound where the loop goes on, and never above it
(41_bitmask.md R145 (e)). -/
def countLegal (s : State) (f : Frame) : Bool :=
  match f with
  | .reset l =>
    match s.cfg.resetPollMax with
    | none => true
    | some n =>
      match l with
      | .s1 => true
      | .s2 => true
      | .s3 => true
      | .s8 => decide (s.cnt ≤ n)
      | _ => decide (s.cnt < n)
  | .reqp _ l =>
    match l with
    | .s9 => decide (s.cnt < 25)
    | .s10 => decide (s.cnt < 25)
    | .s11 => decide (s.cnt < 25)
    | .s12 => decide (s.cnt < 25)
    | .s13 => decide (s.cnt ≤ 25)
    | .s14 => decide (s.cnt ≤ 25)
    | .s15 => decide (s.cnt ≤ 25)
    | _ => true
  | _ => true

/-- What a label holds is what the step before it made: the characters of the drained bytes. -/
def labelLegal (s : State) (f : Frame) : Bool :=
  match f with
  | .anticoll (.s11 str) => str == formatUid s.buf
  | .getuid (.s4 (.uid raw str)) => raw == s.buf && str == formatUid raw
  | _ => true

/-- The level of chip-select is low exactly inside a bracket (40_register_access.md R122). -/
def csLegal (s : State) : Bool :=
  match s.openBracket with
  | .closed => s.cs == .high
  | .opened _ => s.cs == .low

/-- The invariant of positions: a well-formed configuration, chip-select as the position says, and, in
a busy block, a legal stack of at most four frames (10_state.md R24) with legal counter and labels. -/
def State.PosLegal (s : State) : Prop :=
  s.cfg.wf = true ∧ csLegal s = true ∧
    match s.run with
    | .idle => True
    | .busy f K =>
      stackLegal s f K = true ∧ (f :: K).length ≤ 4 ∧
        (∀ g ∈ f :: K, countLegal s g = true) ∧ labelLegal s f = true

/-! ## Legal responses (10_state.md R30; 60_exceptions.md R211; 44_fifo_drain_parse.md R198) -/

/-- The statuses R211 lets a command produce. -/
def statusAllowed (op : OpCode) (st : Status) : Bool :=
  match st with
  | .ok => decide (op ∈ [0x1, 0x2, 0x3, 0x4, 0x5, 0x6, 0x7, 0x8, 0x9, 0xA, 0xB])
  | .noCard => decide (op ∈ [0x9, 0xB])
  | .timeout => decide (op ∈ [0x9, 0xB])
  | .malformed => decide (op ∈ [0x9, 0xA, 0xB])
  | .unresponsive => decide (op ∈ [0x5, 0x8])
  | .busFault => false
  | .illegalOp => decide (op ∈ [0x0, 0xC, 0xD, 0xE, 0xF])
  | .reserved7 => false

/-- A response record as R30, R211 and R198 allow it. -/
structure Response.Legal (r : Response) : Prop where
  status : statusAllowed r.op r.status = true
  data : r.op ≠ 0x2 → r.data = 0
  presence : r.op ≠ 0x9 → r.op ≠ 0xB → r.presence = false
  uidOps : r.op ≠ 0xA → r.op ≠ 0xB → r.uidLen = 0
  uidEmpty : r.uidLen = 0 → r.uidRaw = Buf.zero ∧ r.uidStr = UidStr.zero
  uidWhole : r.uidLen ≠ 0 → r.uidLen = 10 ∧ r.uidStr = formatUid r.uidRaw
  reqpOk : r.op = 0x9 → (r.status = .ok ↔ r.presence = true)
  uidOk : r.op = 0xA ∨ r.op = 0xB → (r.status = .ok ↔ r.uidLen = 10)

/-- Every response emitted is legal. -/
def State.ResponsesLegal (s : State) : Prop := ∀ r ∈ s.responses, r.Legal

/-- Commands accepted and not yet answered: 1 while a command is in progress, else 0. -/
def State.unanswered (s : State) : Nat :=
  match s.run.commandOp with
  | some _ => 1
  | none => 0

/-- Each accepted command is answered exactly once (10_state.md R30): the acceptances in the history
are as many as its responses and the command in progress. -/
def State.AnswersMatch (s : State) : Prop :=
  s.history.countP Event.isCmd = s.responses.length + s.unanswered

end Sys2Proof.Machine
end

