-- ==== Sys2Proof/Certificates/Slice0/Obligations.lean ====
section
/-! DEFINITION. The statements for the provers, from the rules of the spec. -/

open Sys2Proof Sys2Proof.Machine

/-! ## Encodings -/

/-- Decoding what the encoder writes gives the instruction back, for every instruction and operand. -/
def Obligations.DecodeOfEncodeIsTheInstruction : Prop :=
  ∀ i : Instr, decode (encode i) = .ok i

/-- Bits that decode are the bits the encoder writes: no two encodings of one instruction. -/
def Obligations.EncodeOfDecodeIsTheBits : Prop :=
  ∀ (e : Encoded) (i : Instr), decode e = .ok i → encode i = e

/-- The example words of 30_encoding.md R102, and that an ignored field's value selects the same
command. -/
def Obligations.ExampleCommandWordsDecode : Prop :=
  decodeCommand 0x1095A = .wrreg 0x09 0x5A ∧ decodeCommand 0x20900 = .rdreg 0x09 0x00 ∧
  decodeCommand 0x31403 = .setbits 0x14 0x03 ∧ decodeCommand 0x40D80 = .clrbits 0x0D 0x80 ∧
  decodeCommand 0x50000 = .reset 0 0 ∧ decodeCommand 0x60000 = .anton 0 0 ∧
  decodeCommand 0x70000 = .antoff 0 0 ∧ decodeCommand 0x80000 = .init 0 0 ∧
  decodeCommand 0x90026 = .reqp 0 0x26 ∧ decodeCommand 0xA0000 = .anticoll 0 0 ∧
  decodeCommand 0xB0000 = .getuid 0 0 ∧
  (∀ a d : Byte,
    decodeCommand (commandWord 0x2 a d) = .rdreg a d ∧ decodeCommand (commandWord 0x5 a d) = .reset a d ∧
    decodeCommand (commandWord 0x6 a d) = .anton a d ∧ decodeCommand (commandWord 0x7 a d) = .antoff a d ∧
    decodeCommand (commandWord 0x8 a d) = .init a d ∧ decodeCommand (commandWord 0x9 a d) = .reqp a d ∧
    decodeCommand (commandWord 0xA a d) = .anticoll a d ∧ decodeCommand (commandWord 0xB a d) = .getuid a d)

/-- The frame byte (30_encoding.md R90, R91): bit 7 the direction, bits 6:1 the address's low six bits,
bit 0 zero, and the two formulas, for an address of any width. -/
def Obligations.FrameByteFieldsOfAnyAddress : Prop :=
  ∀ a : Nat,
    (wframeByte a).toNat = (a * 2) &&& 0x7E ∧ (rframeByte a).toNat = ((a * 2) &&& 0x7E) ||| 0x80 ∧
    (wframeByte a).getLsbD 7 = false ∧ (rframeByte a).getLsbD 7 = true ∧
    (wframeByte a).extractLsb' 1 6 = BitVec.ofNat 6 a ∧ (rframeByte a).extractLsb' 1 6 = BitVec.ofNat 6 a ∧
    (wframeByte a).getLsbD 0 = false ∧ (rframeByte a).getLsbD 0 = false

/-- A bracket is a frame of this block exactly when it has the length, direction and zero bit of one of
the three kinds (30_encoding.md R92 to R97). -/
def Obligations.BracketsThatAreFrames : Prop :=
  ∀ bytes : List Byte,
    (decodeBracket bytes).toOption.isSome = true ↔
      ∃ t rest, bytes = t :: rest ∧ t.getLsbD 0 = false ∧
        (rest.length = 1 ∨ (rest.length = 2 ∧ t.getLsbD 7 = false))

/-! ## Reset, the command port, the step -/

/-- The values 10_state.md R50 gives after reset, the empty history, the unconstrained environment, and
that the first thing the block does is wait for a command. R50 leaves the latches open; their values
here (log entry 1) are not stated. -/
def Obligations.ResetValuesOfR50 : Prop :=
  State.reset.cs = .high ∧ State.reset.rst = .high ∧ State.reset.run = .idle ∧
  State.reset.cmdReady = true ∧ State.reset.trace = [] ∧ State.reset.responses = [] ∧
  State.reset.history = [] ∧ (∃ n, State.reset.env = .oracle [] n) ∧ step State.reset = .next State.reset

/-- The invariants below hold after reset. -/
def Obligations.ResetMeetsTheInvariants : Prop :=
  State.reset.PosLegal ∧ State.reset.TraceLegal ∧ State.reset.ResponsesLegal ∧ State.reset.AnswersMatch ∧
  State.reset.env.wf = true

/-- Acceptance (10_state.md R27): an idle block takes the word on the port, latches both operand
fields, records CMD, and stands at the first step of the command's operation; a reserved op code
completes at once with ILLEGAL_OP. Nothing happens on the wires. That a reserved op code latches its
operands and records CMD too is the model's reading of R27's "instead" (log entry 11). -/
def Obligations.IdleBlockAcceptsTheCommand : Prop :=
  ∀ (s : State) (w : CmdWord) (ws : List CmdWord),
    s.run = .idle → s.resetIn = [] → s.cmds = w :: ws →
    (cmdOp w ∉ ([0x0, 0xC, 0xD, 0xE, 0xF] : List OpCode) →
      ∃ f : Frame, f.commandOp = some (cmdOp w) ∧ f.start = f ∧ f.isRoot = true ∧
        step s = .next { s with
          cmds := ws, aLat := cmdAddr w, dLat := cmdData w, run := .busy f [],
          history := s.history ++ [.cmd (cmdOp w) (cmdAddr w) (cmdData w)] }) ∧
    (cmdOp w ∈ ([0x0, 0xC, 0xD, 0xE, 0xF] : List OpCode) → s.cs = .high →
      step s = .next { s with
        cmds := ws, aLat := cmdAddr w, dLat := cmdData w,
        history := s.history ++ [.cmd (cmdOp w) (cmdAddr w) (cmdData w),
          .response (answer (cmdOp w) .illegalOp)] })

/-- The command port (10_state.md R26): `cmd_ready` is 1 exactly when Idle; a command is accepted in a
step in which it is presented and the block ready; the commands presented to a busy block are neither
taken nor looked at, so none aborts it. That the acceptance of a reserved op code is recorded too is the
model's reading of R27 (log entry 11). -/
def Obligations.BusyBlockLooksAtNoCommand : Prop :=
  ∀ (s : State), (s.cmdReady = true ↔ s.run = .idle) ∧
    (s.cmdValid = true → s.cmdReady = true → s.resetIn = [] →
      ∃ t, step s = .next t ∧ t.cmds = s.cmds.tail ∧
        t.history.countP Event.isCmd = s.history.countP Event.isCmd + 1) ∧
    (s.run ≠ .idle → s.resetIn = [] →
      ∀ t, step s = .next t →
        t.cmds = s.cmds ∧ t.history.countP Event.isCmd = s.history.countP Event.isCmd ∧
        ∀ ws, step { s with cmds := ws } = .next { t with cmds := ws })

/-- An idle block with no command presented waits. -/
def Obligations.IdleBlockWithoutCommandWaits : Prop :=
  ∀ s : State, s.run = .idle → s.resetIn = [] → s.cmds = [] → step s = .next s

/-- The step of an idle block with a command on the port is exec of the decoded word, on the state with
the word taken; and a command word placed by `withFetchWord` is the word the next step runs, given in
its 20 bits or in whole bytes. That a 24-bit table word below 2^20 is read as a command word, and not
as a WBURST2 of an address below 8, is the model's choice (log entry 10); that `withFetchWord` stands
for the host that presents the word is log entry 4. -/
def Obligations.StepRunsTheCommandOnThePort : Prop :=
  (∀ (s : State) (w : CmdWord) (ws : List CmdWord),
    s.run = .idle → s.resetIn = [] → s.cmds = w :: ws →
    step s = exec (decodeCommand w) { s with cmds := ws }) ∧
  (∀ (s : State) (nbits w : Nat), nbits = 20 ∨ nbits = 24 → w < 2 ^ 20 →
    decodeTableWord nbits w = some (decodeCommand (BitVec.ofNat 20 w)) ∧
    step (s.withFetchWord nbits w) =
      exec (decodeCommand (BitVec.ofNat 20 w)) { s with run := .idle, resetIn := [] })

/-- A frame word placed by `withFetchWord` is the frame the next step runs: the block stands at the
first step of that frame's body over no caller, the step is what exec of the decoded frame does from the
idle block with chip-select inactive, and it opens the bracket. That a frame is run on its own is the
model's choice (log entry 12). -/
def Obligations.StepRunsThePlacedFrame : Prop :=
  ∀ (s : State) (nbits w : Nat) (i : Instr) (f : Frame),
    decodeTableWord nbits w = some i → frameBody i = some f →
    s.withFetchWord nbits w = { s with run := .busy f [], cs := .high, resetIn := [] } ∧
    step (s.withFetchWord nbits w) = exec i { s with run := .idle, cs := .high, resetIn := [] } ∧
    ∃ t, step (s.withFetchWord nbits w) = .next t ∧
      t.trace = s.trace ++ [.csl] ∧ t.cs = .low

/-- A reserved op code (60_exceptions.md R215): ILLEGAL_OP at once, no bus event, every other response
field zero, Idle. That the operands are latched and CMD recorded is the model's reading of R27 (log
entry 11). -/
def Obligations.ReservedOpCodesAnswerIllegalOp : Prop :=
  ∀ (s : State) (addr data : Byte), s.run = .idle → s.cs = .high →
    (∀ (op : OpCode) (i : Instr),
      (op, i) ∈ ([(0x0, .reserved0 addr data), (0xC, .reservedC addr data), (0xD, .reservedD addr data),
        (0xE, .reservedE addr data), (0xF, .reservedF addr data)] : List (OpCode × Instr)) →
      exec i s = .next { s with
        aLat := addr, dLat := data,
        history := s.history ++ [.cmd op addr data, .response (answer op .illegalOp)] })

/-! ## Frames and the register access layer -/

/-- WFRAME (30_encoding.md R92): one bracket, the frame byte then the value, both received bytes
discarded, nothing else changed. That a ready block runs the frame on its own, with no acceptance and
no response, is the model's choice (log entry 12). -/
def Obligations.WframeIsOneBracketOfTwoExchanges : Prop :=
  ∀ (s : State) (a : RegAddr) (v : Byte), s.Ready →
    ∃ r0 e0 r1 e1, s.env.csl.xfer (0#1 ++ a ++ 0#1 : BitVec 8) = (r0, e0) ∧ e0.xfer v = (r1, e1) ∧
      Completes (.wframe a v) s { s with
        env := e1.csh,
        history := s.history ++ [.bus .csl, .bus (.x (0#1 ++ a ++ 0#1 : BitVec 8) r0), .bus (.x v r1), .bus .csh] }

/-- RFRAME (30_encoding.md R93): one bracket, the frame byte then the fill byte, nothing else changed.
That a ready block runs the frame on its own, with no acceptance and no response and the byte read given
to no caller, is the model's choice (log entry 12). -/
def Obligations.RframeIsOneBracketOfTwoExchanges : Prop :=
  ∀ (s : State) (a : RegAddr) (f : Byte), s.Ready →
    ∃ r0 e0 r1 e1, s.env.csl.xfer (1#1 ++ a ++ 0#1 : BitVec 8) = (r0, e0) ∧ e0.xfer f = (r1, e1) ∧
      Completes (.rframe a f) s { s with
        env := e1.csh,
        history := s.history ++ [.bus .csl, .bus (.x (1#1 ++ a ++ 0#1 : BitVec 8) r0), .bus (.x f r1), .bus .csh] }

/-- WBURST2 (30_encoding.md R94): one bracket, the frame byte then two data bytes, all received bytes
discarded, nothing else changed. R94's burst stands inside ANTICOLL only; that a ready block runs it on
its own with any operands, with no acceptance and no response, is the model's choice (log entry 12). -/
def Obligations.WburstTwoIsOneBracketOfThreeExchanges : Prop :=
  ∀ (s : State) (a : RegAddr) (v w : Byte), s.Ready →
    ∃ r0 e0 r1 e1 r2 e2, s.env.csl.xfer (0#1 ++ a ++ 0#1 : BitVec 8) = (r0, e0) ∧ e0.xfer v = (r1, e1) ∧
      e1.xfer w = (r2, e2) ∧
      Completes (.wburst2 a v w) s { s with
        env := e2.csh,
        history := s.history ++ [.bus .csl, .bus (.x (0#1 ++ a ++ 0#1 : BitVec 8) r0), .bus (.x v r1),
          .bus (.x w r2), .bus .csh] }

/-- WRREG (40_register_access.md R123). -/
def Obligations.WrregWritesInOneBracket : Prop :=
  ∀ (s : State) (addr data : Byte), s.Ready →
    ∃ r0 e0 r1 e1, s.env.csl.xfer (BitVec.ofNat 8 ((addr.toNat * 2) &&& 0x7E)) = (r0, e0) ∧
      e0.xfer data = (r1, e1) ∧
      Completes (.wrreg addr data) s { s with
        aLat := addr, dLat := data, env := e1.csh,
        history := s.history ++ [.cmd 0x1 addr data, .bus .csl,
          .bus (.x (BitVec.ofNat 8 ((addr.toNat * 2) &&& 0x7E)) r0), .bus (.x data r1), .bus .csh,
          .response (answer 0x1 .ok)] }

/-- RDREG (40_register_access.md R124): the byte received in the second exchange is the response's
data. -/
def Obligations.RdregReadsInOneBracket : Prop :=
  ∀ (s : State) (addr data : Byte), s.Ready →
    ∃ r0 e0 r1 e1, s.env.csl.xfer (BitVec.ofNat 8 (((addr.toNat * 2) &&& 0x7E) ||| 0x80)) = (r0, e0) ∧
      e0.xfer s.cfg.readFill = (r1, e1) ∧
      Completes (.rdreg addr data) s { s with
        aLat := addr, dLat := data, env := e1.csh,
        history := s.history ++ [.cmd 0x2 addr data, .bus .csl,
          .bus (.x (BitVec.ofNat 8 (((addr.toNat * 2) &&& 0x7E) ||| 0x80)) r0), .bus (.x s.cfg.readFill r1), .bus .csh,
          .response { answer 0x2 .ok with data := r1 }] }

/-- Two addresses with the same low six bits are one register to every body (20_memory.md R61). -/
def Obligations.AddressesAliasModuloSixtyFour : Prop :=
  ∀ (s : State) (a a' v f : Byte), a &&& 0x3F = a' &&& 0x3F →
    Body.wr a v s = Body.wr a' v s ∧ Body.rd a f s = Body.rd a' f s ∧ Body.rdByte a f s = Body.rdByte a' f s ∧
    Body.setb a v s = Body.setb a' v s ∧ Body.clrb a v s = Body.clrb a' v s

/-- Write then read against ENV_SIMPLE (40_register_access.md R129). -/
def Obligations.WriteThenReadReturnsTheValue : Prop :=
  ∀ (s : State) (regs : Memory) (a a' v d : Byte), s.Ready → regs.wf = true → s.env = Env.simple regs →
    a &&& 0x3F = a' &&& 0x3F →
    ∃ t u, Completes (.wrreg a v) s t ∧ Completes (.rdreg a' d) t u ∧
      u.responses = s.responses ++ [answer 0x1 .ok, { answer 0x2 .ok with data := v }]

/-- The register file of the reference environments under the single-frame instructions: a write stores
its byte at the addressed register and changes no other, the burst leaves its second byte there, a read
changes none, and the queues change only by a read (20_memory.md R72, R73). That a ready block completes
WFRAME, RFRAME and WBURST2 on their own, with any operands, is the model's choice (log entry 12); R94
gives the block no such move. -/
def Obligations.RegisterFileUnderFrames : Prop :=
  ∀ (s : State) (regs : Memory) (queues : Queues) (ph : Phase) (a : RegAddr) (b v w : Byte), s.Ready →
    regs.wf = true → s.env = .script regs queues ph →
    (∃ t regs', Completes (.wframe a v) s t ∧ t.env = .script regs' queues .off ∧
      ∀ x, regs'.read x = if x = a.toNat then v else regs.read x) ∧
    (∃ t regs', Completes (.wrreg b v) s t ∧ t.env = .script regs' queues .off ∧
      ∀ x, regs'.read x = if x = (b &&& 0x3F).toNat then v else regs.read x) ∧
    (∃ t regs', Completes (.wburst2 a v w) s t ∧ t.env = .script regs' queues .off ∧
      ∀ x, regs'.read x = if x = a.toNat then w else regs.read x) ∧
    (∃ t queues', Completes (.rframe a v) s t ∧ t.env = .script regs queues' .off) ∧
    (∃ t queues', Completes (.rdreg b v) s t ∧ t.env = .script regs queues' .off)

/-! ## Bit-mask helpers -/

/-- SETBITS (41_bitmask.md R141). -/
def Obligations.SetbitsReadsThenWritesTheOr : Prop :=
  ∀ (s : State) (addr m : Byte), s.Ready →
    ∃ r0 e0 r e1 r2 e2 r3 e3,
      s.env.csl.xfer (rframeByte addr.toNat) = (r0, e0) ∧ e0.xfer s.cfg.readFill = (r, e1) ∧
      e1.csh.csl.xfer (wframeByte addr.toNat) = (r2, e2) ∧ e2.xfer (r ||| m) = (r3, e3) ∧
      Completes (.setbits addr m) s { s with
        aLat := addr, dLat := m, tmp := r, env := e3.csh,
        history := s.history ++ [.cmd 0x3 addr m,
          .bus .csl, .bus (.x (rframeByte addr.toNat) r0), .bus (.x s.cfg.readFill r), .bus .csh,
          .bus .csl, .bus (.x (wframeByte addr.toNat) r2), .bus (.x (r ||| m) r3), .bus .csh,
          .response (answer 0x3 .ok)] }

/-- CLRBITS (41_bitmask.md R142), the complement taken in 8 bits. -/
def Obligations.ClrbitsReadsThenWritesTheMasked : Prop :=
  ∀ (s : State) (addr m : Byte), s.Ready →
    ∃ r0 e0 r e1 r2 e2 r3 e3,
      s.env.csl.xfer (rframeByte addr.toNat) = (r0, e0) ∧ e0.xfer s.cfg.readFill = (r, e1) ∧
      e1.csh.csl.xfer (wframeByte addr.toNat) = (r2, e2) ∧ e2.xfer (r &&& (0xFF - m)) = (r3, e3) ∧
      Completes (.clrbits addr m) s { s with
        aLat := addr, dLat := m, tmp := r, env := e3.csh,
        history := s.history ++ [.cmd 0x4 addr m,
          .bus .csl, .bus (.x (rframeByte addr.toNat) r0), .bus (.x s.cfg.readFill r), .bus .csh,
          .bus .csl, .bus (.x (wframeByte addr.toNat) r2), .bus (.x (r &&& (0xFF - m)) r3), .bus .csh,
          .response (answer 0x4 .ok)] }

/-- The laws of 41_bitmask.md R143 against ENV_SIMPLE, with every other register unchanged. -/
def Obligations.BitmaskLawsOnTheRegisterFile : Prop :=
  ∀ (s : State) (regs : Memory) (a m : Byte), s.Ready → regs.wf = true → s.env = Env.simple regs →
    let x := (a &&& 0x3F).toNat
    let r := regs.read x
    let others (regs' : Memory) := ∀ y, y ≠ x → regs'.read y = regs.read y
    (∃ t regs1 u regs2, Completes (.setbits a m) s t ∧ t.env = Env.simple regs1 ∧ regs1.read x = r ||| m ∧ others regs1 ∧
      Completes (.setbits a m) t u ∧ u.env = Env.simple regs2 ∧ regs2.read x = r ||| m ∧ others regs2) ∧
    (∃ t regs1 u regs2, Completes (.clrbits a m) s t ∧ t.env = Env.simple regs1 ∧ regs1.read x = r &&& ~~~m ∧ others regs1 ∧
      Completes (.setbits a m) t u ∧ u.env = Env.simple regs2 ∧ regs2.read x = r ||| m ∧ others regs2) ∧
    (∃ t u regs2, Completes (.setbits a m) s t ∧
      Completes (.clrbits a m) t u ∧ u.env = Env.simple regs2 ∧ regs2.read x = r &&& ~~~m ∧ others regs2)

/-! ## Chip control -/

/-- RESET with a numeric bound (42_chip_control.md R151; 60_exceptions.md R214). -/
def Obligations.ResetCommandWithBound : Prop :=
  ∀ (s : State) (addr data : Byte) (n : Nat), s.Ready → s.cfg.resetPollMax = some n → 1 ≤ n →
    Completes (.reset addr data) s
      (answered (answer 0x5 (if (Body.reset n (accepted 0x5 addr data s)).1 then .ok else .unresponsive))
        (Body.reset n (accepted 0x5 addr data s)).2)

/-- RESET and INIT with no bound, against a chip that clears its busy bit within some number of polls
(42_chip_control.md R151, R156). -/
def Obligations.ResetAndInitWithoutBoundWhenTheChipAnswers : Prop :=
  ∀ (s : State) (addr data : Byte) (n : Nat), s.Ready → s.cfg.resetPollMax = none →
    ((Body.reset n (accepted 0x5 addr data s)).1 = true →
      Completes (.reset addr data) s
        (answered (answer 0x5 .ok) (Body.reset n (accepted 0x5 addr data s)).2)) ∧
    ((Body.init n (accepted 0x8 addr data s)).1 = true →
      Completes (.init addr data) s
        (answered (answer 0x8 .ok) (Body.init n (accepted 0x8 addr data s)).2))

/-- RESET and INIT with no bound, against a chip that never clears its busy bit, run for ever
(60_exceptions.md R221): after every number of steps the block is still busy and has answered nothing
new. -/
def Obligations.ResetAndInitWithoutBoundHang : Prop :=
  ∀ (s : State) (addr data : Byte), s.Ready → s.cfg.resetPollMax = none →
    ((∀ n, (Body.reset n (accepted 0x5 addr data s)).1 = false) →
      ∃ t0, exec (.reset addr data) s = .next t0 ∧
        ∀ k, ∃ t, Runs k t0 t ∧ t.cmdReady = false ∧ t.responses = s.responses) ∧
    ((∀ n, (Body.init n (accepted 0x8 addr data s)).1 = false) →
      ∃ t0, exec (.init addr data) s = .next t0 ∧
        ∀ k, ∃ t, Runs k t0 t ∧ t.cmdReady = false ∧ t.responses = s.responses)

/-- UNRESPONSIVE comes after exactly RESET_POLL_MAX reads of CommandReg, each with bit 4 set, each
followed by a delay of one unit (42_chip_control.md R151; 60_exceptions.md R214): the poll loop's bus
events, whatever was received. -/
def Obligations.UnresponsiveAfterExactlyTheBound : Prop :=
  ∀ (s : State) (n : Nat), (Body.reset n s).1 = false →
    (Body.reset n s).2.cnt = n ∧
    ∃ (w0 w1 : Byte) (rx : List (Byte × Byte)), rx.length = n ∧ (∀ p ∈ rx, p.2 &&& 0x10 ≠ 0) ∧
      (Body.reset n s).2.history = s.history ++
        [.bus .csl, .bus (.x (wframeByte s.cfg.aCommand.toNat) w0), .bus (.x s.cfg.cmdSoftReset w1), .bus .csh,
          .bus (.dly 50)] ++
        rx.flatMap fun p =>
          [.bus .csl, .bus (.x (rframeByte s.cfg.aCommand.toNat) p.1), .bus (.x s.cfg.readFill p.2), .bus .csh,
            .bus (.dly 1)]

/-- ANTON (42_chip_control.md R153). -/
def Obligations.AntonSetsTheAntennaBitsWhenNeeded : Prop :=
  ∀ (s : State) (addr data : Byte), s.Ready →
    Completes (.anton addr data) s (answered (answer 0x6 .ok) (Body.anton (accepted 0x6 addr data s)))

/-- ANTOFF (42_chip_control.md R154). -/
def Obligations.AntoffClearsTheAntennaBits : Prop :=
  ∀ (s : State) (addr data : Byte), s.Ready →
    Completes (.antoff addr data) s (answered (answer 0x7 .ok) (Body.antoff (accepted 0x7 addr data s)))

/-- The laws of 42_chip_control.md R155 against ENV_SIMPLE, with every other register unchanged. -/
def Obligations.AntennaLawsOnTheRegisterFile : Prop :=
  ∀ (s : State) (regs : Memory) (addr data : Byte), s.Ready → regs.wf = true → s.env = Env.simple regs →
    let x := s.cfg.aTxControl.toNat
    let others (regs' : Memory) := ∀ y, y ≠ x → regs'.read y = regs.read y
    (∃ t regs1 u, Completes (.anton addr data) s t ∧ t.env = Env.simple regs1 ∧ regs1.read x &&& 0x03 = 0x03 ∧
      regs1.read x &&& 0xFC = regs.read x &&& 0xFC ∧ others regs1 ∧
      Completes (.anton addr data) t u ∧ u.env = Env.simple regs1 ∧
      transmitted u.trace = transmitted t.trace ++ [rframeByte x, s.cfg.readFill]) ∧
    (∃ t regs1, Completes (.antoff addr data) s t ∧ t.env = Env.simple regs1 ∧ regs1.read x &&& 0x03 = 0 ∧
      regs1.read x &&& 0xFC = regs.read x &&& 0xFC ∧ others regs1)

/-- INIT with a numeric bound (42_chip_control.md R156): the two lines high, RESET, and, unless RESET was
UNRESPONSIVE, the five INIT_WRITES and ANTON. -/
def Obligations.InitRunsItsStepsInOrder : Prop :=
  ∀ (s : State) (addr data : Byte) (n : Nat), s.Ready → s.cfg.resetPollMax = some n → 1 ≤ n →
    Completes (.init addr data) s
      (answered (answer 0x8 (if (Body.init n (accepted 0x8 addr data s)).1 then .ok else .unresponsive))
        (Body.init n (accepted 0x8 addr data s)).2)

/-- What INIT leaves on the block's lines (10_state.md R51): both high, whether it succeeds or not. -/
def Obligations.InitLeavesBothLinesHigh : Prop :=
  ∀ (s : State) (n : Nat), (Body.init n s).2.cs = .high ∧ (Body.init n s).2.rst = .high

/-! ## Card protocol -/

/-- REQP (43_card_protocol.md R171; the status of 60_exceptions.md R213). -/
def Obligations.ReqpReportsPresence : Prop :=
  ∀ (s : State) (addr mode : Byte), s.Ready →
    let t := Body.reqp mode (accepted 0x9 addr mode s)
    Completes (.reqp addr mode) s
      (answered { answer 0x9 (if t.presence then .ok else absent t.timedOut t.lvl) with presence := t.presence } t)

/-- The presence signal and the failed-poll flag of REQP (43_card_protocol.md R171, R173, R174): presence
depends on the length byte alone, all eight bits of it; `cnt` counts the failed polls, at most 25, and
`timed_out` says that all 25 failed. -/
def Obligations.ReqpFlagsFollowTheirRules : Prop :=
  ∀ (s : State) (mode : Byte),
    let t := Body.reqp mode s
    (t.presence = true ↔ t.lvl = 2) ∧ t.cnt ≤ 25 ∧ (t.timedOut = true ↔ t.cnt = 25) ∧
    (t.timedOut = false → t.irq &&& 0x30 ≠ 0)

/-- ANTICOLL (43_card_protocol.md R175, R176). -/
def Obligations.AnticollDrainsFiveBytesOrNone : Prop :=
  ∀ (s : State) (addr data : Byte), s.Ready →
    let p := Body.anticoll (accepted 0xA addr data s)
    Completes (.anticoll addr data) s (answered (answerUid 0xA false p.1) p.2)

/-- GETUID (43_card_protocol.md R178): REQP with REQA; ANTICOLL only when a card is present. -/
def Obligations.GetuidRunsReqpThenAnticoll : Prop :=
  ∀ (s : State) (addr data : Byte), s.Ready →
    let t := Body.reqp 0x26 (accepted 0xB addr data s)
    Completes (.getuid addr data) s
      (if t.presence then answered (answerUid 0xB true (Body.anticoll t).1) (Body.anticoll t).2
       else answered (answer 0xB (absent t.timedOut t.lvl)) t)

/-- The selection of the status, in the order of 60_exceptions.md R213, and ANTICOLL's for every length
but 5. -/
def Obligations.AbsentStatusPriority : Prop :=
  (∀ (timedOut : Bool) (lvl : Byte),
    (timedOut = true → absentStatus timedOut lvl = .timeout) ∧
    (timedOut = false → lvl = 0 → absentStatus timedOut lvl = .noCard) ∧
    (timedOut = false → lvl ≠ 0 → absentStatus timedOut lvl = .malformed)) ∧
  (∀ s : State, (Body.anticollSend s).lvl ≠ 5 → (Body.anticoll s).1.status = .malformed)

/-! ## The drain and the format -/

/-- The drain (44_fifo_drain_parse.md R192): five read brackets of FIFODataReg, the bytes stored in the
order received, nothing else of the block changed. -/
def Obligations.DrainReadsFiveBytesInOrder : Prop :=
  ∀ s : State, ∃ (x0 x1 x2 x3 x4 : Byte) (b : Buf) (e : Env),
    let frame (r v : Byte) : List Event :=
      [.bus .csl, .bus (.x (rframeByte s.cfg.aFifoData.toNat) r), .bus (.x s.cfg.readFill v), .bus .csh]
    Body.drain s = { s with
      cs := .high, env := e, buf := b,
      history := s.history ++ frame x0 b.b0 ++ frame x1 b.b1 ++ frame x2 b.b2 ++ frame x3 b.b3 ++ frame x4 b.b4 }

/-- The nibble-to-character function, all sixteen values (44_fifo_drain_parse.md R195). -/
def Obligations.HexcharTable : Prop :=
  ∀ n : BitVec 4,
    hexchar n = (#[0x30, 0x31, 0x32, 0x33, 0x34, 0x35, 0x36, 0x37, 0x38, 0x39, 0x41, 0x42, 0x43, 0x44, 0x45, 0x46] :
      Array Byte)[n.toNat]!

/-- The format (44_fifo_drain_parse.md R196): two characters per byte, high nibble first, bytes in
order. -/
def Obligations.FormatIsTwoDigitsPerByte : Prop :=
  ∀ b : Buf, (formatUid b).toList = b.toList.flatMap fun x =>
    [hexchar (BitVec.ofNat 4 (x.toNat / 16)), hexchar (BitVec.ofNat 4 (x.toNat % 16))]

/-- The properties of the format (44_fifo_drain_parse.md R197): ten characters, each one of the sixteen
of R195, a leading zero for 0x00 to 0x0F, injective, and MATT's example. -/
def Obligations.FormatIsInjectiveAndHexadecimal : Prop :=
  (∀ b : Buf, (formatUid b).toList.length = 10) ∧
  (∀ (b : Buf) (c : Byte), c ∈ (formatUid b).toList →
    (0x30 ≤ c.toNat ∧ c.toNat ≤ 0x39) ∨ (0x41 ≤ c.toNat ∧ c.toNat ≤ 0x46)) ∧
  (∀ (b : Buf) (i : Nat) (x : Byte), b.toList[i]? = some x → x.toNat ≤ 0x0F →
    (formatUid b).toList[2 * i]? = some 0x30 ∧
    (formatUid b).toList[2 * i + 1]? = some (hexchar (BitVec.ofNat 4 x.toNat))) ∧
  (∀ b b' : Buf, formatUid b = formatUid b' → b = b') ∧
  (formatUid ⟨0x04, 0xAA, 0xBB, 0xCC, 0xDD⟩).toList =
    [0x30, 0x34, 0x41, 0x41, 0x42, 0x42, 0x43, 0x43, 0x44, 0x44]

/-! ## Invariants and whole-machine rules -/

/-- A command that completes does so in one state only: where it ends and what it leaves is a function
of the state it starts in. -/
def Obligations.CompletionIsUnique : Prop :=
  ∀ (i : Instr) (s t u : State), s.Ready → Completes i s t → Completes i s u → t = u

/-- The frame of every instruction: what it leaves unchanged in the block. Only the fields named may
differ afterwards: the latches its rule writes (10_state.md R22), the latched operands of a command
(10_state.md R27), INIT's reset line, the history, the environment; chip-select, the inputs, the
configuration and every other latch are as before. That the three frames run on their own is the model's
choice (log entry 12); that a reserved op code latches its operands is its reading of R27's "instead" (log
entry 11). -/
def Obligations.InstructionsChangeOnlyTheirState : Prop :=
  ∀ (s t : State) (a d : Byte) (r : RegAddr) (w : Byte), s.Ready → s.cfg.wf = true →
    (∀ i ∈ [Instr.wframe r d, .rframe r d, .wburst2 r d w], Completes i s t →
      t = { s with env := t.env, history := t.history }) ∧
    (∀ i ∈ [Instr.wrreg a d, .rdreg a d], Completes i s t →
      t = { s with aLat := a, dLat := d, env := t.env, history := t.history }) ∧
    (∀ i ∈ [Instr.reserved0 a d, .reservedC a d, .reservedD a d, .reservedE a d, .reservedF a d],
      Completes i s t → t = { s with aLat := a, dLat := d, history := t.history }) ∧
    (∀ i ∈ [Instr.setbits a d, .clrbits a d, .anton a d, .antoff a d], Completes i s t →
      t = { s with aLat := a, dLat := d, tmp := t.tmp, env := t.env, history := t.history }) ∧
    (Completes (.reset a d) s t →
      t = { s with aLat := a, dLat := d, tmp := t.tmp, cnt := t.cnt, env := t.env, history := t.history }) ∧
    (Completes (.init a d) s t →
      t = { s with rst := .high, aLat := a, dLat := d, tmp := t.tmp, cnt := t.cnt, env := t.env,
                   history := t.history }) ∧
    (Completes (.reqp a d) s t →
      t = { s with aLat := a, dLat := d, tmp := t.tmp, irq := t.irq, lvl := t.lvl, cnt := t.cnt,
                   presence := t.presence, timedOut := t.timedOut, env := t.env, history := t.history }) ∧
    (Completes (.anticoll a d) s t →
      t = { s with aLat := a, dLat := d, tmp := t.tmp, lvl := t.lvl, buf := t.buf, env := t.env,
                   history := t.history }) ∧
    (Completes (.getuid a d) s t →
      t = { s with aLat := a, dLat := d, tmp := t.tmp, irq := t.irq, lvl := t.lvl, cnt := t.cnt, buf := t.buf,
                   presence := t.presence, timedOut := t.timedOut, env := t.env, history := t.history })

/-- The register file of the reference environments under the protocol commands (20_memory.md R72, R73):
every register is unchanged but those the step lists write, and the written ones hold the last byte
written. RESET: CommandReg. INIT: besides, the five registers of INIT_WRITES and TxControlReg. REQP,
ANTICOLL and GETUID: CommandReg, FIFODataReg, FIFOLevelReg, BitFramingReg. -/
def Obligations.RegisterFileUnderProtocolCommands : Prop :=
  ∀ (s t : State) (regs : Memory) (queues : Queues) (ph : Phase) (a d : Byte), s.Ready → s.cfg.wf = true →
    regs.wf = true → s.env = .script regs queues ph →
    let ends (i : Instr) (P : Memory → Prop) : Prop :=
      Completes i s t → ∃ regs' queues', t.env = .script regs' queues' .off ∧ P regs'
    let c := s.cfg
    ends (.reset a d) (fun regs' =>
      ∀ x, regs'.read x = if x = c.aCommand.toNat then c.cmdSoftReset else regs.read x) ∧
    ends (.init a d) (fun regs' =>
      ∀ x, x ∉ [c.aCommand.toNat, c.aTxControl.toNat, c.initWrites.w1.addr.toNat, c.initWrites.w2.addr.toNat,
        c.initWrites.w3.addr.toNat, c.initWrites.w4.addr.toNat, c.initWrites.w5.addr.toNat] →
        regs'.read x = regs.read x) ∧
    (∀ i data, (i, data) ∈ [(Instr.reqp a d, d), (.anticoll a d, 0x20)] →
      ends i (fun regs' =>
        regs'.read c.aCommand.toNat = c.cmdTransceive ∧ regs'.read c.aFifoData.toNat = data ∧
        ∀ x, x ∉ [c.aCommand.toNat, c.aFifoData.toNat, c.aFifoLevel.toNat, c.aBitFraming.toNat] →
          regs'.read x = regs.read x)) ∧
    ends (.getuid a d) (fun regs' =>
      regs'.read c.aCommand.toNat = c.cmdTransceive ∧
      regs'.read c.aFifoData.toNat = (if t.presence then 0x20 else 0x26) ∧
      ∀ x, x ∉ [c.aCommand.toNat, c.aFifoData.toNat, c.aFifoLevel.toNat, c.aBitFraming.toNat] →
        regs'.read x = regs.read x)

/-- Every step from a legal position leads to a legal position: the stack is one of the call tree of
43_card_protocol.md R180, at most four deep (10_state.md R24), chip-select is low exactly inside a
bracket (40_register_access.md R122), the counters keep their bounds (41_bitmask.md R145). -/
def Obligations.StepKeepsPositionsLegal : Prop :=
  ∀ s t : State, s.PosLegal → step s = .next t → t.PosLegal

/-- From a legal position there is always a next state: no step faults and none is refused
(70_reset_and_hazards.md R252). -/
def Obligations.LegalPositionAlwaysSteps : Prop :=
  ∀ s : State, s.PosLegal → ∃ t, step s = .next t

/-- Every step keeps the bus trace a sequence of legal frames, delays and line events
(30_encoding.md R96; 40_register_access.md R122). -/
def Obligations.StepKeepsTheTraceLegal : Prop :=
  ∀ s t : State, s.PosLegal → s.TraceLegal → step s = .next t → t.TraceLegal

/-- Every step keeps the emitted responses legal: no partial UID (44_fifo_drain_parse.md R198), no
status a command does not produce (60_exceptions.md R211), fields zero where 10_state.md R30 says. -/
def Obligations.StepKeepsResponsesLegal : Prop :=
  ∀ s t : State, s.PosLegal → s.ResponsesLegal → step s = .next t → t.ResponsesLegal

/-- Every step keeps acceptances and responses matched: each accepted command is answered exactly once
(10_state.md R30). That a reserved op code records its acceptance is the model's reading (log entry 11). -/
def Obligations.StepKeepsAnswersMatched : Prop :=
  ∀ s t : State, s.AnswersMatch → step s = .next t → t.AnswersMatch

/-- Every step keeps the reference environment's register file and queues in canonical form. -/
def Obligations.StepKeepsTheEnvironmentCanonical : Prop :=
  ∀ s t : State, s.env.wf = true → step s = .next t → t.env.wf = true

/-- The configuration never changes (20_memory.md R77), and the reset line, once high, is never driven
low (10_state.md R21). -/
def Obligations.ConfigurationAndResetLineAreKept : Prop :=
  ∀ s t : State, step s = .next t → t.cfg = s.cfg ∧ (s.rst = .high → t.rst = .high)

/-- Unless the reset input is active, a step only appends to the history, at most one event of it on the
bus and at most one response (00_scope.md R6, R12, R13). -/
def Obligations.HistoryIsOnlyAppended : Prop :=
  ∀ s t : State, s.PosLegal → (takeReset s).1 = false → step s = .next t →
    ∃ es, t.history = s.history ++ es ∧ (es.filterMap Event.bus?).length ≤ 1 ∧
      (es.filterMap Event.response?).length ≤ 1

/-- Whether the block has a step, and where it then stands, never depends on the environment except
through a byte it keeps (20_memory.md R66; 40_register_access.md R121): with another environment the
step is the same but for the environment, the received byte in the history, and, at the receiving step
of a read, the byte kept. -/
def Obligations.EnvironmentOnlySuppliesReceivedBytes : Prop :=
  ∀ (s t : State) (e : Env), step s = .next t →
    ∃ t', step { s with env := e } = .next t' ∧
      transmitted t'.trace = transmitted t.trace ∧ t'.trace.length = t.trace.length ∧
      t'.cs = t.cs ∧ t'.rst = t.rst ∧ t'.aLat = t.aLat ∧ t'.dLat = t.dLat ∧ t'.tmp = t.tmp ∧ t'.irq = t.irq ∧ t'.lvl = t.lvl ∧ t'.cnt = t.cnt ∧
      t'.buf = t.buf ∧ t'.presence = t.presence ∧ t'.timedOut = t.timedOut ∧ t'.responses = t.responses ∧
      ((∀ a f K, s.run ≠ .busy (.rdreg a f .s3) K) → t'.run = t.run)

/-- The reset input at any step (70_reset_and_hazards.md R240, R241): the values of 10_state.md R50, the
command dropped without a response, the history empty, the chip told only that chip-select went high,
the host's commands still presented. The latches at 0 are the model's choice (log entry 1). -/
def Obligations.ResetInputAtAnyStep : Prop :=
  ∀ (s : State) (bs : List Bool), s.resetIn = true :: bs →
    step s = .next { State.reset with
      env := if s.cs = .low then s.env.csh else s.env, cfg := s.cfg, cmds := s.cmds, resetIn := bs }

/-- With a numeric RESET_POLL_MAX every command ends: from any legal busy position the block is Idle
within a bound of steps, whatever the environment answers (60_exceptions.md R221). R221 gives no number:
500 + 10*n counts the model's own labelled steps, silent ones included (log entry 7). -/
def Obligations.EveryCommandEnds : Prop :=
  ∀ (s : State) (n : Nat), s.PosLegal → s.resetIn = [] → s.cfg.resetPollMax = some n → s.run ≠ .idle →
    ∃ k t, k ≤ 500 + 10 * n ∧ Runs k s t ∧ t.run = .idle

/-- The delays each command takes, in time units (70_reset_and_hazards.md R250): `cnt` counts the failing
polls of RESET and of REQP. GETUID, whose state GetuidRunsReqpThenAnticoll gives in these bodies, takes
REQP's delays, and ANTICOLL's besides when a card is present: 10 to 45. -/
def Obligations.DelaysOfEachCommand : Prop :=
  (∀ (s : State) (a v f v0 v1 : Byte),
    delayTotal (Body.wr a v s).trace = delayTotal s.trace ∧ delayTotal (Body.rd a f s).trace = delayTotal s.trace ∧
    delayTotal (Body.wburst2 a v0 v1 s).trace = delayTotal s.trace ∧
    delayTotal (Body.setb a v s).trace = delayTotal s.trace ∧ delayTotal (Body.clrb a v s).trace = delayTotal s.trace ∧
    delayTotal (Body.anton s).trace = delayTotal s.trace ∧ delayTotal (Body.antoff s).trace = delayTotal s.trace) ∧
  (∀ (s : State) (n : Nat),
    delayTotal (Body.reset n s).2.trace = delayTotal s.trace + 50 + (Body.reset n s).2.cnt ∧
    delayTotal (Body.init n s).2.trace = delayTotal s.trace + 50 + (Body.init n s).2.cnt ∧
    (Body.reset n s).2.cnt ≤ n) ∧
  (∀ (s : State) (m : Byte),
    delayTotal (Body.reqp m s).trace = delayTotal s.trace + 10 + (Body.reqp m s).cnt ∧ (Body.reqp m s).cnt ≤ 25) ∧
  (∀ s : State, delayTotal (Body.anticoll s).2.trace = delayTotal s.trace + 10) ∧
  (∀ (s t : State) (addr data : Byte), s.Ready → Completes (.getuid addr data) s t →
    let p := Body.reqp 0x26 (accepted 0xB addr data s)
    delayTotal t.trace = delayTotal s.trace + 10 + p.cnt + (if p.presence then 10 else 0) ∧
    delayTotal s.trace + 10 ≤ delayTotal t.trace ∧ delayTotal t.trace ≤ delayTotal s.trace + 45)

/-- A step with the reset input inactive is the step of a block whose reset input is inactive for ever,
with the level taken from the inputs (70_reset_and_hazards.md R241): the levels still to come have no
effect on it, and a fault stays that fault. -/
def Obligations.InactiveResetInputChangesNothing : Prop :=
  ∀ (s : State) (bs : List Bool), s.resetIn = false :: bs →
    step s = match step { s with resetIn := [] } with
      | .next t => .next { t with resetIn := bs }
      | .fault r => .fault r
      | .refused r => .refused r
end

