-- ==== Sys2Proof/Laws/Memory.lean ====
section
/-! SUPPORT. The register file and the queues: read after write, and every operation keeps the canonical form. -/

namespace Sys2Proof.Machine

namespace Memory

theorem wfAbove_mono {lo lo' : Nat} (h : lo' ≤ lo) : ∀ {m : Memory}, wfAbove lo m = true → wfAbove lo' m = true
  | [], _ => rfl
  | (b, v) :: m, hm => by
    simp only [wfAbove, Bool.and_eq_true, decide_eq_true_eq] at hm ⊢
    exact ⟨⟨⟨by omega, hm.1.1.2⟩, hm.1.2⟩, hm.2⟩

theorem read_of_lt {lo a : Nat} (h : a < lo) : ∀ {m : Memory}, wfAbove lo m = true → read m a = unlisted
  | [], _ => rfl
  | (b, v) :: m, hm => by
    simp only [wfAbove, Bool.and_eq_true, decide_eq_true_eq] at hm
    have hne : a ≠ b := by omega
    simp only [read, hne, if_false]
    exact read_of_lt (by omega) hm.2

theorem read_insert (m : Memory) (a b : Nat) (v : Byte) :
    read (insert m a v) b = if b = a then v else read m b := by
  induction m with
  | nil => simp [insert, read]
  | cons c m ih =>
    obtain ⟨x, w⟩ := c
    simp only [insert]
    split
    · simp [read]
    · split
      · subst_vars; simp only [read]; split <;> rfl
      · simp only [read, ih]
        by_cases h1 : b = x <;> by_cases h2 : b = a <;> simp [h1, h2] <;> omega

theorem read_erase {lo : Nat} (a b : Nat) :
    ∀ {m : Memory}, wfAbove lo m = true → read (erase m a) b = if b = a then unlisted else read m b
  | [], _ => by simp [erase, read]
  | (x, w) :: m, hm => by
    have hm' := hm
    simp only [wfAbove, Bool.and_eq_true, decide_eq_true_eq] at hm
    simp only [erase]
    split
    · subst_vars
      by_cases h : b = x
      · subst h; simp [read_of_lt (Nat.lt_succ_self b) hm.2]
      · simp [read, h]
    · simp only [read, read_erase a b hm.2]
      by_cases h1 : b = x <;> by_cases h2 : b = a <;> simp [h1, h2] <;> omega

/-- Reading after writing: the byte written at its address, every other address as before. -/
theorem read_write {m : Memory} (hm : m.wf = true) (a b : Nat) (v : Byte) :
    (m.write a v).read b = if b = a then v else m.read b := by
  unfold write
  split
  · next h => rw [read_erase (lo := 0) a b hm]; simp [h]
  · exact read_insert m a b v

theorem wfAbove_insert {lo a : Nat} {v : Byte} (ha : lo ≤ a) (h64 : a < 64) (hv : v ≠ unlisted) :
    ∀ {m : Memory}, wfAbove lo m = true → wfAbove lo (insert m a v) = true
  | [], _ => by simp [insert, wfAbove, ha, h64, hv]
  | (b, w) :: m, hm => by
    simp only [wfAbove, Bool.and_eq_true, decide_eq_true_eq, bne_iff_ne] at hm
    simp only [insert]
    split
    · simp only [wfAbove, Bool.and_eq_true, decide_eq_true_eq, bne_iff_ne]
      exact ⟨⟨⟨ha, h64⟩, hv⟩, ⟨⟨by omega, hm.1.1.2⟩, hm.1.2⟩, hm.2⟩
    · split
      · subst_vars
        simp only [wfAbove, Bool.and_eq_true, decide_eq_true_eq, bne_iff_ne]
        exact ⟨⟨⟨ha, h64⟩, hv⟩, hm.2⟩
      · simp only [wfAbove, Bool.and_eq_true, decide_eq_true_eq, bne_iff_ne]
        exact ⟨⟨⟨hm.1.1.1, hm.1.1.2⟩, hm.1.2⟩, wfAbove_insert (by omega) h64 hv hm.2⟩

theorem wfAbove_erase {lo a : Nat} :
    ∀ {m : Memory}, wfAbove lo m = true → wfAbove lo (erase m a) = true
  | [], _ => rfl
  | (b, w) :: m, hm => by
    have hm' := hm
    simp only [wfAbove, Bool.and_eq_true, decide_eq_true_eq] at hm
    simp only [erase]
    split
    · exact wfAbove_mono (by omega) hm.2
    · simp only [wfAbove, Bool.and_eq_true, decide_eq_true_eq]
      exact ⟨⟨⟨hm.1.1.1, hm.1.1.2⟩, hm.1.2⟩, wfAbove_erase hm.2⟩

/-- Writing a register keeps the canonical form. -/
theorem wf_write {m : Memory} (hm : m.wf = true) {a : Nat} (ha : a < 64) (v : Byte) :
    (m.write a v).wf = true := by
  unfold write wf at *
  split
  · exact wfAbove_erase hm
  · next h => exact wfAbove_insert (Nat.zero_le _) ha h hm

theorem wf_nil : wf [] = true := rfl

end Memory

namespace Queue

/-- Removing the head of a canonical queue leaves a canonical queue or the empty one. -/
theorem wf_pop {q r : Queue} {b : Byte} (hq : q.wf = true) (h : q.pop = some (b, r)) :
    r.wf = true ∨ r = empty := by
  obtain ⟨items, forever⟩ := q
  match items, forever, h with
  | b :: c :: bs, f, h => cases h; exact .inl (by simpa [wf, List.getLast?_cons_cons] using hq)
  | [b], some f, h => cases h; exact .inl rfl
  | [b], none, h => cases h; exact .inr rfl
  | [], some f, h => cases h; exact .inl hq

end Queue

namespace Queues

theorem wfAbove_mono {lo lo' : Nat} (h : lo' ≤ lo) : ∀ {q : Queues}, wfAbove lo q = true → wfAbove lo' q = true
  | [], _ => rfl
  | (b, l) :: q, hq => by
    simp only [wfAbove, Bool.and_eq_true, decide_eq_true_eq] at hq ⊢
    exact ⟨⟨⟨by omega, hq.1.1.2⟩, hq.1.2⟩, hq.2⟩

theorem wfAbove_put {lo a : Nat} {l : Queue} (hl : l.wf = true ∨ l = Queue.empty) :
    ∀ {q : Queues}, wfAbove lo q = true → wfAbove lo (put q a l) = true
  | [], _ => rfl
  | (b, k) :: q, hq => by
    simp only [wfAbove, Bool.and_eq_true, decide_eq_true_eq] at hq
    simp only [put]
    split
    · split
      · exact wfAbove_mono (by omega) hq.2
      · next he =>
        simp only [wfAbove, Bool.and_eq_true, decide_eq_true_eq]
        exact ⟨⟨hq.1.1, hl.resolve_right he⟩, hq.2⟩
    · simp only [wfAbove, Bool.and_eq_true, decide_eq_true_eq]
      exact ⟨hq.1, wfAbove_put hl hq.2⟩

/-- Replacing a queue keeps the canonical form. -/
theorem wf_put {q : Queues} (hq : q.wf = true) (a : Nat) {l : Queue} (hl : l.wf = true ∨ l = Queue.empty) :
    (q.put a l).wf = true :=
  wfAbove_put hl hq

/-- Every queue of canonical queues is canonical or empty. -/
theorem wf_get {lo : Nat} (a : Nat) :
    ∀ {q : Queues}, wfAbove lo q = true → (get q a).wf = true ∨ get q a = Queue.empty
  | [], _ => .inr rfl
  | (b, k) :: q, hq => by
    simp only [wfAbove, Bool.and_eq_true, decide_eq_true_eq] at hq
    simp only [get]
    split
    · exact .inl hq.1.2
    · exact wf_get a hq.2

/-- Canonical queues stay so when the head of one is removed. -/
theorem wf_put_pop {q : Queues} (hq : q.wf = true) (a : Nat) {b : Byte} {r : Queue}
    (h : (q.get a).pop = some (b, r)) : (q.put a r).wf = true := by
  refine wf_put hq a ?_
  rcases wf_get a hq with hg | hg
  · exact Queue.wf_pop hg h
  · rw [hg] at h; cases h

/-- Putting a queue at one address leaves the queue of every other address. -/
theorem get_put_ne {a c : Nat} (l : Queue) (h : c ≠ a) : ∀ q : Queues, get (put q a l) c = get q c
  | [] => rfl
  | (b, k) :: q => by
    simp only [put]
    split
    · subst_vars
      split <;> simp [get, h]
    · simp only [get, get_put_ne l h q]

end Queues

namespace Env

@[simp] theorem wf_csl (e : Env) : e.csl.wf = e.wf := by cases e <;> rfl
@[simp] theorem wf_csh (e : Env) : e.csh.wf = e.wf := by cases e <;> rfl
@[simp] theorem wf_dly (n : Nat) (e : Env) : (e.dly n).wf = e.wf := by cases e <;> rfl
@[simp] theorem wf_rsth (e : Env) : e.rsth.wf = e.wf := by cases e <;> rfl

/-- An exchange keeps the environment's canonical form. -/
theorem wf_xfer {e : Env} (h : e.wf = true) (tx : Byte) : (e.xfer tx).2.wf = true := by
  cases e with
  | oracle bs n => cases bs <;> rfl
  | script regs queues phase =>
    simp only [wf, Bool.and_eq_true] at h
    cases phase with
    | off => simp [xfer, wf, h]
    | addr => simp [xfer, wf, h]
    | data rw a =>
      cases rw with
      | false =>
        simp only [xfer, wf, Bool.and_eq_true]
        exact ⟨Memory.wf_write h.1 a.isLt tx, h.2⟩
      | true =>
        simp only [xfer]
        split
        · next hp =>
          simp only [wf, Bool.and_eq_true]
          exact ⟨h.1, Queues.wf_put_pop h.2 _ hp⟩
        · simp [wf, h]

end Env

end Sys2Proof.Machine
end

