-- ==== Sys2Proof/Laws/State.lean ====
section
/-! SUPPORT. One lemma per field per update of State, so that no proof unfolds a record update. -/

namespace Sys2Proof.Machine

/-! ### emit -/

@[simp] theorem emit_cs (e : BusEvent) (s : State) : (emit e s).cs = s.cs := rfl
@[simp] theorem emit_rst (e : BusEvent) (s : State) : (emit e s).rst = s.rst := rfl
@[simp] theorem emit_run (e : BusEvent) (s : State) : (emit e s).run = s.run := rfl
@[simp] theorem emit_aLat (e : BusEvent) (s : State) : (emit e s).aLat = s.aLat := rfl
@[simp] theorem emit_dLat (e : BusEvent) (s : State) : (emit e s).dLat = s.dLat := rfl
@[simp] theorem emit_tmp (e : BusEvent) (s : State) : (emit e s).tmp = s.tmp := rfl
@[simp] theorem emit_irq (e : BusEvent) (s : State) : (emit e s).irq = s.irq := rfl
@[simp] theorem emit_lvl (e : BusEvent) (s : State) : (emit e s).lvl = s.lvl := rfl
@[simp] theorem emit_cnt (e : BusEvent) (s : State) : (emit e s).cnt = s.cnt := rfl
@[simp] theorem emit_buf (e : BusEvent) (s : State) : (emit e s).buf = s.buf := rfl
@[simp] theorem emit_presence (e : BusEvent) (s : State) : (emit e s).presence = s.presence := rfl
@[simp] theorem emit_timedOut (e : BusEvent) (s : State) : (emit e s).timedOut = s.timedOut := rfl
@[simp] theorem emit_history (e : BusEvent) (s : State) : (emit e s).history = s.history ++ [.bus e] := rfl
@[simp] theorem emit_env (e : BusEvent) (s : State) : (emit e s).env = s.env := rfl
@[simp] theorem emit_cfg (e : BusEvent) (s : State) : (emit e s).cfg = s.cfg := rfl
@[simp] theorem emit_cmds (e : BusEvent) (s : State) : (emit e s).cmds = s.cmds := rfl
@[simp] theorem emit_resetIn (e : BusEvent) (s : State) : (emit e s).resetIn = s.resetIn := rfl

/-! ### csh -/

@[simp] theorem csh_cs (s : State) : (csh s).cs = .high := rfl
@[simp] theorem csh_rst (s : State) : (csh s).rst = s.rst := rfl
@[simp] theorem csh_run (s : State) : (csh s).run = s.run := rfl
@[simp] theorem csh_aLat (s : State) : (csh s).aLat = s.aLat := rfl
@[simp] theorem csh_dLat (s : State) : (csh s).dLat = s.dLat := rfl
@[simp] theorem csh_tmp (s : State) : (csh s).tmp = s.tmp := rfl
@[simp] theorem csh_irq (s : State) : (csh s).irq = s.irq := rfl
@[simp] theorem csh_lvl (s : State) : (csh s).lvl = s.lvl := rfl
@[simp] theorem csh_cnt (s : State) : (csh s).cnt = s.cnt := rfl
@[simp] theorem csh_buf (s : State) : (csh s).buf = s.buf := rfl
@[simp] theorem csh_presence (s : State) : (csh s).presence = s.presence := rfl
@[simp] theorem csh_timedOut (s : State) : (csh s).timedOut = s.timedOut := rfl
@[simp] theorem csh_history (s : State) : (csh s).history = s.history ++ [.bus .csh] := rfl
@[simp] theorem csh_env (s : State) : (csh s).env = s.env.csh := rfl
@[simp] theorem csh_cfg (s : State) : (csh s).cfg = s.cfg := rfl
@[simp] theorem csh_cmds (s : State) : (csh s).cmds = s.cmds := rfl
@[simp] theorem csh_resetIn (s : State) : (csh s).resetIn = s.resetIn := rfl

/-! ### rsth -/

@[simp] theorem rsth_cs (s : State) : (rsth s).cs = s.cs := rfl
@[simp] theorem rsth_rst (s : State) : (rsth s).rst = .high := rfl
@[simp] theorem rsth_run (s : State) : (rsth s).run = s.run := rfl
@[simp] theorem rsth_aLat (s : State) : (rsth s).aLat = s.aLat := rfl
@[simp] theorem rsth_dLat (s : State) : (rsth s).dLat = s.dLat := rfl
@[simp] theorem rsth_tmp (s : State) : (rsth s).tmp = s.tmp := rfl
@[simp] theorem rsth_irq (s : State) : (rsth s).irq = s.irq := rfl
@[simp] theorem rsth_lvl (s : State) : (rsth s).lvl = s.lvl := rfl
@[simp] theorem rsth_cnt (s : State) : (rsth s).cnt = s.cnt := rfl
@[simp] theorem rsth_buf (s : State) : (rsth s).buf = s.buf := rfl
@[simp] theorem rsth_presence (s : State) : (rsth s).presence = s.presence := rfl
@[simp] theorem rsth_timedOut (s : State) : (rsth s).timedOut = s.timedOut := rfl
@[simp] theorem rsth_history (s : State) : (rsth s).history = s.history ++ [.bus .rsth] := rfl
@[simp] theorem rsth_env (s : State) : (rsth s).env = s.env.rsth := rfl
@[simp] theorem rsth_cfg (s : State) : (rsth s).cfg = s.cfg := rfl
@[simp] theorem rsth_cmds (s : State) : (rsth s).cmds = s.cmds := rfl
@[simp] theorem rsth_resetIn (s : State) : (rsth s).resetIn = s.resetIn := rfl

/-! ### goto -/

@[simp] theorem goto_cs (f : Frame) (K : List Frame) (s : State) : (goto f K s).cs = s.cs := rfl
@[simp] theorem goto_rst (f : Frame) (K : List Frame) (s : State) : (goto f K s).rst = s.rst := rfl
@[simp] theorem goto_run (f : Frame) (K : List Frame) (s : State) : (goto f K s).run = .busy f K := rfl
@[simp] theorem goto_aLat (f : Frame) (K : List Frame) (s : State) : (goto f K s).aLat = s.aLat := rfl
@[simp] theorem goto_dLat (f : Frame) (K : List Frame) (s : State) : (goto f K s).dLat = s.dLat := rfl
@[simp] theorem goto_tmp (f : Frame) (K : List Frame) (s : State) : (goto f K s).tmp = s.tmp := rfl
@[simp] theorem goto_irq (f : Frame) (K : List Frame) (s : State) : (goto f K s).irq = s.irq := rfl
@[simp] theorem goto_lvl (f : Frame) (K : List Frame) (s : State) : (goto f K s).lvl = s.lvl := rfl
@[simp] theorem goto_cnt (f : Frame) (K : List Frame) (s : State) : (goto f K s).cnt = s.cnt := rfl
@[simp] theorem goto_buf (f : Frame) (K : List Frame) (s : State) : (goto f K s).buf = s.buf := rfl
@[simp] theorem goto_presence (f : Frame) (K : List Frame) (s : State) : (goto f K s).presence = s.presence := rfl
@[simp] theorem goto_timedOut (f : Frame) (K : List Frame) (s : State) : (goto f K s).timedOut = s.timedOut := rfl
@[simp] theorem goto_history (f : Frame) (K : List Frame) (s : State) : (goto f K s).history = s.history := rfl
@[simp] theorem goto_env (f : Frame) (K : List Frame) (s : State) : (goto f K s).env = s.env := rfl
@[simp] theorem goto_cfg (f : Frame) (K : List Frame) (s : State) : (goto f K s).cfg = s.cfg := rfl
@[simp] theorem goto_cmds (f : Frame) (K : List Frame) (s : State) : (goto f K s).cmds = s.cmds := rfl
@[simp] theorem goto_resetIn (f : Frame) (K : List Frame) (s : State) : (goto f K s).resetIn = s.resetIn := rfl

/-! ### call -/

@[simp] theorem call_cs (g f : Frame) (K : List Frame) (s : State) : (call g f K s).cs = s.cs := rfl
@[simp] theorem call_rst (g f : Frame) (K : List Frame) (s : State) : (call g f K s).rst = s.rst := rfl
@[simp] theorem call_run (g f : Frame) (K : List Frame) (s : State) : (call g f K s).run = .busy g (f :: K) := rfl
@[simp] theorem call_aLat (g f : Frame) (K : List Frame) (s : State) : (call g f K s).aLat = s.aLat := rfl
@[simp] theorem call_dLat (g f : Frame) (K : List Frame) (s : State) : (call g f K s).dLat = s.dLat := rfl
@[simp] theorem call_tmp (g f : Frame) (K : List Frame) (s : State) : (call g f K s).tmp = s.tmp := rfl
@[simp] theorem call_irq (g f : Frame) (K : List Frame) (s : State) : (call g f K s).irq = s.irq := rfl
@[simp] theorem call_lvl (g f : Frame) (K : List Frame) (s : State) : (call g f K s).lvl = s.lvl := rfl
@[simp] theorem call_cnt (g f : Frame) (K : List Frame) (s : State) : (call g f K s).cnt = s.cnt := rfl
@[simp] theorem call_buf (g f : Frame) (K : List Frame) (s : State) : (call g f K s).buf = s.buf := rfl
@[simp] theorem call_presence (g f : Frame) (K : List Frame) (s : State) : (call g f K s).presence = s.presence := rfl
@[simp] theorem call_timedOut (g f : Frame) (K : List Frame) (s : State) : (call g f K s).timedOut = s.timedOut := rfl
@[simp] theorem call_history (g f : Frame) (K : List Frame) (s : State) : (call g f K s).history = s.history := rfl
@[simp] theorem call_env (g f : Frame) (K : List Frame) (s : State) : (call g f K s).env = s.env := rfl
@[simp] theorem call_cfg (g f : Frame) (K : List Frame) (s : State) : (call g f K s).cfg = s.cfg := rfl
@[simp] theorem call_cmds (g f : Frame) (K : List Frame) (s : State) : (call g f K s).cmds = s.cmds := rfl
@[simp] theorem call_resetIn (g f : Frame) (K : List Frame) (s : State) : (call g f K s).resetIn = s.resetIn := rfl

/-! ### respond -/

@[simp] theorem respond_cs (r : Response) (s : State) : (respond r s).cs = s.cs := rfl
@[simp] theorem respond_rst (r : Response) (s : State) : (respond r s).rst = s.rst := rfl
@[simp] theorem respond_run (r : Response) (s : State) : (respond r s).run = .idle := rfl
@[simp] theorem respond_aLat (r : Response) (s : State) : (respond r s).aLat = s.aLat := rfl
@[simp] theorem respond_dLat (r : Response) (s : State) : (respond r s).dLat = s.dLat := rfl
@[simp] theorem respond_tmp (r : Response) (s : State) : (respond r s).tmp = s.tmp := rfl
@[simp] theorem respond_irq (r : Response) (s : State) : (respond r s).irq = s.irq := rfl
@[simp] theorem respond_lvl (r : Response) (s : State) : (respond r s).lvl = s.lvl := rfl
@[simp] theorem respond_cnt (r : Response) (s : State) : (respond r s).cnt = s.cnt := rfl
@[simp] theorem respond_buf (r : Response) (s : State) : (respond r s).buf = s.buf := rfl
@[simp] theorem respond_presence (r : Response) (s : State) : (respond r s).presence = s.presence := rfl
@[simp] theorem respond_timedOut (r : Response) (s : State) : (respond r s).timedOut = s.timedOut := rfl
@[simp] theorem respond_history (r : Response) (s : State) : (respond r s).history = s.history ++ [.response r] := rfl
@[simp] theorem respond_env (r : Response) (s : State) : (respond r s).env = s.env := rfl
@[simp] theorem respond_cfg (r : Response) (s : State) : (respond r s).cfg = s.cfg := rfl
@[simp] theorem respond_cmds (r : Response) (s : State) : (respond r s).cmds = s.cmds := rfl
@[simp] theorem respond_resetIn (r : Response) (s : State) : (respond r s).resetIn = s.resetIn := rfl

/-! ### latchCommand -/

@[simp] theorem latchCommand_cs (op : OpCode) (a d : Byte) (s : State) : (latchCommand op a d s).cs = s.cs := rfl
@[simp] theorem latchCommand_rst (op : OpCode) (a d : Byte) (s : State) : (latchCommand op a d s).rst = s.rst := rfl
@[simp] theorem latchCommand_run (op : OpCode) (a d : Byte) (s : State) : (latchCommand op a d s).run = s.run := rfl
@[simp] theorem latchCommand_aLat (op : OpCode) (a d : Byte) (s : State) : (latchCommand op a d s).aLat = a := rfl
@[simp] theorem latchCommand_dLat (op : OpCode) (a d : Byte) (s : State) : (latchCommand op a d s).dLat = d := rfl
@[simp] theorem latchCommand_tmp (op : OpCode) (a d : Byte) (s : State) : (latchCommand op a d s).tmp = s.tmp := rfl
@[simp] theorem latchCommand_irq (op : OpCode) (a d : Byte) (s : State) : (latchCommand op a d s).irq = s.irq := rfl
@[simp] theorem latchCommand_lvl (op : OpCode) (a d : Byte) (s : State) : (latchCommand op a d s).lvl = s.lvl := rfl
@[simp] theorem latchCommand_cnt (op : OpCode) (a d : Byte) (s : State) : (latchCommand op a d s).cnt = s.cnt := rfl
@[simp] theorem latchCommand_buf (op : OpCode) (a d : Byte) (s : State) : (latchCommand op a d s).buf = s.buf := rfl
@[simp] theorem latchCommand_presence (op : OpCode) (a d : Byte) (s : State) : (latchCommand op a d s).presence = s.presence := rfl
@[simp] theorem latchCommand_timedOut (op : OpCode) (a d : Byte) (s : State) : (latchCommand op a d s).timedOut = s.timedOut := rfl
@[simp] theorem latchCommand_history (op : OpCode) (a d : Byte) (s : State) : (latchCommand op a d s).history = s.history ++ [.cmd op a d] := rfl
@[simp] theorem latchCommand_env (op : OpCode) (a d : Byte) (s : State) : (latchCommand op a d s).env = s.env := rfl
@[simp] theorem latchCommand_cfg (op : OpCode) (a d : Byte) (s : State) : (latchCommand op a d s).cfg = s.cfg := rfl
@[simp] theorem latchCommand_cmds (op : OpCode) (a d : Byte) (s : State) : (latchCommand op a d s).cmds = s.cmds := rfl
@[simp] theorem latchCommand_resetIn (op : OpCode) (a d : Byte) (s : State) : (latchCommand op a d s).resetIn = s.resetIn := rfl

/-! ### hardReset -/

@[simp] theorem hardReset_cs (s : State) : (hardReset s).cs = .high := rfl
@[simp] theorem hardReset_rst (s : State) : (hardReset s).rst = .high := rfl
@[simp] theorem hardReset_run (s : State) : (hardReset s).run = .idle := rfl
@[simp] theorem hardReset_aLat (s : State) : (hardReset s).aLat = 0 := rfl
@[simp] theorem hardReset_dLat (s : State) : (hardReset s).dLat = 0 := rfl
@[simp] theorem hardReset_tmp (s : State) : (hardReset s).tmp = 0 := rfl
@[simp] theorem hardReset_irq (s : State) : (hardReset s).irq = 0 := rfl
@[simp] theorem hardReset_lvl (s : State) : (hardReset s).lvl = 0 := rfl
@[simp] theorem hardReset_cnt (s : State) : (hardReset s).cnt = 0 := rfl
@[simp] theorem hardReset_buf (s : State) : (hardReset s).buf = Buf.zero := rfl
@[simp] theorem hardReset_presence (s : State) : (hardReset s).presence = false := rfl
@[simp] theorem hardReset_timedOut (s : State) : (hardReset s).timedOut = false := rfl
@[simp] theorem hardReset_history (s : State) : (hardReset s).history = [] := rfl
@[simp] theorem hardReset_cfg (s : State) : (hardReset s).cfg = s.cfg := rfl
@[simp] theorem hardReset_cmds (s : State) : (hardReset s).cmds = s.cmds := rfl
@[simp] theorem hardReset_resetIn (s : State) : (hardReset s).resetIn = s.resetIn := rfl

end Sys2Proof.Machine
end

