-- ==== Sys2Proof/Laws/Ops.lean ====
section
/-! SUPPORT. One lemma per shared operation, saying once everything it can do, for proofs to cite. -/

namespace Sys2Proof.Machine

/-! ## Primitives -/

theorem csl_eq {s : State} (h : s.cs = .high) : csl s = .ok (Body.select s) := by
  simp [csl, h, Body.select]

theorem exchange_eq {s : State} (tx : Byte) (h : s.cs = .low) :
    exchange tx s = .ok ((s.env.xfer tx).1, Body.send tx s) := by
  simp [exchange, h, Body.send]

theorem transmit_eq {s : State} (tx : Byte) (h : s.cs = .low) : transmit tx s = .ok (Body.send tx s) := by
  simp [transmit, exchange_eq tx h]

theorem delay_eq {s : State} (n : Nat) (h : s.cs = .high) : delay n s = .ok (Body.wait n s) := by
  simp [delay, h, Body.wait]

/-- Everything CSL can do. -/
theorem csl_cases (s : State) :
    (s.cs = .high ∧ csl s = .ok (Body.select s)) ∨ (s.cs = .low ∧ csl s = .error .cslWhileSelected) := by
  cases h : s.cs
  · exact .inr ⟨rfl, by simp [csl, h]⟩
  · exact .inl ⟨rfl, csl_eq h⟩

/-- Everything X can do. -/
theorem exchange_cases (tx : Byte) (s : State) :
    (s.cs = .low ∧ exchange tx s = .ok ((s.env.xfer tx).1, Body.send tx s)) ∨
      (s.cs = .high ∧ exchange tx s = .error .exchangeWhileDeselected) := by
  cases h : s.cs
  · exact .inl ⟨rfl, exchange_eq tx h⟩
  · exact .inr ⟨rfl, by simp [exchange, h]⟩

/-- Everything DLY can do. -/
theorem delay_cases (n : Nat) (s : State) :
    (s.cs = .high ∧ delay n s = .ok (Body.wait n s)) ∨ (s.cs = .low ∧ delay n s = .error .delayWhileSelected) := by
  cases h : s.cs
  · exact .inr ⟨rfl, by simp [delay, h]⟩
  · exact .inl ⟨rfl, delay_eq n h⟩

@[simp] theorem andThen_ok (s : State) (k : State → Outcome) : andThen (.ok s) k = k s := rfl
@[simp] theorem andThen_error (e : Fault) (k : State → Outcome) : andThen (.error e) k = .fault e := rfl

/-- A step that goes on from a primitive answers a next state only through the primitive's own. -/
theorem andThen_next {x : Except Fault State} {k : State → Outcome} {t : State}
    (h : andThen x k = .next t) : ∃ s, x = .ok s ∧ k s = .next t := by
  cases x with
  | ok s => exact ⟨s, rfl, h⟩
  | error e => cases h

/-! ## Returns -/

/-- What a body's end does does not depend on the position it ends at. -/
theorem complete_goto (f g : Frame) (K : List Frame) (r : Ret) (s : State) :
    complete f r (goto g K s) = complete f r s := by
  unfold complete
  split
  · next op _ =>
    have h : responseOf op f r (goto g K s) = responseOf op f r s := by
      unfold responseOf getuidResponse; rfl
    rw [h]; rfl
  · rfl

/-- Everything the return to a caller can do, with the position of the state put aside. -/
theorem afterCall_goto (c g : Frame) (K : List Frame) (r : Ret) (s : State) :
    afterCall c r (goto g K s) =
      match afterCall c r s with
      | some (.goesOn f s') => some (.goesOn f (goto g K s'))
      | some (.ends s') => some (.ends (goto g K s'))
      | none => none := by
  unfold afterCall
  split <;> rfl

theorem ret_goto (K : List Frame) : ∀ (f g : Frame) (K' : List Frame) (r : Ret) (s : State),
    ret K f r (goto g K' s) = ret K f r s := by
  induction K with
  | nil => intro f g K' r s; simp only [ret, complete_goto]
  | cons c K ih =>
    intro f g K' r s
    simp only [ret, afterCall_goto]
    cases h : afterCall c r s with
    | none => rfl
    | some x =>
      cases x with
      | goesOn a s' => rfl
      | ends s' => exact ih c g K' .nothing s'

end Sys2Proof.Machine
end

