-- ==== Sys2Proof/Laws/Run.lean ====
section
/-! SUPPORT. Runs: composing them, and what a body has done when its last step returns (the body's whole effect of Safety.lean, for any caller). -/

namespace Sys2Proof.Machine

/-! ## Composing runs -/

theorem run_zero (s : State) : runSteps 0 s = .next s := rfl

theorem run_succ {s t : State} (k : Nat) (h : step s = .next t) : runSteps (k + 1) s = runSteps k t := by
  simp [runSteps, h]

theorem run_one (s : State) : runSteps 1 s = step s := by
  simp only [runSteps]; cases step s <;> rfl

/-- The runs of Safety.lean are the host's. -/
theorem run_eq_core : ∀ (k : Nat) (s : State), runSteps k s = Sys2Proof.core.run k s
  | 0, _ => rfl
  | k + 1, s => by
    refine Eq.trans ?_ (Host.Core.run.eq_2 Sys2Proof.core s k).symm
    cases h : step s with
    | next t =>
      have h' : Sys2Proof.core.step s = .next t := h
      rw [h', run_succ k h]
      exact run_eq_core k t
    | fault r =>
      have h' : Sys2Proof.core.step s = .fault r := h
      rw [h']
      simp only [runSteps, h]
      rfl
    | refused r =>
      have h' : Sys2Proof.core.step s = .refused r := h
      rw [h']
      simp only [runSteps, h]
      rfl

theorem run_add {m : Nat} : ∀ {s t : State} (n : Nat), Runs m s t → runSteps (m + n) s = runSteps n t := by
  induction m with
  | zero => intro s t n h; cases h; rw [Nat.zero_add]
  | succ m ih =>
    intro s t n h
    unfold Runs at h
    rw [Nat.succ_add]
    simp only [runSteps] at h ⊢
    cases hs : step s with
    | next u => rw [hs] at h; exact ih n h
    | fault r => rw [hs] at h; cases h
    | refused r => rw [hs] at h; cases h

theorem Runs.trans {m n : Nat} {s t u : State} (h : Runs m s t) (h' : Runs n t u) : Runs (m + n) s u := by
  unfold Runs at *; rw [run_add n h]; exact h'

theorem Runs.refl (s : State) : Runs 0 s s := rfl

theorem Runs.one {s t : State} (h : step s = .next t) : Runs 1 s t := by
  unfold Runs; rw [run_one]; exact h

/-! ## One step of a busy block -/

theorem step_busy {s : State} {f : Frame} {K : List Frame} (h : s.run = .busy f K) (hr : s.resetIn = []) :
    step s = advance f K s := by
  simp [step, takeReset, hr, work, h]

theorem step_goto {s : State} (f : Frame) (K : List Frame) (hr : s.resetIn = []) :
    step (goto f K s) = advance f K (goto f K s) :=
  step_busy rfl hr

theorem step_call {s : State} (g f : Frame) (K : List Frame) (hr : s.resetIn = []) :
    step (call g f K s) = advance g (f :: K) (call g f K s) :=
  step_busy rfl hr

/-! ## Field lemmas of the body effects -/

namespace Body

section
variable (a v f v0 v1 tx : Byte) (n : Nat) (s : State)

@[simp] theorem select_cs : (select s).cs = .low := rfl
@[simp] theorem select_cfg : (select s).cfg = s.cfg := rfl
@[simp] theorem select_resetIn : (select s).resetIn = s.resetIn := rfl
@[simp] theorem select_run : (select s).run = s.run := rfl
@[simp] theorem send_cs : (send tx s).cs = s.cs := rfl
@[simp] theorem send_cfg : (send tx s).cfg = s.cfg := rfl
@[simp] theorem send_resetIn : (send tx s).resetIn = s.resetIn := rfl
@[simp] theorem send_run : (send tx s).run = s.run := rfl
@[simp] theorem wait_cs : (wait n s).cs = s.cs := rfl
@[simp] theorem wait_cfg : (wait n s).cfg = s.cfg := rfl
@[simp] theorem wait_resetIn : (wait n s).resetIn = s.resetIn := rfl
@[simp] theorem wait_run : (wait n s).run = s.run := rfl
@[simp] theorem wait_tmp : (wait n s).tmp = s.tmp := rfl
@[simp] theorem wait_irq : (wait n s).irq = s.irq := rfl
@[simp] theorem wait_lvl : (wait n s).lvl = s.lvl := rfl
@[simp] theorem wait_cnt : (wait n s).cnt = s.cnt := rfl
@[simp] theorem wait_buf : (wait n s).buf = s.buf := rfl
@[simp] theorem wait_dLat : (wait n s).dLat = s.dLat := rfl
@[simp] theorem wr_cs : (wr a v s).cs = .high := rfl
@[simp] theorem wr_cfg : (wr a v s).cfg = s.cfg := rfl
@[simp] theorem wr_resetIn : (wr a v s).resetIn = s.resetIn := rfl
@[simp] theorem wr_run : (wr a v s).run = s.run := rfl
@[simp] theorem wr_tmp : (wr a v s).tmp = s.tmp := rfl
@[simp] theorem wr_lvl : (wr a v s).lvl = s.lvl := rfl
@[simp] theorem wr_cnt : (wr a v s).cnt = s.cnt := rfl
@[simp] theorem wr_buf : (wr a v s).buf = s.buf := rfl
@[simp] theorem wr_dLat : (wr a v s).dLat = s.dLat := rfl
@[simp] theorem rd_cs : (rd a f s).cs = .high := rfl
@[simp] theorem rd_cfg : (rd a f s).cfg = s.cfg := rfl
@[simp] theorem rd_resetIn : (rd a f s).resetIn = s.resetIn := rfl
@[simp] theorem rd_run : (rd a f s).run = s.run := rfl
@[simp] theorem rd_tmp : (rd a f s).tmp = s.tmp := rfl
@[simp] theorem rd_lvl : (rd a f s).lvl = s.lvl := rfl
@[simp] theorem rd_cnt : (rd a f s).cnt = s.cnt := rfl
@[simp] theorem rd_buf : (rd a f s).buf = s.buf := rfl
@[simp] theorem rd_dLat : (rd a f s).dLat = s.dLat := rfl
@[simp] theorem wburst2_cs : (wburst2 a v0 v1 s).cs = .high := rfl
@[simp] theorem wburst2_cfg : (wburst2 a v0 v1 s).cfg = s.cfg := rfl
@[simp] theorem wburst2_resetIn : (wburst2 a v0 v1 s).resetIn = s.resetIn := rfl
@[simp] theorem wburst2_run : (wburst2 a v0 v1 s).run = s.run := rfl

/-! The position plays no part in a body's effect. -/

theorem select_goto (g : Frame) (K : List Frame) : select (goto g K s) = goto g K (select s) := rfl
theorem send_goto (g : Frame) (K : List Frame) : send tx (goto g K s) = goto g K (send tx s) := rfl
theorem wait_goto (g : Frame) (K : List Frame) : wait n (goto g K s) = goto g K (wait n s) := rfl
theorem wr_goto (g : Frame) (K : List Frame) : wr a v (goto g K s) = goto g K (wr a v s) := rfl
theorem rd_goto (g : Frame) (K : List Frame) : rd a f (goto g K s) = goto g K (rd a f s) := rfl
theorem rdByte_goto (g : Frame) (K : List Frame) : rdByte a f (goto g K s) = rdByte a f s := rfl
theorem wburst2_goto (g : Frame) (K : List Frame) :
    wburst2 a v0 v1 (goto g K s) = goto g K (wburst2 a v0 v1 s) := rfl
end

end Body

theorem goto_goto (f g : Frame) (K L : List Frame) (s : State) : goto f K (goto g L s) = goto f K s := rfl

/-! ## What each body has done when it returns -/

section
variable {s : State} (K : List Frame)

/-- `wr`: four steps. -/
theorem run_wr (a v : Operand) (hc : s.cs = .high) (hr : s.resetIn = []) :
    runSteps 4 (goto (.wrreg a v .s1) K s) =
      ret K (.wrreg a v .s4) .nothing (Body.wr (a.addr s) (v.data s) s) := by
  rw [run_succ 3 (t := goto (.wrreg a v .s2) K (Body.select s))
        (by rw [step_goto _ _ (by exact hr)]; simp [advance, stepWrreg, csl_eq, hc, Body.select_goto, goto_goto]),
      run_succ 2 (t := goto (.wrreg a v .s3) K (Body.send (wframeByte (a.addr s).toNat) (Body.select s)))
        (by rw [step_goto _ _ (by exact hr)]
            simp only [advance, stepWrreg]
            rw [transmit_eq _ (by rfl)]
            cases a <;> rfl),
      run_succ 1 (t := goto (.wrreg a v .s4) K
          (Body.send (v.data s) (Body.send (wframeByte (a.addr s).toNat) (Body.select s))))
        (by rw [step_goto _ _ (by exact hr)]
            simp only [advance, stepWrreg]
            rw [transmit_eq _ (by rfl)]
            cases v <;> rfl),
      run_one, step_goto _ _ (by exact hr)]
  exact ret_goto K _ _ _ _ (Body.wr (a.addr s) (v.data s) s)

/-- `rd`: four steps. -/
theorem run_rd (a : Operand) (f : Fill) (hc : s.cs = .high) (hr : s.resetIn = []) :
    runSteps 4 (goto (.rdreg a f .s1) K s) =
      ret K (.rdreg a f (.s4 (Body.rdByte (a.addr s) (f.byte s) s)))
        (.byte (Body.rdByte (a.addr s) (f.byte s) s)) (Body.rd (a.addr s) (f.byte s) s) := by
  rw [run_succ 3 (t := goto (.rdreg a f .s2) K (Body.select s))
        (by rw [step_goto _ _ (by exact hr)]; simp [advance, stepRdreg, csl_eq, hc, Body.select_goto, goto_goto]),
      run_succ 2 (t := goto (.rdreg a f .s3) K (Body.send (rframeByte (a.addr s).toNat) (Body.select s)))
        (by rw [step_goto _ _ (by exact hr)]
            simp only [advance, stepRdreg]
            rw [transmit_eq _ (by rfl)]
            cases a <;> rfl),
      run_succ 1 (t := goto (.rdreg a f (.s4 (Body.rdByte (a.addr s) (f.byte s) s))) K
          (Body.send (f.byte s) (Body.send (rframeByte (a.addr s).toNat) (Body.select s))))
        (by rw [step_goto _ _ (by exact hr)]
            simp only [advance, stepRdreg]
            rw [exchange_eq _ (by rfl)]
            cases f <;> rfl),
      run_one, step_goto _ _ (by exact hr)]
  exact ret_goto K _ _ _ _ (Body.rd (a.addr s) (f.byte s) s)

/-- `wburst2`: five steps. -/
theorem run_wburst2 (a v0 v1 : Operand) (hc : s.cs = .high) (hr : s.resetIn = []) :
    runSteps 5 (goto (.wburst2 a v0 v1 .s1) K s) =
      ret K (.wburst2 a v0 v1 .s5) .nothing (Body.wburst2 (a.addr s) (v0.data s) (v1.data s) s) := by
  rw [run_succ 4 (t := goto (.wburst2 a v0 v1 .s2) K (Body.select s))
        (by rw [step_goto _ _ (by exact hr)]; simp [advance, stepWburst2, csl_eq, hc, Body.select_goto, goto_goto]),
      run_succ 3 (t := goto (.wburst2 a v0 v1 .s3) K (Body.send (wframeByte (a.addr s).toNat) (Body.select s)))
        (by rw [step_goto _ _ (by exact hr)]
            simp only [advance, stepWburst2]
            rw [transmit_eq _ (by rfl)]
            cases a <;> rfl),
      run_succ 2 (t := goto (.wburst2 a v0 v1 .s4) K
          (Body.send (v0.data s) (Body.send (wframeByte (a.addr s).toNat) (Body.select s))))
        (by rw [step_goto _ _ (by exact hr)]
            simp only [advance, stepWburst2]
            rw [transmit_eq _ (by rfl)]
            cases v0 <;> rfl),
      run_succ 1 (t := goto (.wburst2 a v0 v1 .s5) K
          (Body.send (v1.data s) (Body.send (v0.data s) (Body.send (wframeByte (a.addr s).toNat) (Body.select s)))))
        (by rw [step_goto _ _ (by exact hr)]
            simp only [advance, stepWburst2]
            rw [transmit_eq _ (by rfl)]
            cases v1 <;> rfl),
      run_one, step_goto _ _ (by exact hr)]
  exact ret_goto K _ _ _ _ (Body.wburst2 (a.addr s) (v0.data s) (v1.data s) s)

end

end Sys2Proof.Machine
end

