-- ==== Sys2Proof/Laws/Bodies.lean ====
section
/-! SUPPORT. What the composed bodies have done when they return: each sub-operation's run is the whole effect of Safety.lean, for any caller. -/

namespace Sys2Proof.Machine

/-- One step of the innermost frame, in a run. -/
theorem run_step {s t : State} {f : Frame} {K : List Frame} (n : Nat) (hr : s.resetIn = [])
    (h : advance f K (goto f K s) = .next t) : runSteps (n + 1) (goto f K s) = runSteps n t :=
  run_succ n (by rw [step_goto _ _ hr]; exact h)

theorem run_goes {s t : State} {m : Nat} (n : Nat) (h : runSteps m s = .next t) :
    runSteps (m + n) s = runSteps n t :=
  run_add n h

theorem addr_ofReg (a : RegAddr) (s : State) : (Operand.ofReg a).addr s = Body.reg a := rfl

/-- What a call of `rd` by any step has done when the caller goes on. -/
theorem run_callRd {s : State} {c : Frame} {K : List Frame} (a : RegAddr) (hc : s.cs = .high)
    (hr : s.resetIn = []) (n : Nat) {g : Frame} {t : State}
    (h : afterCall c (.byte (Body.rdRegByte a s)) (Body.rdReg a s) = some (.goesOn g t)) :
    runSteps (4 + n) (goto (callRd a) (c :: K) s) = runSteps n (goto g K t) := by
  apply run_goes
  rw [show callRd a = .rdreg (.ofReg a) .param .s1 from rfl, run_rd (c :: K) (.ofReg a) .param hc hr, addr_ofReg]
  show ret (c :: K) _ (.byte (Body.rdRegByte a s)) (Body.rdReg a s) = _
  simp only [ret, h]

/-- What a call of `wr` by any step has done when the caller goes on. -/
theorem run_callWr {s : State} {c : Frame} {K : List Frame} (a : RegAddr) (v : Byte) (hc : s.cs = .high)
    (hr : s.resetIn = []) (n : Nat) {g : Frame} {t : State}
    (h : afterCall c .nothing (Body.wrReg a v s) = some (.goesOn g t)) :
    runSteps (4 + n) (goto (callWr a v) (c :: K) s) = runSteps n (goto g K t) := by
  apply run_goes
  rw [show callWr a v = .wrreg (.ofReg a) (.given v) .s1 from rfl, run_wr (c :: K) (.ofReg a) (.given v) hc hr, addr_ofReg]
  show ret (c :: K) _ .nothing (Body.wrReg a v s) = _
  simp only [ret, h]

section
variable {s : State} (K : List Frame)

theorem run_setb (a m : Operand) (hc : s.cs = .high) (hr : s.resetIn = []) :
    runSteps 10 (goto (.setbits a m .s1) K s) =
      ret K (.setbits a m .s2) .nothing (Body.setb (a.addr s) (m.data s) s) := by
  have h1 : runSteps 4 (goto (.rdreg a .param .s1) (.setbits a m .s1 :: K) s) =
      .next (goto (.setbits a m .s2) K
        { Body.rd (a.addr s) s.cfg.readFill s with tmp := Body.rdByte (a.addr s) s.cfg.readFill s }) := by
    rw [run_rd _ a .param hc hr]; rfl
  rw [run_step 9 hr (t := goto (.rdreg a .param .s1) (.setbits a m .s1 :: K) s) rfl, run_goes 5 h1,
    run_step 4 (by exact hr) (t := goto (.wrreg a (.given (Body.rdByte (a.addr s) s.cfg.readFill s ||| m.data s)) .s1)
      (.setbits a m .s2 :: K) { Body.rd (a.addr s) s.cfg.readFill s with tmp := Body.rdByte (a.addr s) s.cfg.readFill s })
      (by cases m <;> rfl),
    run_wr _ a _ rfl (by exact hr)]
  cases a <;> rfl

theorem run_clrb (a m : Operand) (hc : s.cs = .high) (hr : s.resetIn = []) :
    runSteps 10 (goto (.clrbits a m .s1) K s) =
      ret K (.clrbits a m .s2) .nothing (Body.clrb (a.addr s) (m.data s) s) := by
  have h1 : runSteps 4 (goto (.rdreg a .param .s1) (.clrbits a m .s1 :: K) s) =
      .next (goto (.clrbits a m .s2) K
        { Body.rd (a.addr s) s.cfg.readFill s with tmp := Body.rdByte (a.addr s) s.cfg.readFill s }) := by
    rw [run_rd _ a .param hc hr]; rfl
  rw [run_step 9 hr (t := goto (.rdreg a .param .s1) (.clrbits a m .s1 :: K) s) rfl, run_goes 5 h1,
    run_step 4 (by exact hr) (t := goto (.wrreg a (.given (Body.rdByte (a.addr s) s.cfg.readFill s &&& ~~~m.data s)) .s1)
      (.clrbits a m .s2 :: K) { Body.rd (a.addr s) s.cfg.readFill s with tmp := Body.rdByte (a.addr s) s.cfg.readFill s })
      (by cases m <;> rfl),
    run_wr _ a _ rfl (by exact hr)]
  cases a <;> rfl

theorem run_callSetb {c : Frame} (a : RegAddr) (m : Byte) (hc : s.cs = .high) (hr : s.resetIn = []) (n : Nat)
    {g : Frame} {t : State}
    (h : afterCall c .nothing (Body.setb (Body.reg a) m s) = some (.goesOn g t)) :
    runSteps (10 + n) (goto (callSetb a m) (c :: K) s) = runSteps n (goto g K t) := by
  apply run_goes
  rw [show callSetb a m = .setbits (.ofReg a) (.given m) .s1 from rfl, run_setb (c :: K) _ _ hc hr, addr_ofReg]
  show ret (c :: K) _ .nothing (Body.setb (Body.reg a) m s) = _
  simp only [ret, h]

theorem run_callClrb {c : Frame} (a : RegAddr) (m : Byte) (hc : s.cs = .high) (hr : s.resetIn = []) (n : Nat)
    {g : Frame} {t : State}
    (h : afterCall c .nothing (Body.clrb (Body.reg a) m s) = some (.goesOn g t)) :
    runSteps (10 + n) (goto (callClrb a m) (c :: K) s) = runSteps n (goto g K t) := by
  apply run_goes
  rw [show callClrb a m = .clrbits (.ofReg a) (.given m) .s1 from rfl, run_clrb (c :: K) _ _ hc hr, addr_ofReg]
  show ret (c :: K) _ .nothing (Body.clrb (Body.reg a) m s) = _
  simp only [ret, h]

theorem run_callWburst2 {c : Frame} (a : RegAddr) (v0 v1 : Byte) (hc : s.cs = .high) (hr : s.resetIn = []) (n : Nat)
    {g : Frame} {t : State}
    (h : afterCall c .nothing (Body.wburst2 (Body.reg a) v0 v1 s) = some (.goesOn g t)) :
    runSteps (5 + n) (goto (callWburst2 a v0 v1) (c :: K) s) = runSteps n (goto g K t) := by
  apply run_goes
  rw [show callWburst2 a v0 v1 = .wburst2 (.ofReg a) (.given v0) (.given v1) .s1 from rfl,
    run_wburst2 (c :: K) _ _ _ hc hr, addr_ofReg]
  show ret (c :: K) _ .nothing (Body.wburst2 (Body.reg a) v0 v1 s) = _
  simp only [ret, h]

end

end Sys2Proof.Machine
end

