-- ==== Sys2Proof/Laws/Commands.lean ====
section
/-! SUPPORT. What the step lists of RESET, ANTON, INIT, REQP, the drain and ANTICOLL have done when they return, for any caller. -/

namespace Sys2Proof.Machine

theorem outermost_commandOp (f g : Frame) (h : f.commandOp = g.commandOp) :
    ∀ K : List Frame, (outermost f K).commandOp = (outermost g K).commandOp
  | [] => h
  | _ :: _ => rfl

theorem raise_goto (op : Option OpCode) (st : Status) (g : Frame) (K : List Frame) (s : State) :
    raise op st (goto g K s) = raise op st s := by
  unfold raise
  cases h : s.cs <;> cases op <;> simp only [goto_cs, h] <;> rfl

/-! ## The loops of Safety.lean, one poll at a time -/

namespace Body

@[simp] theorem readTmp_cs (a : Byte) (s : State) : (readTmp a s).cs = .high := rfl
@[simp] theorem readTmp_cfg (a : Byte) (s : State) : (readTmp a s).cfg = s.cfg := rfl
@[simp] theorem readTmp_cnt (a : Byte) (s : State) : (readTmp a s).cnt = s.cnt := rfl
@[simp] theorem readTmp_cmds (a : Byte) (s : State) : (readTmp a s).cmds = s.cmds := rfl
@[simp] theorem readTmp_resetIn (a : Byte) (s : State) : (readTmp a s).resetIn = s.resetIn := rfl
@[simp] theorem readIrq_cs (s : State) : (readIrq s).cs = .high := rfl
@[simp] theorem readIrq_cfg (s : State) : (readIrq s).cfg = s.cfg := rfl
@[simp] theorem readIrq_cnt (s : State) : (readIrq s).cnt = s.cnt := rfl
@[simp] theorem readIrq_cmds (s : State) : (readIrq s).cmds = s.cmds := rfl
@[simp] theorem readIrq_resetIn (s : State) : (readIrq s).resetIn = s.resetIn := rfl
@[simp] theorem countPoll_cs (s : State) : (countPoll s).cs = s.cs := rfl
@[simp] theorem countPoll_cfg (s : State) : (countPoll s).cfg = s.cfg := rfl
@[simp] theorem countPoll_cnt (s : State) : (countPoll s).cnt = s.cnt + 1 := rfl
@[simp] theorem countPoll_cmds (s : State) : (countPoll s).cmds = s.cmds := rfl
@[simp] theorem countPoll_resetIn (s : State) : (countPoll s).resetIn = s.resetIn := rfl
@[simp] theorem resetSend_cs (s : State) : (resetSend s).cs = .high := rfl
@[simp] theorem resetSend_cfg (s : State) : (resetSend s).cfg = s.cfg := rfl
@[simp] theorem resetSend_cnt (s : State) : (resetSend s).cnt = 0 := rfl
@[simp] theorem resetSend_cmds (s : State) : (resetSend s).cmds = s.cmds := rfl
@[simp] theorem resetSend_resetIn (s : State) : (resetSend s).resetIn = s.resetIn := rfl

/-- The state after one read of RESET's loop. -/
abbrev resetRead (s : State) : State := readTmp (reg s.cfg.aCommand) s

theorem resetPoll_clear {s : State} (n : Nat) (h : (resetRead s).tmp &&& 0x10 = 0) :
    resetPoll (n + 1) s = (true, resetRead s) := by
  rw [resetPoll, if_pos h]

theorem resetPoll_busy {s : State} (n : Nat) (h : ¬(resetRead s).tmp &&& 0x10 = 0) :
    resetPoll (n + 1) s = resetPoll n (countPoll (resetRead s)) := by
  rw [resetPoll, if_neg h]

theorem irqPoll_seen {s : State} (n : Nat) (h : (readIrq s).irq &&& 0x30 ≠ 0) :
    irqPoll (n + 1) s = readIrq s := by
  rw [irqPoll, if_pos h]

theorem irqPoll_unseen {s : State} (n : Nat) (h : ¬(readIrq s).irq &&& 0x30 ≠ 0) :
    irqPoll (n + 1) s = irqPoll n (countPoll (readIrq s)) := by
  rw [irqPoll, if_neg h]

theorem anton_on {s : State} (h : (readTmp (reg s.cfg.aTxControl) s).tmp &&& 0x03 = 0x03) :
    anton s = readTmp (reg s.cfg.aTxControl) s := by
  rw [anton, if_pos h]

theorem anton_off {s : State} (h : ¬(readTmp (reg s.cfg.aTxControl) s).tmp &&& 0x03 = 0x03) :
    anton s = setb (reg s.cfg.aTxControl) 0x03 (readTmp (reg s.cfg.aTxControl) s) := by
  rw [anton, if_neg h]

/-- What no poll of RESET changes. -/
theorem resetPoll_frame (n : Nat) : ∀ {s : State}, s.cs = .high →
    (resetPoll n s).2.cs = .high ∧ (resetPoll n s).2.resetIn = s.resetIn ∧ (resetPoll n s).2.cmds = s.cmds := by
  induction n with
  | zero => intro s h; exact ⟨h, rfl, rfl⟩
  | succ n ih =>
    intro s _
    by_cases h : (resetRead s).tmp &&& 0x10 = 0
    · rw [resetPoll_clear n h]; exact ⟨rfl, rfl, rfl⟩
    · rw [resetPoll_busy n h]; exact ih rfl

theorem reset_frame (n : Nat) (s : State) :
    (reset n s).2.cs = .high ∧ (reset n s).2.resetIn = s.resetIn ∧ (reset n s).2.cmds = s.cmds :=
  resetPoll_frame n rfl

theorem anton_frame (s : State) :
    (anton s).cs = .high ∧ (anton s).resetIn = s.resetIn ∧ (anton s).cmds = s.cmds := by
  by_cases h : (readTmp (reg s.cfg.aTxControl) s).tmp &&& 0x03 = 0x03
  · rw [anton_on h]; exact ⟨rfl, rfl, rfl⟩
  · rw [anton_off h]; exact ⟨rfl, rfl, rfl⟩

/-- What no poll of REQP changes. -/
theorem irqPoll_frame (n : Nat) : ∀ {s : State}, s.cs = .high →
    (irqPoll n s).cs = .high ∧ (irqPoll n s).resetIn = s.resetIn ∧ (irqPoll n s).cmds = s.cmds := by
  induction n with
  | zero => intro s h; exact ⟨h, rfl, rfl⟩
  | succ n ih =>
    intro s _
    by_cases h : (readIrq s).irq &&& 0x30 ≠ 0
    · rw [irqPoll_seen n h]; exact ⟨rfl, rfl, rfl⟩
    · rw [irqPoll_unseen n h]; exact ih rfl

end Body

section
variable {s : State} (K : List Frame)

/-- ANTON. -/
theorem run_anton (hc : s.cs = .high) (hr : s.resetIn = []) :
    ∃ k l, runSteps k (goto (.anton .s1) K s) = ret K (.anton l) .nothing (Body.anton s) := by
  let s1 := Body.readTmp (Body.reg s.cfg.aTxControl) s
  by_cases h : s1.tmp &&& 0x03 = 0x03
  · refine ⟨6, .s2, ?_⟩
    rw [run_step 5 hr (t := goto (callRd s.cfg.aTxControl) (.anton .s1 :: K) s) rfl,
      run_callRd _ hc hr 1 (t := s1) rfl, run_one, step_goto _ _ (by exact hr)]
    show (if antennaIsOn s1.tmp then _ else _) = _
    rw [if_pos (by simpa [antennaIsOn, Const.antMask] using h), ret_goto, Body.anton_on h]
  · refine ⟨17, .s3, ?_⟩
    rw [run_step 16 hr (t := goto (callRd s.cfg.aTxControl) (.anton .s1 :: K) s) rfl,
      run_callRd _ hc hr 12 (t := s1) rfl,
      run_step 11 (by exact hr) (t := goto (.anton .s3) K s1)
        (by show (if antennaIsOn s1.tmp then _ else _) = _
            rw [if_neg (by simpa [antennaIsOn, Const.antMask] using h)]; rfl),
      run_step 10 (by exact hr) (t := goto (callSetb s1.cfg.aTxControl Const.antMask) (.anton .s3 :: K) s1) rfl,
      show callSetb s1.cfg.aTxControl Const.antMask = .setbits (.ofReg s.cfg.aTxControl) (.given 0x03) .s1 from rfl,
      run_setb _ _ _ rfl (by exact hr), addr_ofReg, Body.anton_off h]
    rfl

/-- ANTOFF. -/
theorem run_antoff (hc : s.cs = .high) (hr : s.resetIn = []) :
    runSteps 11 (goto (.antoff .s1) K s) = ret K (.antoff .s1) .nothing (Body.antoff s) := by
  rw [run_step 10 hr (t := goto (callClrb s.cfg.aTxControl Const.antMask) (.antoff .s1 :: K) s) rfl,
    show callClrb s.cfg.aTxControl Const.antMask = .clrbits (.ofReg s.cfg.aTxControl) (.given 0x03) .s1 from rfl,
    run_clrb _ _ _ hc hr, addr_ofReg]
  rfl

/-- How RESET ends: it returns, or it raises UNRESPONSIVE. -/
def resetEnd (K : List Frame) (x : Bool × State) : Outcome :=
  if x.1 then ret K (.reset .s5) .nothing x.2
  else .next (raise (outermost (.reset .s1) K).commandOp .unresponsive x.2)

/-- RESET S1 to S3. -/
theorem run_resetSend (hc : s.cs = .high) (hr : s.resetIn = []) :
    Runs 7 (goto (.reset .s1) K s) (goto (.reset .s4) K (Body.resetSend s)) := by
  let s1 := Body.wrReg s.cfg.aCommand s.cfg.cmdSoftReset s
  unfold Runs
  rw [run_step 6 hr (t := goto (callWr s.cfg.aCommand s.cfg.cmdSoftReset) (.reset .s1 :: K) s) rfl,
    run_callWr _ _ hc hr 2 (t := s1) rfl,
    run_step 1 (by exact hr) (t := goto (.reset .s3) K (Body.wait 50 s1))
      (by simp only [advance, stepReset]; rw [delay_eq _ rfl]; rfl),
    run_one, step_goto _ _ (by exact hr)]
  rfl

/-- A poll of RESET that reads bit 4 as 0. -/
theorem run_poll_clear (hc : s.cs = .high) (hr : s.resetIn = []) (h : (Body.resetRead s).tmp &&& 0x10 = 0) :
    runSteps 6 (goto (.reset .s4) K s) = ret K (.reset .s5) .nothing (Body.resetRead s) := by
  rw [run_step 5 hr (t := goto (callRd s.cfg.aCommand) (.reset .s4 :: K) s) rfl,
    run_callRd _ hc hr 1 (t := Body.resetRead s) rfl, run_one, step_goto _ _ (by exact hr)]
  show (if busyClear (Body.resetRead s).tmp then _ else _) = _
  rw [if_pos (by simpa [busyClear, Const.cmdBusyMask] using h), ret_goto]

/-- A poll of RESET that reads bit 4 as 1, up to the bound test. -/
theorem run_poll_busy (hc : s.cs = .high) (hr : s.resetIn = []) (h : ¬(Body.resetRead s).tmp &&& 0x10 = 0) :
    Runs 8 (goto (.reset .s4) K s) (goto (.reset .s8) K (Body.countPoll (Body.resetRead s))) := by
  unfold Runs
  rw [run_step 7 hr (t := goto (callRd s.cfg.aCommand) (.reset .s4 :: K) s) rfl,
    run_callRd _ hc hr 3 (t := Body.resetRead s) rfl,
    run_step 2 (by exact hr) (t := goto (.reset .s6) K (Body.resetRead s))
      (by show (if busyClear (Body.resetRead s).tmp then _ else _) = _
          rw [if_neg (by simpa [busyClear, Const.cmdBusyMask] using h)]; rfl),
    run_step 1 (by exact hr) (t := goto (.reset .s7) K (Body.wait 1 (Body.resetRead s)))
      (by simp only [advance, stepReset]; rw [delay_eq _ rfl]; rfl),
    run_one, step_goto _ _ (by exact hr)]
  rfl

/-- The bound test of RESET that goes on to the next poll. -/
theorem run_poll_again (hr : s.resetIn = []) (hb : resetBoundReached s.cfg.resetPollMax s.cnt = false) :
    Runs 2 (goto (.reset .s8) K s) (goto (.reset .s4) K s) := by
  unfold Runs
  rw [run_step 1 hr (t := goto (.reset .s9) K s)
      (by show (if resetBoundReached s.cfg.resetPollMax s.cnt then _ else _) = _
          rw [if_neg (by rw [hb]; simp)]; rfl),
    run_one, step_goto _ _ hr]
  rfl

/-- The bound test of RESET that raises. -/
theorem run_poll_raise (hr : s.resetIn = []) (hb : resetBoundReached s.cfg.resetPollMax s.cnt = true) :
    runSteps 1 (goto (.reset .s8) K s) =
      .next (raise (outermost (.reset .s1) K).commandOp .unresponsive s) := by
  rw [run_one, step_goto _ _ hr]
  show (if resetBoundReached s.cfg.resetPollMax s.cnt then _ else _) = _
  rw [if_pos hb, raise_goto]
  have ho : (goto (.reset .s8) K s).run.commandOp = (outermost (.reset .s1) K).commandOp :=
    outermost_commandOp (.reset .s8) (.reset .s1) rfl K
  rw [ho]

/-- RESET's poll loop with `n + 1` polls left. -/
theorem run_resetPoll (n : Nat) : ∀ {s : State}, s.cs = .high → s.resetIn = [] →
    s.cfg.resetPollMax = some (s.cnt + (n + 1)) →
    ∃ k, runSteps k (goto (.reset .s4) K s) = resetEnd K (Body.resetPoll (n + 1) s) := by
  induction n with
  | zero =>
    intro s hc hr hm
    by_cases h : (Body.resetRead s).tmp &&& 0x10 = 0
    · exact ⟨6, by rw [run_poll_clear K hc hr h, Body.resetPoll_clear 0 h]; rfl⟩
    · refine ⟨8 + 1, ?_⟩
      rw [run_add 1 (run_poll_busy K hc hr h), run_poll_raise K (by exact hr)
        (by simp [hm, resetBoundReached]), Body.resetPoll_busy 0 h]
      rfl
  | succ n ih =>
    intro s hc hr hm
    by_cases h : (Body.resetRead s).tmp &&& 0x10 = 0
    · exact ⟨6, by rw [run_poll_clear K hc hr h, Body.resetPoll_clear _ h]; rfl⟩
    · obtain ⟨k, hk⟩ := ih (s := Body.countPoll (Body.resetRead s)) rfl (by exact hr)
        (by simp only [Body.countPoll_cfg, Body.readTmp_cfg, Body.countPoll_cnt, Body.readTmp_cnt, hm]; congr 1; omega)
      refine ⟨8 + (2 + k), ?_⟩
      rw [run_add _ (run_poll_busy K hc hr h), run_add _ (run_poll_again K (by exact hr)
        (by simp [hm, resetBoundReached])), hk, Body.resetPoll_busy _ h]

/-- RESET's poll loop with no bound, when some poll reads bit 4 as 0. -/
theorem run_resetPoll_none (n : Nat) : ∀ {s : State}, s.cs = .high → s.resetIn = [] →
    s.cfg.resetPollMax = none → (Body.resetPoll n s).1 = true →
    ∃ k, runSteps k (goto (.reset .s4) K s) = resetEnd K (Body.resetPoll n s) := by
  induction n with
  | zero => intro s _ _ _ h; cases h
  | succ n ih =>
    intro s hc hr hm hn
    by_cases h : (Body.resetRead s).tmp &&& 0x10 = 0
    · exact ⟨6, by rw [run_poll_clear K hc hr h, Body.resetPoll_clear _ h]; rfl⟩
    · rw [Body.resetPoll_busy n h] at hn
      obtain ⟨k, hk⟩ := ih (s := Body.countPoll (Body.resetRead s)) rfl (by exact hr) hm hn
      refine ⟨8 + (2 + k), ?_⟩
      rw [run_add _ (run_poll_busy K hc hr h), run_add _ (run_poll_again K (by exact hr)
        (by simp [hm, resetBoundReached])), hk, Body.resetPoll_busy _ h]

/-- RESET's poll loop with no bound, through `n` polls that read bit 4 as 1. -/
theorem run_resetPoll_hang (n : Nat) : ∀ {s : State}, s.cs = .high → s.resetIn = [] →
    s.cfg.resetPollMax = none → (Body.resetPoll n s).1 = false →
    Runs (10 * n) (goto (.reset .s4) K s) (goto (.reset .s4) K (Body.resetPoll n s).2) := by
  induction n with
  | zero => intro s _ _ _ _; rfl
  | succ n ih =>
    intro s hc hr hm hn
    by_cases h : (Body.resetRead s).tmp &&& 0x10 = 0
    · rw [Body.resetPoll_clear n h] at hn; cases hn
    · rw [Body.resetPoll_busy n h] at hn ⊢
      have h2 := ((run_poll_busy K hc hr h).trans (run_poll_again K (by exact hr)
        (by simp [hm, resetBoundReached]))).trans
        (ih (s := Body.countPoll (Body.resetRead s)) rfl (by exact hr) hm hn)
      rw [show 8 + 2 + 10 * n = 10 * (n + 1) by omega] at h2
      exact h2

/-- RESET with a numeric bound. -/
theorem run_reset {n : Nat} (hc : s.cs = .high) (hr : s.resetIn = []) (hm : s.cfg.resetPollMax = some (n + 1)) :
    ∃ k, runSteps k (goto (.reset .s1) K s) = resetEnd K (Body.reset (n + 1) s) := by
  obtain ⟨k, hk⟩ := run_resetPoll K n (s := Body.resetSend s) rfl (by exact hr)
    (by simp only [Body.resetSend_cfg, Body.resetSend_cnt, hm, Nat.zero_add])
  exact ⟨7 + k, by rw [run_add k (run_resetSend K hc hr), hk]; rfl⟩

/-- RESET with no bound, against a chip that clears its busy bit within `n` polls. -/
theorem run_reset_none {n : Nat} (hc : s.cs = .high) (hr : s.resetIn = []) (hm : s.cfg.resetPollMax = none)
    (h : (Body.reset n s).1 = true) : ∃ k, runSteps k (goto (.reset .s1) K s) = resetEnd K (Body.reset n s) := by
  obtain ⟨k, hk⟩ := run_resetPoll_none K n (s := Body.resetSend s) rfl (by exact hr) (by exact hm) h
  exact ⟨7 + k, by rw [run_add k (run_resetSend K hc hr), hk]; rfl⟩

/-- A poll of REQP that sees a request bit. -/
theorem run_irq_seen (m : Operand) (hc : s.cs = .high) (hr : s.resetIn = [])
    (h : (Body.readIrq s).irq &&& 0x30 ≠ 0) :
    Runs 6 (goto (.reqp m .s9) K s) (goto (.reqp m .s14) K (Body.readIrq s)) := by
  unfold Runs
  rw [run_step 5 hr (t := goto (callRd s.cfg.aComIrq) (.reqp m .s9 :: K) s) rfl,
    run_callRd _ hc hr 1 (t := Body.readIrq s) rfl, run_one, step_goto _ _ (by exact hr)]
  show (if irqSeen (Body.readIrq s).irq then _ else _) = _
  rw [if_pos (by simpa [irqSeen, Const.irqWaitMask] using h)]
  rfl

/-- A poll of REQP that sees no request bit, up to the bound test. -/
theorem run_irq_unseen (m : Operand) (hc : s.cs = .high) (hr : s.resetIn = [])
    (h : ¬(Body.readIrq s).irq &&& 0x30 ≠ 0) :
    Runs 8 (goto (.reqp m .s9) K s) (goto (.reqp m .s13) K (Body.countPoll (Body.readIrq s))) := by
  unfold Runs
  rw [run_step 7 hr (t := goto (callRd s.cfg.aComIrq) (.reqp m .s9 :: K) s) rfl,
    run_callRd _ hc hr 3 (t := Body.readIrq s) rfl,
    run_step 2 (by exact hr) (t := goto (.reqp m .s11) K (Body.readIrq s))
      (by show (if irqSeen (Body.readIrq s).irq then _ else _) = _
          rw [if_neg (by simpa [irqSeen, Const.irqWaitMask] using h)]; rfl),
    run_step 1 (by exact hr) (t := goto (.reqp m .s12) K (Body.wait 1 (Body.readIrq s)))
      (by simp only [advance, stepReqp]; rw [delay_eq _ rfl]; rfl),
    run_one, step_goto _ _ (by exact hr)]
  rfl

/-- The bound test of REQP. -/
theorem run_irq_bound (m : Operand) (hr : s.resetIn = []) :
    Runs 1 (goto (.reqp m .s13) K s)
      (if s.cnt < 25 then goto (.reqp m .s9) K s else goto (.reqp m .s14) K { s with timedOut := true }) := by
  apply Runs.one
  rw [step_goto _ _ hr]
  show (if s.cnt < 25 then _ else _) = _
  split <;> rfl

/-- REQP's poll loop with `n + 1` polls left ends at S14. -/
theorem run_irqPoll (m : Operand) (n : Nat) : ∀ {s : State}, s.cs = .high → s.resetIn = [] →
    s.cnt + (n + 1) = 25 →
    ∃ k, Runs k (goto (.reqp m .s9) K s) (goto (.reqp m .s14) K (Body.irqPoll (n + 1) s)) := by
  induction n with
  | zero =>
    intro s hc hr hm
    by_cases h : (Body.readIrq s).irq &&& 0x30 ≠ 0
    · exact ⟨6, by rw [Body.irqPoll_seen _ h]; exact run_irq_seen K m hc hr h⟩
    · have hb := run_irq_bound (s := Body.countPoll (Body.readIrq s)) K m (by exact hr)
      rw [if_neg (by simp only [Body.countPoll_cnt, Body.readIrq_cnt]; omega)] at hb
      exact ⟨8 + 1, by rw [Body.irqPoll_unseen _ h]; exact (run_irq_unseen K m hc hr h).trans hb⟩
  | succ n ih =>
    intro s hc hr hm
    by_cases h : (Body.readIrq s).irq &&& 0x30 ≠ 0
    · exact ⟨6, by rw [Body.irqPoll_seen _ h]; exact run_irq_seen K m hc hr h⟩
    · have hb := run_irq_bound (s := Body.countPoll (Body.readIrq s)) K m (by exact hr)
      rw [if_pos (by simp only [Body.countPoll_cnt, Body.readIrq_cnt]; omega)] at hb
      obtain ⟨k, hk⟩ := ih (s := Body.countPoll (Body.readIrq s)) rfl (by exact hr)
        (by simp only [Body.countPoll_cnt, Body.readIrq_cnt]; omega)
      exact ⟨8 + 1 + k, by rw [Body.irqPoll_unseen _ h]; exact ((run_irq_unseen K m hc hr h).trans hb).trans hk⟩

/-- REQP S1 to S7. -/
theorem run_reqpSend (m : Operand) (hc : s.cs = .high) (hr : s.resetIn = []) :
    Runs 49 (goto (.reqp m .s1) K s) (goto (.reqp m .s8) K (Body.reqpSend (m.data s) s)) := by
  let s1 := Body.wrReg s.cfg.aBitFraming s.cfg.bfShort s
  let s2 := Body.setb (Body.reg s.cfg.aFifoLevel) s.cfg.flushMask s1
  let s3 := Body.wrReg s.cfg.aFifoData (m.data s) s2
  let s4 := Body.wrReg s.cfg.aCommand s.cfg.cmdTransceive s3
  let s5 := Body.setb (Body.reg s.cfg.aBitFraming) s.cfg.startSendMask s4
  let s6 := Body.wait 10 s5
  have hd : m.data s2 = m.data s := by cases m <;> rfl
  unfold Runs
  rw [run_step 48 hr (t := goto (callWr s.cfg.aBitFraming s.cfg.bfShort) (.reqp m .s1 :: K) s) rfl,
    run_callWr _ _ hc hr 44 (t := s1) rfl,
    run_step 43 (by exact hr) (t := goto (callSetb s.cfg.aFifoLevel s.cfg.flushMask) (.reqp m .s2 :: K) s1) rfl,
    run_callSetb K _ _ rfl (by exact hr) 33 (t := s2) rfl,
    run_step 32 (by exact hr) (t := goto (callWr s.cfg.aFifoData (m.data s)) (.reqp m .s3 :: K) s2) (by rw [← hd]; cases m <;> rfl),
    run_callWr _ _ rfl (by exact hr) 28 (t := s3) rfl,
    run_step 27 (by exact hr) (t := goto (callWr s.cfg.aCommand s.cfg.cmdTransceive) (.reqp m .s4 :: K) s3) rfl,
    run_callWr _ _ rfl (by exact hr) 23 (t := s4) rfl,
    run_step 22 (by exact hr) (t := goto (callSetb s.cfg.aBitFraming s.cfg.startSendMask) (.reqp m .s5 :: K) s4) rfl,
    run_callSetb K _ _ rfl (by exact hr) 12 (t := s5) rfl,
    run_step 11 (by exact hr) (t := goto (.reqp m .s7) K s6)
      (by simp only [advance, stepReqp]; rw [delay_eq _ rfl]; rfl),
    run_step 10 (by exact hr) (t := goto (callClrb s.cfg.aBitFraming s.cfg.startSendMask) (.reqp m .s7 :: K) s6) rfl,
    show (10 : Nat) = 10 + 0 from rfl,
    run_callClrb K _ _ rfl (by exact hr) 0 (t := Body.clrb (Body.reg s.cfg.aBitFraming) s.cfg.startSendMask s6) rfl]
  rfl

/-- REQP. -/
theorem run_reqp (m : Operand) (hc : s.cs = .high) (hr : s.resetIn = []) :
    ∃ k, runSteps k (goto (.reqp m .s1) K s) = ret K (.reqp m .s15) .nothing (Body.reqp (m.data s) s) := by
  let s1 := Body.reqpStart (m.data s) s
  obtain ⟨k, hk⟩ := run_irqPoll K m 24 (s := s1) rfl (by exact hr) rfl
  let s2 := Body.irqPoll 25 s1
  have hf := Body.irqPoll_frame 25 (s := s1) rfl
  have hr2 : s2.resetIn = [] := hf.2.1.trans hr
  have h8 : Runs 1 (goto (.reqp m .s8) K (Body.reqpSend (m.data s) s)) (goto (.reqp m .s9) K s1) := by
    apply Runs.one; rw [step_goto _ _ (by exact hr)]; rfl
  refine ⟨49 + (1 + (k + 6)), ?_⟩
  rw [run_add _ (run_reqpSend K m hc hr), run_add _ h8, run_add _ hk,
    run_step 5 hr2 (t := goto (callRd s2.cfg.aFifoLevel) (.reqp m .s14 :: K) s2) rfl,
    run_callRd _ hf.1 hr2 1 (t := Body.readLevel s2) rfl, run_one, step_goto _ _ (by exact hr2)]
  exact ret_goto K _ _ _ _ (Body.judge (Body.readLevel s2))

theorem Body.reqp_frame (m : Byte) (s : State) :
    (Body.reqp m s).cs = .high ∧ (Body.reqp m s).resetIn = s.resetIn ∧ (Body.reqp m s).cmds = s.cmds :=
  have hf := Body.irqPoll_frame 25 (s := Body.reqpStart m s) rfl
  ⟨rfl, hf.2⟩

/-- The drain. -/
theorem run_drain (hc : s.cs = .high) (hr : s.resetIn = []) :
    runSteps 25 (goto (.drain .d1) K s) = ret K (.drain .d5) .nothing (Body.drain s) := by
  let s1 := Body.drainRead (fun r b => { b with b0 := r }) s
  let s2 := Body.drainRead (fun r b => { b with b1 := r }) s1
  let s3 := Body.drainRead (fun r b => { b with b2 := r }) s2
  let s4 := Body.drainRead (fun r b => { b with b3 := r }) s3
  rw [run_step 24 hr (t := goto (callRd s.cfg.aFifoData) (.drain .d1 :: K) s) rfl,
    run_callRd _ hc hr 20 (t := s1) rfl,
    run_step 19 (by exact hr) (t := goto (callRd s1.cfg.aFifoData) (.drain .d2 :: K) s1) rfl,
    run_callRd _ rfl (by exact hr) 15 (t := s2) rfl,
    run_step 14 (by exact hr) (t := goto (callRd s2.cfg.aFifoData) (.drain .d3 :: K) s2) rfl,
    run_callRd _ rfl (by exact hr) 10 (t := s3) rfl,
    run_step 9 (by exact hr) (t := goto (callRd s3.cfg.aFifoData) (.drain .d4 :: K) s3) rfl,
    run_callRd _ rfl (by exact hr) 5 (t := s4) rfl,
    run_step 4 (by exact hr) (t := goto (callRd s4.cfg.aFifoData) (.drain .d5 :: K) s4) rfl,
    show callRd s4.cfg.aFifoData = .rdreg (.ofReg s4.cfg.aFifoData) .param .s1 from rfl,
    run_rd _ _ .param rfl (by exact hr)]
  rfl

/-- ANTICOLL. -/
theorem run_anticoll (hc : s.cs = .high) (hr : s.resetIn = []) :
    ∃ k l, runSteps k (goto (.anticoll .s1) K s) =
      ret K (.anticoll l) (.anticoll (Body.anticoll s).1) (Body.anticoll s).2 := by
  let s1 := Body.setb (Body.reg s.cfg.aFifoLevel) s.cfg.flushMask s
  let s2 := Body.wburst2 (Body.reg s.cfg.aFifoData) 0x93 0x20 s1
  let s3 := Body.wrReg s.cfg.aCommand s.cfg.cmdTransceive s2
  let s4 := Body.setb (Body.reg s.cfg.aBitFraming) s.cfg.startSendMask s3
  let s5 := Body.wait 10 s4
  let s6 := Body.clrb (Body.reg s.cfg.aBitFraming) s.cfg.startSendMask s5
  let s7 := Body.readLevel s6
  have h8 : Runs 50 (goto (.anticoll .s1) K s) (goto (.anticoll .s8) K s7) := by
    unfold Runs
    rw [run_step 49 hr (t := goto (callSetb s.cfg.aFifoLevel s.cfg.flushMask) (.anticoll .s1 :: K) s) rfl,
      run_callSetb K _ _ hc hr 39 (t := s1) rfl,
      run_step 38 (by exact hr) (t := goto (callWburst2 s.cfg.aFifoData 0x93 0x20) (.anticoll .s2 :: K) s1) rfl,
      run_callWburst2 K _ _ _ rfl (by exact hr) 33 (t := s2) rfl,
      run_step 32 (by exact hr) (t := goto (callWr s.cfg.aCommand s.cfg.cmdTransceive) (.anticoll .s3 :: K) s2) rfl,
      run_callWr _ _ rfl (by exact hr) 28 (t := s3) rfl,
      run_step 27 (by exact hr) (t := goto (callSetb s.cfg.aBitFraming s.cfg.startSendMask) (.anticoll .s4 :: K) s3) rfl,
      run_callSetb K _ _ rfl (by exact hr) 17 (t := s4) rfl,
      run_step 16 (by exact hr) (t := goto (.anticoll .s6) K s5)
        (by simp only [advance, stepAnticoll]; rw [delay_eq _ rfl]; rfl),
      run_step 15 (by exact hr) (t := goto (callClrb s.cfg.aBitFraming s.cfg.startSendMask) (.anticoll .s6 :: K) s5) rfl,
      run_callClrb K _ _ rfl (by exact hr) 5 (t := s6) rfl,
      run_step 4 (by exact hr) (t := goto (callRd s.cfg.aFifoLevel) (.anticoll .s7 :: K) s6) rfl,
      show (4 : Nat) = 4 + 0 from rfl,
      run_callRd _ rfl (by exact hr) 0 (t := s7) rfl]
    rfl
  have e : Body.anticollSend s = s7 := rfl
  by_cases h : uidReady s7.lvl = true
  · let s9 := Body.drain s7
    have h' : s7.lvl = 5 := by simpa [uidReady, Const.uidFrameLen] using h
    refine ⟨50 + 29, .s11 (formatUid s9.buf), ?_⟩
    have h9 : runSteps 25 (goto (.drain .d1) (.anticoll .s9 :: K) s7) = .next (goto (.anticoll .s10) K s9) := by
      rw [run_drain _ rfl (by exact hr)]; rfl
    rw [run_add _ h8,
      run_step 28 (by exact hr) (t := goto (.anticoll .s9) K s7)
        (by show (if uidReady s7.lvl then _ else _) = _
            rw [if_pos h]; rfl),
      run_step 27 (by exact hr) (t := goto (.drain .d1) (.anticoll .s9 :: K) s7) rfl,
      run_goes 2 h9,
      run_step 1 (by exact hr) (t := goto (.anticoll (.s11 (formatUid s9.buf))) K s9) rfl,
      run_one, step_goto _ _ (by exact hr)]
    show ret K _ (.anticoll (.uid s9.buf (formatUid s9.buf))) (goto _ K s9) = _
    rw [ret_goto]
    simp only [Body.anticoll, e, h', if_true]
    rfl
  · have h' : ¬ (s7.lvl = 5) := by simpa [uidReady, Const.uidFrameLen] using h
    refine ⟨50 + 1, .s8, ?_⟩
    rw [run_add _ h8, run_one, step_goto _ _ (by exact hr)]
    show (if uidReady s7.lvl then _ else _) = _
    rw [if_neg h, ret_goto]
    simp only [Body.anticoll, e, h', if_false]

/-- How INIT ends: it returns, or its RESET raises UNRESPONSIVE. -/
def initEnd (K : List Frame) (x : Bool × State) : Outcome :=
  if x.1 then ret K (.init .s10) .nothing x.2
  else .next (raise (outermost (.init .s1) K).commandOp .unresponsive x.2)

/-- INIT S5 to S9. -/
theorem run_initWrites (hc : s.cs = .high) (hr : s.resetIn = []) :
    Runs 25 (goto (.init .s5) K s) (goto (.init .s10) K (Body.initWrites s)) := by
  let w := s.cfg.initWrites
  let s1 := Body.wrReg w.w1.addr w.w1.value s
  let s2 := Body.wrReg w.w2.addr w.w2.value s1
  let s3 := Body.wrReg w.w3.addr w.w3.value s2
  let s4 := Body.wrReg w.w4.addr w.w4.value s3
  let s5 := Body.wrReg w.w5.addr w.w5.value s4
  unfold Runs
  rw [run_step 24 hr (t := goto (callWr w.w1.addr w.w1.value) (.init .s5 :: K) s) rfl,
    run_callWr _ _ hc hr 20 (t := s1) rfl,
    run_step 19 (by exact hr) (t := goto (callWr w.w2.addr w.w2.value) (.init .s6 :: K) s1) rfl,
    run_callWr _ _ rfl (by exact hr) 15 (t := s2) rfl,
    run_step 14 (by exact hr) (t := goto (callWr w.w3.addr w.w3.value) (.init .s7 :: K) s2) rfl,
    run_callWr _ _ rfl (by exact hr) 10 (t := s3) rfl,
    run_step 9 (by exact hr) (t := goto (callWr w.w4.addr w.w4.value) (.init .s8 :: K) s3) rfl,
    run_callWr _ _ rfl (by exact hr) 5 (t := s4) rfl,
    run_step 4 (by exact hr) (t := goto (callWr w.w5.addr w.w5.value) (.init .s9 :: K) s4) rfl,
    show (4 : Nat) = 4 + 0 from rfl,
    run_callWr _ _ rfl (by exact hr) 0 (t := s5) rfl]
  rfl

/-- INIT S1 to S4. -/
theorem run_initLines (hr : s.resetIn = []) :
    Runs 4 (goto (.init .s1) K s) (goto (.reset .s1) (.init .s4 :: K) (rsth (csh s))) := by
  unfold Runs
  rw [run_step 3 hr (t := goto (.init .s2) K s) rfl,
    run_step 2 hr (t := goto (.init .s3) K (csh s)) rfl,
    run_step 1 (by exact hr) (t := goto (.init .s4) K (rsth (csh s))) rfl,
    run_one, step_goto _ _ (by exact hr)]
  rfl

/-- INIT, from what its RESET does. -/
theorem run_init_of {n : Nat} (hr : s.resetIn = [])
    (hreset : ∃ k, runSteps k (goto (.reset .s1) (.init .s4 :: K) (rsth (csh s))) =
      resetEnd (.init .s4 :: K) (Body.reset n (rsth (csh s)))) :
    ∃ k, runSteps k (goto (.init .s1) K s) = initEnd K (Body.init n s) := by
  let s1 := rsth (csh s)
  obtain ⟨k, hk⟩ := hreset
  have h4 : Runs 4 (goto (.init .s1) K s) (goto (.reset .s1) (.init .s4 :: K) s1) := run_initLines K hr
  by_cases h : (Body.reset n s1).1 = true
  · let s2 := (Body.reset n s1).2
    have hc2 : s2.cs = .high := (Body.reset_frame n s1).1
    have hr2 : s2.resetIn = [] := (Body.reset_frame n s1).2.1.trans hr
    obtain ⟨k2, l, hk2⟩ := run_anton (.init .s10 :: K) (s := Body.initWrites s2) rfl (by exact hr2)
    have hk' : Runs k (goto (.reset .s1) (.init .s4 :: K) s1) (goto (.init .s5) K s2) := by
      unfold Runs; rw [hk]; unfold resetEnd; rw [if_pos h]; rfl
    have h1 : Runs 1 (goto (.init .s10) K (Body.initWrites s2))
        (goto (.anton .s1) (.init .s10 :: K) (Body.initWrites s2)) := by
      apply Runs.one; rw [step_goto _ _ (by exact hr2)]; rfl
    refine ⟨4 + (k + (25 + (1 + k2))), ?_⟩
    rw [run_add _ h4, run_add _ hk', run_add _ (run_initWrites K hc2 hr2), run_add _ h1, hk2]
    have hb : Body.init n s = (true, Body.anton (Body.initWrites s2)) := by
      show (if (Body.reset n s1).1 then _ else _) = _
      rw [if_pos h]
    rw [hb]; rfl
  · refine ⟨4 + k, ?_⟩
    rw [run_add _ h4, hk]
    have hb : Body.init n s = (false, (Body.reset n s1).2) := by
      show (if (Body.reset n s1).1 then _ else _) = _
      rw [if_neg h]
    rw [hb]
    unfold resetEnd initEnd
    rw [if_neg h, show (outermost (.reset .s1) (.init .s4 :: K)).commandOp = (outermost (.init .s1) K).commandOp from
      outermost_commandOp (.init .s4) (.init .s1) rfl K]
    rfl

/-- INIT with a numeric bound. -/
theorem run_init {n : Nat} (hr : s.resetIn = []) (hm : s.cfg.resetPollMax = some (n + 1)) :
    ∃ k, runSteps k (goto (.init .s1) K s) = initEnd K (Body.init (n + 1) s) :=
  run_init_of K hr (run_reset (.init .s4 :: K) rfl (by exact hr) (by exact hm))

end

end Sys2Proof.Machine
end

