-- ==== Sys2Proof/Laws/PerInstr.lean ====
section
/-! SUPPORT. One lemma per instruction: the fixed bits of its encoding are those of its row in spec/opcode_table.json (30_encoding.md R92, R93, R94, R105). -/

namespace Sys2Proof.Laws.FixedBits

/-- The encoding has this length, and its bits under the mask are the pattern's; bit 0 is the last bit
of the last byte, as the rows write them. -/
def Fits (bits mask pattern : Nat) : Encoded → Prop
  | .command w => bits = 20 ∧ w &&& BitVec.ofNat 20 mask = BitVec.ofNat 20 pattern
  | .bracket [t, v] => bits = 16 ∧ (t ++ v : BitVec 16) &&& BitVec.ofNat 16 mask = BitVec.ofNat 16 pattern
  | .bracket [t, v, w] =>
    bits = 24 ∧ (t ++ v ++ w : BitVec 24) &&& BitVec.ofNat 24 mask = BitVec.ofNat 24 pattern
  | .bracket _ => False

/-- The row of each instruction: its length, its mask, its fixed bits. -/
def Statement (i : Instr) : Prop :=
  match i with
  | .wrreg _ _ => Fits 20 0xF0000 0x10000 (encode i)
  | .rdreg _ _ => Fits 20 0xF0000 0x20000 (encode i)
  | .setbits _ _ => Fits 20 0xF0000 0x30000 (encode i)
  | .clrbits _ _ => Fits 20 0xF0000 0x40000 (encode i)
  | .reset _ _ => Fits 20 0xF0000 0x50000 (encode i)
  | .anton _ _ => Fits 20 0xF0000 0x60000 (encode i)
  | .antoff _ _ => Fits 20 0xF0000 0x70000 (encode i)
  | .init _ _ => Fits 20 0xF0000 0x80000 (encode i)
  | .reqp _ _ => Fits 20 0xF0000 0x90000 (encode i)
  | .anticoll _ _ => Fits 20 0xF0000 0xA0000 (encode i)
  | .getuid _ _ => Fits 20 0xF0000 0xB0000 (encode i)
  | .reserved0 _ _ => Fits 20 0xF0000 0x00000 (encode i)
  | .reservedC _ _ => Fits 20 0xF0000 0xC0000 (encode i)
  | .reservedD _ _ => Fits 20 0xF0000 0xD0000 (encode i)
  | .reservedE _ _ => Fits 20 0xF0000 0xE0000 (encode i)
  | .reservedF _ _ => Fits 20 0xF0000 0xF0000 (encode i)
  | .wframe _ _ => Fits 16 0x8100 0x0000 (encode i)
  | .rframe _ _ => Fits 16 0x8100 0x8000 (encode i)
  | .wburst2 _ _ _ => Fits 24 0x810000 0x000000 (encode i)

theorem commandWord_and (op : OpCode) (a d : Byte) :
    commandWord op a d &&& BitVec.ofNat 20 0xF0000 = op ++ (0 : BitVec 16) := by
  apply BitVec.eq_of_getLsbD_eq
  intro i hi
  simp only [commandWord, BitVec.getLsbD_and, BitVec.getLsbD_append, BitVec.getLsbD_ofNat]
  interval_cases i <;> simp (decide := true)

theorem wframeByte_and (a : RegAddr) : wframeByte a.toNat &&& 0x81 = 0x00 := by revert a; decide

theorem rframeByte_and (a : RegAddr) : rframeByte a.toNat &&& 0x81 = 0x80 := by revert a; decide

theorem two_and (t v : Byte) : (t ++ v : BitVec 16) &&& BitVec.ofNat 16 0x8100 = (t &&& 0x81) ++ (0 : Byte) := by
  apply BitVec.eq_of_getLsbD_eq
  intro i hi
  simp only [BitVec.getLsbD_and, BitVec.getLsbD_append, BitVec.getLsbD_ofNat]
  interval_cases i <;> simp (decide := true)

theorem three_and (t v w : Byte) :
    (t ++ v ++ w : BitVec 24) &&& BitVec.ofNat 24 0x810000 = (t &&& 0x81) ++ (0 : BitVec 16) := by
  apply BitVec.eq_of_getLsbD_eq
  intro i hi
  simp only [BitVec.getLsbD_and, BitVec.getLsbD_append, BitVec.getLsbD_ofNat]
  interval_cases i <;> simp (decide := true)

theorem wrreg (a d : Byte) : Statement (.wrreg a d) := ⟨rfl, commandWord_and 0x1 a d⟩
theorem rdreg (a d : Byte) : Statement (.rdreg a d) := ⟨rfl, commandWord_and 0x2 a d⟩
theorem setbits (a d : Byte) : Statement (.setbits a d) := ⟨rfl, commandWord_and 0x3 a d⟩
theorem clrbits (a d : Byte) : Statement (.clrbits a d) := ⟨rfl, commandWord_and 0x4 a d⟩
theorem reset (a d : Byte) : Statement (.reset a d) := ⟨rfl, commandWord_and 0x5 a d⟩
theorem anton (a d : Byte) : Statement (.anton a d) := ⟨rfl, commandWord_and 0x6 a d⟩
theorem antoff (a d : Byte) : Statement (.antoff a d) := ⟨rfl, commandWord_and 0x7 a d⟩
theorem init (a d : Byte) : Statement (.init a d) := ⟨rfl, commandWord_and 0x8 a d⟩
theorem reqp (a d : Byte) : Statement (.reqp a d) := ⟨rfl, commandWord_and 0x9 a d⟩
theorem anticoll (a d : Byte) : Statement (.anticoll a d) := ⟨rfl, commandWord_and 0xA a d⟩
theorem getuid (a d : Byte) : Statement (.getuid a d) := ⟨rfl, commandWord_and 0xB a d⟩
theorem reserved0 (a d : Byte) : Statement (.reserved0 a d) := ⟨rfl, commandWord_and 0x0 a d⟩
theorem reservedC (a d : Byte) : Statement (.reservedC a d) := ⟨rfl, commandWord_and 0xC a d⟩
theorem reservedD (a d : Byte) : Statement (.reservedD a d) := ⟨rfl, commandWord_and 0xD a d⟩
theorem reservedE (a d : Byte) : Statement (.reservedE a d) := ⟨rfl, commandWord_and 0xE a d⟩
theorem reservedF (a d : Byte) : Statement (.reservedF a d) := ⟨rfl, commandWord_and 0xF a d⟩
theorem wframe (a : RegAddr) (v : Byte) : Statement (.wframe a v) :=
  ⟨rfl, (two_and _ v).trans (by rw [wframeByte_and]; rfl)⟩
theorem rframe (a : RegAddr) (f : Byte) : Statement (.rframe a f) :=
  ⟨rfl, (two_and _ f).trans (by rw [rframeByte_and]; rfl)⟩
theorem wburst2 (a : RegAddr) (v w : Byte) : Statement (.wburst2 a v w) :=
  ⟨rfl, (three_and _ v w).trans (by rw [wframeByte_and]; rfl)⟩

end Sys2Proof.Laws.FixedBits
end

