-- ==== Sys2Proof/Laws/Step.lean ====
section
/-! SUPPORT. Everything a step can do, said once: an inversion lemma for the return, for the sequencer, for acceptance and for the step, and what follows for runs. -/

namespace Sys2Proof.Machine

/-! ## The sequencer -/

/-- Two states that differ at most in position, latches and flags. -/
structure Silent (s t : State) : Prop where
  cs : t.cs = s.cs
  rst : t.rst = s.rst
  aLat : t.aLat = s.aLat
  dLat : t.dLat = s.dLat
  history : t.history = s.history
  env : t.env = s.env
  cfg : t.cfg = s.cfg
  cmds : t.cmds = s.cmds
  resetIn : t.resetIn = s.resetIn

theorem Silent.refl (s) : Silent s s := ⟨rfl, rfl, rfl, rfl, rfl, rfl, rfl, rfl, rfl⟩
theorem Silent.trans {s t u} (h : Silent s t) (h' : Silent t u) : Silent s u :=
  ⟨h'.cs.trans h.cs, h'.rst.trans h.rst, h'.aLat.trans h.aLat, h'.dLat.trans h.dLat, h'.history.trans h.history,
   h'.env.trans h.env, h'.cfg.trans h.cfg, h'.cmds.trans h.cmds, h'.resetIn.trans h.resetIn⟩

/-- What one primitive, or none, makes of a state (00_scope.md R12). -/
inductive Prim (s : State) : State → Prop
  | none : Prim s s
  | select : s.cs = .high → Prim s (Body.select s)
  | send (tx) : s.cs = .low → Prim s (Body.send tx s)
  | csh : Prim s (csh s)
  | wait (n) : s.cs = .high → Prim s (Body.wait n s)
  | rsth : Prim s (rsth s)

/-- How a step leaves the position: at a frame, or Idle with or without a response. -/
def Ends (s2 t : State) : Prop :=
  (∃ g K', t = goto g K' s2) ∨ (∃ resp, t = respond resp s2) ∨ t = { s2 with run := .idle }

theorem afterCall_goes {c r s g s'} (h : afterCall c r s = some (.goesOn g s')) : Silent s s' := by
  unfold afterCall at h
  split at h <;> simp only [Option.some.injEq, Resume.goesOn.injEq, reduceCtorEq] at h <;>
   (obtain ⟨_, rfl⟩ := h; exact ⟨rfl, rfl, rfl, rfl, rfl, rfl, rfl, rfl, rfl⟩)
theorem afterCall_ends {c r s s'} (h : afterCall c r s = some (.ends s')) : Silent s s' := by
  unfold afterCall at h
  split at h <;> simp only [Option.some.injEq, Resume.ends.injEq, reduceCtorEq] at h <;>
   (subst h; exact ⟨rfl, rfl, rfl, rfl, rfl, rfl, rfl, rfl, rfl⟩)

/-- Everything a return can do. -/
theorem ret_cases : ∀ K {f r s t}, ret K f r s = .next t → ∃ s2, Silent s s2 ∧ Ends s2 t := by
  intro K
  induction K with
  | nil =>
    intro f r s t h
    simp only [ret, Host.Outcome.next.injEq] at h
    subst h
    refine ⟨s, Silent.refl s, ?_⟩
    unfold complete
    split
    · exact .inr (.inl ⟨_, rfl⟩)
    · exact .inr (.inr rfl)
  | cons c K ih =>
    intro f r s t h
    simp only [ret] at h
    cases ha : afterCall c r s with
    | none => simp [ha] at h
    | some x =>
      cases x with
      | goesOn g s' =>
        simp only [ha, Host.Outcome.next.injEq] at h
        exact ⟨s', afterCall_goes ha, .inl ⟨g, K, h.symm⟩⟩
      | ends s' =>
        simp only [ha] at h
        obtain ⟨s2, h1, h2⟩ := ih h
        exact ⟨s2, (afterCall_ends ha).trans h1, h2⟩

/-- What a step of a busy block leaves: a primitive, changes of latches and position; or an abnormal
completion. -/
def Advances (s t : State) : Prop :=
  (∃ s1 s2, Prim s s1 ∧ Silent s1 s2 ∧ Ends s2 t) ∨ (∃ op st, t = raise op st s)

theorem Advances.silentGoto {s s2 : State} (h : Silent s s2) (g K) : Advances s (goto g K s2) :=
  .inl ⟨s, s2, .none, h, .inl ⟨g, K, rfl⟩⟩
theorem Advances.ofRet {s s1 s2 : State} {K f r t} (hp : Prim s s1) (hs : Silent s1 s2) (h : ret K f r s2 = .next t) : Advances s t := by
  obtain ⟨s3, h1, h2⟩ := ret_cases K h
  exact .inl ⟨s1, s3, hp, hs.trans h1, h2⟩
theorem Advances.csl {s t g K} (h : andThen (csl s) (fun s => .next (goto g K s)) = .next t) : Advances s t := by
  obtain ⟨hc, h1⟩|⟨hc, h1⟩ := csl_cases s <;> rw [h1] at h <;> simp at h
  subst h; exact .inl ⟨_, _, .select hc, .refl _, .inl ⟨g, K, rfl⟩⟩
theorem transmit_cases (tx : Byte) (s : State) :
    (s.cs = .low ∧ transmit tx s = .ok (Body.send tx s)) ∨
      (s.cs = .high ∧ transmit tx s = .error .exchangeWhileDeselected) := by
  unfold transmit
  obtain ⟨hc, h1⟩|⟨hc, h1⟩ := exchange_cases tx s <;> rw [h1] <;> simp [hc]
theorem Advances.transmit {s t tx g K} (h : andThen (transmit tx s) (fun s => .next (goto g K s)) = .next t) : Advances s t := by
  obtain ⟨hc, h1⟩|⟨hc, h1⟩ := transmit_cases tx s <;> rw [h1] at h <;> simp at h
  subst h; exact .inl ⟨_, _, .send _ hc, .refl _, .inl ⟨g, K, rfl⟩⟩
theorem Advances.delay {s t n g K} (h : andThen (delay n s) (fun s => .next (goto g K s)) = .next t) : Advances s t := by
  obtain ⟨hc, h1⟩|⟨hc, h1⟩ := delay_cases n s <;> rw [h1] at h <;> simp at h
  subst h; exact .inl ⟨_, _, .wait _ hc, .refl _, .inl ⟨g, K, rfl⟩⟩

/-- Everything a step of a busy block can do. -/
theorem advance_cases {f K s t} (h : advance f K s = .next t) : Advances s t := by
  have S : ∀ s' : State, (Silent s s') → ∀ g K, Host.Outcome.next (φ := Fault) (ρ := Refusal) (goto g K s') = .next t → Advances s t := by
    intro s' hs g K h; cases h; exact Advances.silentGoto hs g K
  have C : ∀ g f K, Host.Outcome.next (φ := Fault) (ρ := Refusal) (call g f K s) = .next t → Advances s t := by
    intro g f K h; cases h; exact Advances.silentGoto (.refl s) g (f :: K)
  have R : ∀ s' : State, (Silent s s') → ∀ {K f r}, ret K f r s' = .next t → Advances s t := fun s' hs _ _ _ h => Advances.ofRet .none hs h
  have SS : ∀ s' : State, s'.cs = s.cs → s'.rst = s.rst → s'.aLat = s.aLat → s'.dLat = s.dLat → s'.history = s.history → s'.env = s.env → s'.cfg = s.cfg → s'.cmds = s.cmds → s'.resetIn = s.resetIn → Silent s s' := fun _ a b c d e f g h i => ⟨a,b,c,d,e,f,g,h,i⟩
  cases f with
  | wrreg a v l => cases l with
    | s1 => exact Advances.csl h
    | s2 => exact Advances.transmit h
    | s3 => exact Advances.transmit h
    | s4 => exact Advances.ofRet .csh (.refl _) h
  | wburst2 a v w l => cases l with
    | s1 => exact Advances.csl h
    | s2 => exact Advances.transmit h
    | s3 => exact Advances.transmit h
    | s4 => exact Advances.transmit h
    | s5 => exact Advances.ofRet .csh (.refl _) h
  | rdreg a v l => cases l with
    | s1 => exact Advances.csl h
    | s2 => exact Advances.transmit h
    | s3 =>
      simp only [advance, stepRdreg] at h
      obtain ⟨hc, h1⟩|⟨hc, h1⟩ := exchange_cases (v.byte s) s <;> rw [h1] at h <;> simp at h
      subst h; exact .inl ⟨_, _, .send _ hc, .refl _, .inl ⟨_, K, rfl⟩⟩
    | s4 => exact Advances.ofRet .csh (.refl _) h
  | setbits a m l => cases l <;> exact C _ _ _ h
  | clrbits a m l => cases l <;> exact C _ _ _ h
  | reset l => cases l with
    | s1 => exact C _ _ _ h
    | s2 => exact Advances.delay h
    | s3 => cases h; refine Advances.silentGoto ?_ _ _; exact ⟨rfl, rfl, rfl, rfl, rfl, rfl, rfl, rfl, rfl⟩
    | s4 => exact C _ _ _ h
    | s5 =>
      simp only [advance, stepReset] at h; split at h
      · exact R s (.refl s) h
      · exact S _ (.refl s) _ _ h
    | s6 => exact Advances.delay h
    | s7 => cases h; refine Advances.silentGoto ?_ _ _; exact ⟨rfl, rfl, rfl, rfl, rfl, rfl, rfl, rfl, rfl⟩
    | s8 =>
      simp only [advance, stepReset] at h; split at h
      · cases h; exact .inr ⟨_, _, rfl⟩
      · exact S _ (.refl s) _ _ h
    | s9 => exact S _ (.refl s) _ _ h
  | anton l => cases l with
    | s1 => exact C _ _ _ h
    | s2 =>
      simp only [advance, stepAnton] at h; split at h
      · exact R s (.refl s) h
      · exact S _ (.refl s) _ _ h
    | s3 => exact C _ _ _ h
  | antoff l => cases l; exact C _ _ _ h
  | init l => cases l with
    | s1 => exact S _ (.refl s) _ _ h
    | s2 => cases h; exact .inl ⟨_, _, .csh, .refl _, .inl ⟨_, K, rfl⟩⟩
    | s3 => cases h; exact .inl ⟨_, _, .rsth, .refl _, .inl ⟨_, K, rfl⟩⟩
    | _ => exact C _ _ _ h
  | reqp m l => cases l with
    | s6 => exact Advances.delay h
    | s8 => cases h; refine Advances.silentGoto ?_ _ _; exact ⟨rfl, rfl, rfl, rfl, rfl, rfl, rfl, rfl, rfl⟩
    | s10 => simp only [advance, stepReqp] at h; split at h <;> exact S _ (.refl s) _ _ h
    | s11 => exact Advances.delay h
    | s12 => cases h; refine Advances.silentGoto ?_ _ _; exact ⟨rfl, rfl, rfl, rfl, rfl, rfl, rfl, rfl, rfl⟩
    | s13 =>
      simp only [advance, stepReqp] at h; split at h
      · exact S _ (.refl s) _ _ h
      · cases h; refine Advances.silentGoto ?_ _ _; exact ⟨rfl, rfl, rfl, rfl, rfl, rfl, rfl, rfl, rfl⟩
    | s15 => exact R { s with presence := presenceOf s.lvl } (SS _ rfl rfl rfl rfl rfl rfl rfl rfl rfl) h
    | _ => exact C _ _ _ h
  | anticoll l => cases l with
    | s5 => exact Advances.delay h
    | s8 =>
      simp only [advance, stepAnticoll] at h; split at h
      · exact S _ (.refl s) _ _ h
      · exact R s (.refl s) h
    | s10 => exact S _ (.refl s) _ _ h
    | s11 u => exact R s (.refl s) h
    | _ => exact C _ _ _ h
  | drain l => exact C _ _ _ h
  | getuid l => cases l with
    | s2 =>
      simp only [advance, stepGetuid] at h; split at h
      · exact S _ (.refl s) _ _ h
      · exact R s (.refl s) h
    | s4 u => exact R s (.refl s) h
    | _ => exact C _ _ _ h

/-! ## Acceptance and completion -/

theorem beginCommand_idle {s : State} (h : s.run = .idle) (op : OpCode) (a d : Byte) (f : Frame) :
    beginCommand op a d f s = .next (goto f [] (accepted op a d s)) := by
  unfold beginCommand whenIdle; rw [h]; rfl

theorem beginReserved_idle {s : State} (h : s.run = .idle) (op : OpCode) (a d : Byte) :
    beginReserved op a d s = .next (acceptReserved op a d s) := by
  unfold beginReserved whenIdle; rw [h]

theorem beginFrame_ready {s : State} (h : s.Ready) (f : Frame) :
    beginFrame f s = advance f [] s := by
  unfold beginFrame whenIdle; rw [h.1]

/-- A command has completed when the run of its outermost frame has. -/
theorem completes_cmd {i : Instr} {op : OpCode} {a d : Byte} {f : Frame} {s t : State} (h : s.Ready)
    (he : exec i s = beginCommand op a d f s)
    (hr : ∃ k, runSteps k (goto f [] (accepted op a d s)) = .next t) (hi : t.run = .idle) (hc : t.cmds = s.cmds)
    {t' : State} (ht : t = t') : Completes i s t' := by
  subst ht; obtain ⟨k, hr⟩ := hr
  exact ⟨k, _, by rw [he, beginCommand_idle h.1], hr, hi, hc⟩

/-- Everything an idle block can do with a command word. -/
theorem exec_decodeCommand_idle {s : State} (w : CmdWord) (h : s.run = .idle) :
    (∃ op a d f, f.commandOp = some op ∧ f.start = f ∧ f.isRoot = true ∧
      exec (decodeCommand w) s = .next (goto f [] (accepted op a d s))) ∨
    (∃ op a d, op ∈ ([0x0, 0xC, 0xD, 0xE, 0xF] : List OpCode) ∧
      exec (decodeCommand w) s = .next (acceptReserved op a d s)) := by
  unfold decodeCommand commandOf
  split
  · exact .inl ⟨_, _, _, .wrreg .latched .latched .s1, rfl, rfl, rfl, beginCommand_idle h _ _ _ _⟩
  · exact .inl ⟨_, _, _, .rdreg .latched .param .s1, rfl, rfl, rfl, beginCommand_idle h _ _ _ _⟩
  · exact .inl ⟨_, _, _, .setbits .latched .latched .s1, rfl, rfl, rfl, beginCommand_idle h _ _ _ _⟩
  · exact .inl ⟨_, _, _, .clrbits .latched .latched .s1, rfl, rfl, rfl, beginCommand_idle h _ _ _ _⟩
  · exact .inl ⟨_, _, _, .reset .s1, rfl, rfl, rfl, beginCommand_idle h _ _ _ _⟩
  · exact .inl ⟨_, _, _, .anton .s1, rfl, rfl, rfl, beginCommand_idle h _ _ _ _⟩
  · exact .inl ⟨_, _, _, .antoff .s1, rfl, rfl, rfl, beginCommand_idle h _ _ _ _⟩
  · exact .inl ⟨_, _, _, .init .s1, rfl, rfl, rfl, beginCommand_idle h _ _ _ _⟩
  · exact .inl ⟨_, _, _, .reqp .latched .s1, rfl, rfl, rfl, beginCommand_idle h _ _ _ _⟩
  · exact .inl ⟨_, _, _, .anticoll .s1, rfl, rfl, rfl, beginCommand_idle h _ _ _ _⟩
  · exact .inl ⟨_, _, _, .getuid .s1, rfl, rfl, rfl, beginCommand_idle h _ _ _ _⟩
  all_goals exact .inr ⟨_, _, _, by decide, beginReserved_idle h _ _ _⟩

/-! ## The step -/

theorem takeReset_eq (s : State) : takeReset s = (match s.resetIn with | [] => (false, s) | b :: bs => (b, {s with resetIn := bs})) := rfl

/-- Everything a step can do. -/
theorem step_cases {s t : State} (h : step s = .next t) :
   (∃ s', takeReset s = (true, s') ∧ t = hardReset s') ∨
   (∃ s', takeReset s = (false, s') ∧
      ((∃ f K, s'.run = .busy f K ∧ advance f K s' = .next t) ∨
       (s'.run = .idle ∧ s'.cmds = [] ∧ t = s') ∨
       (∃ w ws, s'.run = .idle ∧ s'.cmds = w :: ws ∧ exec (decodeCommand w) {s' with cmds := ws} = .next t))) := by
  unfold step at h
  cases hr : takeReset s with
  | mk b s' =>
    cases b with
    | true => simp only [hr, Host.Outcome.next.injEq] at h; exact .inl ⟨s', rfl, h.symm⟩
    | false =>
      simp only [hr] at h
      refine .inr ⟨s', rfl, ?_⟩
      unfold work at h
      cases hrun : s'.run with
      | busy f K => simp only [hrun] at h; exact .inl ⟨f, K, rfl, h⟩
      | idle =>
        simp only [hrun, fetch] at h
        cases hc : s'.cmds with
        | nil => simp only [hc, Host.Outcome.next.injEq] at h; exact .inr (.inl ⟨rfl, rfl, h.symm⟩)
        | cons w ws => simp only [hc] at h; exact .inr (.inr ⟨w, ws, rfl, rfl, h⟩)

theorem step_idle {s : State} (h1 : s.run = .idle) (h2 : s.resetIn = []) (h3 : s.cmds = []) : step s = .next s := by
  simp [step, takeReset, h2, work, h1, fetch, h3]

/-! ## Runs -/

theorem Runs.prefix {m : Nat} : ∀ {k : Nat} {s t : State}, Runs k s t → m ≤ k → ∃ u, Runs m s u ∧ Runs (k - m) u t := by
  induction m with
  | zero => intro k s t h _; exact ⟨s, rfl, h⟩
  | succ m ih =>
    intro k s t h hk
    obtain ⟨k, rfl⟩ : ∃ j, k = j + 1 := ⟨k - 1, by omega⟩
    unfold Runs at h; simp only [runSteps] at h
    cases hs : step s with
    | next v =>
      rw [hs] at h
      obtain ⟨u, h1, h2⟩ := ih h (by omega)
      exact ⟨u, by unfold Runs; rw [run_succ m hs]; exact h1, by rw [Nat.add_sub_add_right]; exact h2⟩
    | fault r => rw [hs] at h; cases h
    | refused r => rw [hs] at h; cases h

/-- An idle block with no command presented waits for ever. -/
theorem idle_fix {s : State} (h1 : s.run = .idle) (h2 : s.resetIn = []) (h3 : s.cmds = []) (k) : Runs k s s := by
  induction k with
  | zero => rfl
  | succ k ih => unfold Runs; rw [run_succ k (step_idle h1 h2 h3)]; exact ih

/-- What every step keeps or only extends while the reset input is inactive. -/
theorem step_monotone {s t : State} (hr0 : s.resetIn = []) (h : step s = .next t) :
   t.resetIn = [] ∧ (∃ es, t.history = s.history ++ es) ∧ t.cmds.length ≤ s.cmds.length ∧ (s.run ≠ .idle → t.cmds = s.cmds) ∧
   (s.run = .idle → s.cmds ≠ [] → t.cmds.length < s.cmds.length) := by
  have ht : takeReset s = (false, s) := by rw [takeReset_eq, hr0]
  rcases step_cases h with ⟨s', hs, rfl⟩|⟨s', hs, h⟩
  · rw [ht] at hs; cases hs
  · rw [ht] at hs; cases hs
    rcases h with ⟨f, K, hr, h⟩|⟨hr, hc, rfl⟩|⟨w, ws, hr, hc, h⟩
    · rcases advance_cases h with ⟨s1, s2, hp, hsil, he⟩|⟨op, st, rfl⟩
      · have h1 : s1.resetIn = [] ∧ (∃ es, s1.history = s.history ++ es) ∧ s1.cmds = s.cmds := by
          cases hp <;> first | exact ⟨hr0, ⟨_, rfl⟩, rfl⟩ | exact ⟨hr0, ⟨[], by simp⟩, rfl⟩
        rw [← hsil.resetIn, ← hsil.history, ← hsil.cmds] at h1
        obtain ⟨a, ⟨es, b⟩, c⟩ := h1
        rcases he with ⟨g, K', rfl⟩|⟨r, rfl⟩|rfl
        · exact ⟨a, ⟨es, b⟩, c ▸ le_refl _, fun _ => c, fun h => by simp [hr] at h⟩
        · exact ⟨a, ⟨es ++ [_], by show s2.history ++ _ = _; rw [b, List.append_assoc]⟩, c ▸ le_refl _, fun _ => c, fun h => by simp [hr] at h⟩
        · exact ⟨a, ⟨es, b⟩, c ▸ le_refl _, fun _ => c, fun h => by simp [hr] at h⟩
      · unfold raise; simp only
        split <;> split
        · exact ⟨hr0, ⟨_, List.append_assoc _ _ _⟩, le_refl _, fun _ => rfl, fun h => by simp [hr] at h⟩
        · exact ⟨hr0, ⟨_, rfl⟩, le_refl _, fun _ => rfl, fun h => by simp [hr] at h⟩
        · exact ⟨hr0, ⟨_, rfl⟩, le_refl _, fun _ => rfl, fun h => by simp [hr] at h⟩
        · exact ⟨hr0, ⟨[], by simp⟩, le_refl _, fun _ => rfl, fun h => by simp [hr] at h⟩
    · exact ⟨hr0, ⟨[], by simp⟩, le_refl _, fun _ => rfl, fun _ h => absurd hc h⟩
    · rcases exec_decodeCommand_idle (s := {s with cmds := ws}) w hr with ⟨op, a, d, f, _, _, _, e⟩|⟨op, a, d, _, e⟩ <;> rw [e] at h <;> cases h
      · exact ⟨hr0, ⟨_, rfl⟩, by simp [hc, accepted], fun h => absurd hr h, fun _ _ => by simp [hc, accepted]⟩
      · unfold acceptReserved raise; simp only
        split
        · exact ⟨hr0, ⟨_, by simp only [respond, csh, emit, latchCommand]; rw [List.append_assoc, List.append_assoc]⟩, by simp [hc, respond, csh, emit, latchCommand], fun h => absurd hr h, fun _ _ => by simp [hc, respond, csh, emit, latchCommand]⟩
        · exact ⟨hr0, ⟨_, by simp only [respond, latchCommand]; rw [List.append_assoc]⟩, by simp [hc, respond, latchCommand], fun h => absurd hr h, fun _ _ => by simp [hc, respond, latchCommand]⟩

theorem Runs.succ_inv {k : Nat} {s t : State} (h : Runs (k+1) s t) : ∃ u, step s = .next u ∧ Runs k u t := by
  unfold Runs at h; simp only [runSteps] at h
  cases hs : step s with
  | next v => rw [hs] at h; exact ⟨v, rfl, h⟩
  | fault r => rw [hs] at h; cases h
  | refused r => rw [hs] at h; cases h

/-- What every run keeps or only extends. -/
theorem run_monotone : ∀ {k : Nat} {s t : State}, s.resetIn = [] → Runs k s t →
   t.resetIn = [] ∧ (∃ es, t.history = s.history ++ es) ∧ t.cmds.length ≤ s.cmds.length := by
  intro k
  induction k with
  | zero => intro s t h1 h; cases h; exact ⟨h1, ⟨[], by simp⟩, le_refl _⟩
  | succ k ih =>
    intro s t h1 h
    obtain ⟨u, hs, hu⟩ := h.succ_inv
    obtain ⟨a, ⟨es, b⟩, c, _⟩ := step_monotone h1 hs
    obtain ⟨a', ⟨es', b'⟩, c'⟩ := ih a hu
    exact ⟨a', ⟨es ++ es', by rw [b', b, List.append_assoc]⟩, c'.trans c⟩

/-- An idle block that has taken no command has not moved. -/
theorem idle_run {k : Nat} {s t : State} (h1 : s.run = .idle) (h2 : s.resetIn = []) (h : Runs k s t) (hc : s.cmds.length ≤ t.cmds.length) : t = s := by
  cases k with
  | zero => cases h; rfl
  | succ k =>
    by_cases he : s.cmds = []
    · have := idle_fix h1 h2 he (k+1)
      unfold Runs at this h; rw [this] at h; cases h; rfl
    · obtain ⟨u, hs, hu⟩ := h.succ_inv
      obtain ⟨a, _, _, _, d⟩ := step_monotone h2 hs
      have := d h1 he
      have := (run_monotone a hu).2.2
      omega

theorem Runs.det {k} {s t u : State} (h : Runs k s t) (h' : Runs k s u) : t = u := by
  unfold Runs at h h'; rw [h] at h'; cases h'; rfl

end Sys2Proof.Machine
end

