-- ==== Sys2Proof/Tests/Slice0.lean ====
section
/-! SUPPORT. Small tests, each from the spec's own encodings, tables and vectors, and a witness for every statement with hypotheses. -/

namespace Sys2Proof.Tests

open Sys2Proof.Machine

/-! ## WellFormed -/

theorem test_readFill_other_refused : (Instr.rframe 0x09 0x01).wellFormed Config.default = false := by decide
theorem test_readFill_accepted : (Instr.rframe 0x09 0x00).wellFormed Config.default = true := by decide
theorem test_burst_other_address_refused :
    (Instr.wburst2 0x0A 0x93 0x20).wellFormed Config.default = false := by decide
theorem test_burst_other_first_byte_refused :
    (Instr.wburst2 0x09 0x95 0x20).wellFormed Config.default = false := by decide
theorem test_burst_other_second_byte_refused :
    (Instr.wburst2 0x09 0x93 0x70).wellFormed Config.default = false := by decide
theorem test_burst_accepted : (Instr.wburst2 0x09 0x93 0x20).wellFormed Config.default = true := by decide
theorem test_config_default_wellFormed : Config.default.wf = true := by decide
theorem test_config_same_address_refused :
    Config.wf { Config.default with aCommand := 0x04 } = false := by decide
theorem test_config_zero_polls_refused :
    Config.wf { Config.default with resetPollMax := some 0 } = false := by decide

/-! ## Decoding: words written out from 30_encoding.md R92 to R94, R99 to R101 -/

theorem test_decode_wrreg : decodeCommand 0b0001_00001001_01011010 = .wrreg 0x09 0x5A := by decide
theorem test_decode_rdreg : decodeCommand 0b0010_11001001_11111111 = .rdreg 0xC9 0xFF := by decide
theorem test_decode_setbits : decodeCommand 0b0011_00010100_00000011 = .setbits 0x14 0x03 := by decide
theorem test_decode_clrbits : decodeCommand 0b0100_00001101_10000000 = .clrbits 0x0D 0x80 := by decide
theorem test_decode_reset : decodeCommand 0b0101_10101011_11001101 = .reset 0xAB 0xCD := by decide
theorem test_decode_anton : decodeCommand 0b0110_00000000_00000000 = .anton 0 0 := by decide
theorem test_decode_antoff : decodeCommand 0b0111_00000000_00000000 = .antoff 0 0 := by decide
theorem test_decode_init : decodeCommand 0b1000_00000000_00000000 = .init 0 0 := by decide
theorem test_decode_reqp : decodeCommand 0b1001_00000000_00100110 = .reqp 0 0x26 := by decide
theorem test_decode_anticoll : decodeCommand 0b1010_00000000_00000000 = .anticoll 0 0 := by decide
theorem test_decode_getuid : decodeCommand 0b1011_00000000_00000000 = .getuid 0 0 := by decide
theorem test_decode_reserved0 : decodeCommand 0b0000_00000000_00000000 = .reserved0 0 0 := by decide
theorem test_decode_reservedC : decodeCommand 0b1100_00010010_00110100 = .reservedC 0x12 0x34 := by decide
theorem test_decode_reservedD : decodeCommand 0b1101_00000000_00000000 = .reservedD 0 0 := by decide
theorem test_decode_reservedE : decodeCommand 0b1110_00000000_11111111 = .reservedE 0 0xFF := by decide
theorem test_decode_reservedF : decodeCommand 0b1111_11111111_11111111 = .reservedF 0xFF 0xFF := by decide
/-- `0aaaaaa0 vvvvvvvv` with a = 001001. -/
theorem test_decode_wframe :
    decodeTableWord 16 0b00010010_01011010 = some (.wframe 0b001001 0b01011010) := by decide
/-- `1aaaaaa0 ffffffff` with a = 111111. -/
theorem test_decode_rframe :
    decodeTableWord 16 0b11111110_00000000 = some (.rframe 0b111111 0b00000000) := by decide
/-- `0aaaaaa0 vvvvvvvv wwwwwwww` with a = 001001. -/
theorem test_decode_wburst2 :
    decodeTableWord 24 0b00010010_10010011_00100000 = some (.wburst2 0b001001 0b10010011 0b00100000) := by decide
theorem test_decode_table_command : decodeTableWord 20 0xB0000 = some (.getuid 0 0) := by decide

theorem test_refuse_empty : decodeBracket [] = .error .bracketTooShort := rfl
theorem test_refuse_one_exchange : decodeBracket [0x12] = .error .bracketTooShort := rfl
theorem test_refuse_read_burst : decodeBracket [0x92, 0x00, 0x00] = .error .readBurst := rfl
theorem test_refuse_write_of_four : decodeBracket [0x12, 0x93, 0x20, 0x00] = .error .writeTooLong := rfl
theorem test_refuse_bit_zero : decodeBracket [0x13, 0x93] = .error .frameBitZeroSet := rfl

/-- The table of 30_encoding.md R91. -/
theorem test_frame_bytes :
    [0x01, 0x04, 0x09, 0x0A, 0x0D, 0x11, 0x14, 0x2A, 0x2B, 0x2C, 0x2D, 0x00, 0x3F, 0x49, 0xFF].map
      (fun a => (wframeByte a, rframeByte a)) =
    [(0x02, 0x82), (0x08, 0x88), (0x12, 0x92), (0x14, 0x94), (0x1A, 0x9A), (0x22, 0xA2), (0x28, 0xA8),
      (0x54, 0xD4), (0x56, 0xD6), (0x58, 0xD8), (0x5A, 0xDA), (0x00, 0x80), (0x7E, 0xFE), (0x12, 0x92),
      (0x7E, 0xFE)] := by decide

/-! ## Pure functions -/

/-- 44_fifo_drain_parse.md R200, first, fourth and sixth rows. -/
theorem test_format_matt : (formatUid ⟨0x04, 0xAA, 0xBB, 0xCC, 0xDD⟩).toList =
    [0x30, 0x34, 0x41, 0x41, 0x42, 0x42, 0x43, 0x43, 0x44, 0x44] := by decide
theorem test_format_zeros : (formatUid ⟨0x00, 0x0F, 0x10, 0x9A, 0xFF⟩).toList =
    [0x30, 0x30, 0x30, 0x46, 0x31, 0x30, 0x39, 0x41, 0x46, 0x46] := by decide
theorem test_format_letters : (formatUid ⟨0xAB, 0xCD, 0xEF, 0x0A, 0xB0⟩).toList =
    [0x41, 0x42, 0x43, 0x44, 0x45, 0x46, 0x30, 0x41, 0x42, 0x30] := by decide
/-- 95_test_vectors.md V64. -/
theorem test_status_codes : [Status.ok, .noCard, .timeout, .malformed, .unresponsive, .busFault, .illegalOp].map
    Status.code = [0, 1, 2, 3, 4, 5, 6] := by decide
/-- 95_test_vectors.md V33: only bit 4 counts. -/
theorem test_busy_bit_only : busyClear 0xFF = false ∧ busyClear 0xEF = true := by decide
/-- 95_test_vectors.md V49, V40: only bits 5 and 4 count. -/
theorem test_irq_bits_only : irqSeen 0xCF = false ∧ irqSeen 0x10 = true ∧ irqSeen 0x20 = true := by decide
/-- 95_test_vectors.md V41, V47: all eight bits of the length count. -/
theorem test_whole_length_byte : presenceOf 0x82 = false ∧ presenceOf 0x02 = true ∧ uidReady 0x85 = false := by decide
/-- 20_memory.md R72: the second data byte of a bracket overwrites the first. -/
theorem test_simple_burst_overwrites :
    ((((Env.simple []).csl.xfer 0x12).2.xfer 0x93).2.xfer 0x20).2 = .script [(0x09, 0x20)] [] (.data false 0x09) := by
  decide
/-- 20_memory.md R73: a queued byte is returned and removed, else the register. -/
theorem test_script_queue : (((Env.scripted [(0x0A, 0x80)] [(0x0A, ⟨[0x02], none⟩)]).csl.xfer 0x94).2.xfer 0).1 = 0x02 ∧
    (((Env.scripted [(0x0A, 0x80)] []).csl.xfer 0x94).2.xfer 0).1 = 0x80 := by decide
/-- 95_test_vectors.md V32: a queue "for ever" of one byte never runs out. -/
theorem test_endless_queue : (Env.scripted [] [(0x01, ⟨[], some 0x10⟩)]).csl.xfer 0x82 =
      (0x00, .script [] [(0x01, ⟨[], some 0x10⟩)] (.data true 0x01)) ∧
    (Env.script [] [(0x01, ⟨[], some 0x10⟩)] (.data true 0x01)).xfer 0x00 =
      (0x10, .script [] [(0x01, ⟨[], some 0x10⟩)] (.data true 0x01)) := by decide
/-- The canonical form refuses an empty queue and a listed byte the endless rest gives anyway. -/
theorem test_queue_form : Queues.wf [(0x01, ⟨[], none⟩)] = false ∧ Queues.wf [(0x01, ⟨[0x10], some 0x10⟩)] = false ∧
    Queues.wf [(0x01, ⟨[0x10], some 0x00⟩), (0x3F, ⟨[0x02], none⟩)] = true := by decide
theorem test_zero_write_unlists : Memory.write [(0x09, 0x20)] 0x09 0x00 = [] := by decide

/-! ## Single steps -/

/-- The next state of an outcome. -/
def nextOf : Outcome → Option State
  | .next s => some s
  | .fault _ => none
  | .refused _ => none

/-- A plain register file behind a block just reset. -/
def simpleStart (regs : Memory) : State := { State.reset with env := Env.simple regs }

/-- The block standing at a frame. -/
def at_ (f : Frame) (K : List Frame) (s : State) : State := { s with run := .busy f K }

def runOf (o : Outcome) : Option Run := (nextOf o).map State.run
def traceOf (o : Outcome) : Option (List BusEvent) := (nextOf o).map State.trace
def responsesOf (o : Outcome) : Option (List Response) := (nextOf o).map State.responses

theorem test_accept_wrreg : (nextOf (exec (.wrreg 0x2A 0x8D) (simpleStart []))).map
    (fun t => (t.run, t.aLat, t.dLat, t.trace)) =
    some (.busy (.wrreg .latched .latched .s1) [], 0x2A, 0x8D, []) := by decide
theorem test_accept_getuid : runOf (exec (.getuid 0 0) State.reset) = some (.busy (.getuid .s1) []) := by decide
/-- 95_test_vectors.md V61. -/
theorem test_reserved : (nextOf (exec (.reservedC 0x12 0x34) State.reset)).map
    (fun t => (t.run, t.trace, t.responses.map fun r => (r.op, r.status.code))) =
    some (.idle, [], [(0xC, 6)]) := by decide
/-- 40_register_access.md R123 S2 for WRREG 0x49: the frame byte of address 9. -/
theorem test_wr_frame_byte : traceOf (step (at_ (.wrreg .latched .latched .s2) []
    { simpleStart [] with cs := .low, aLat := 0x49, env := (Env.simple []).csl })) = some [.x 0x12 0x00] := by decide
/-- 95_test_vectors.md V63: RDREG of 0xC9. -/
theorem test_rd_frame_byte : traceOf (step (at_ (.rdreg .latched .param .s2) []
    { simpleStart [] with cs := .low, aLat := 0xC9, env := (Env.simple []).csl })) = some [.x 0x92 0x00] := by decide
theorem test_wframe_opens : traceOf (exec (.wframe 0x09 0x5A) (simpleStart [])) = some [.csl] := by decide
theorem test_rframe_opens : traceOf (exec (.rframe 0x09 0x00) (simpleStart [])) = some [.csl] := by decide
theorem test_wburst2_third_byte : traceOf (step (at_ (.wburst2 (.ofReg 0x09) (.given 0x93) (.given 0x20) .s4) []
    { simpleStart [] with cs := .low, env := .script [] [] (.data false 0x09) })) = some [.x 0x20 0x00] := by decide
/-- 41_bitmask.md R141 and R142, the bytes of the examples. -/
theorem test_setbits_value : runOf (step (at_ (.setbits .latched .latched .s2) []
    { State.reset with tmp := 0xA5, dLat := 0x0F })) =
    some (.busy (.wrreg .latched (.given 0xAF) .s1) [.setbits .latched .latched .s2]) := by decide
theorem test_clrbits_value : runOf (step (at_ (.clrbits .latched .latched .s2) []
    { State.reset with tmp := 0xA5, dLat := 0x0F })) =
    some (.busy (.wrreg .latched (.given 0xA0) .s1) [.clrbits .latched .latched .s2]) := by decide
/-- 42_chip_control.md R151 S8: the bound, and a poll short of it. -/
theorem test_reset_bound : responsesOf (step (at_ (.reset .s8) [] { State.reset with cnt := 25 })) =
    some [answer 0x5 .unresponsive] := by decide
theorem test_reset_short_of_bound : runOf (step (at_ (.reset .s8) [] { State.reset with cnt := 24 })) =
    some (.busy (.reset .s9) []) := by decide
/-- 95_test_vectors.md V36, V35. -/
theorem test_anton_one_bit : runOf (step (at_ (.anton .s2) [] { State.reset with tmp := 0x81 })) =
    some (.busy (.anton .s3) []) := by decide
theorem test_anton_both_bits : responsesOf (step (at_ (.anton .s2) [] { State.reset with tmp := 0x83 })) =
    some [answer 0x6 .ok] := by decide
/-- 42_chip_control.md R154: no test first. -/
theorem test_antoff_clears : runOf (step (at_ (.antoff .s1) [] State.reset)) =
    some (.busy (.clrbits (.ofReg 0x14) (.given 0x03) .s1) [.antoff .s1]) := by decide
/-- 42_chip_control.md R156 S3, and S4's UNRESPONSIVE ending INIT. -/
theorem test_init_rsth : (nextOf (step (at_ (.init .s3) [] { State.reset with rst := .low }))).map
    (fun t => (t.rst, t.trace)) = some (.high, [.rsth]) := by decide
theorem test_init_unresponsive : responsesOf (step (at_ (.reset .s8) [.init .s4] { State.reset with cnt := 25 })) =
    some [answer 0x8 .unresponsive] := by decide
/-- 43_card_protocol.md R171 S13. -/
theorem test_reqp_last_poll : (nextOf (step (at_ (.reqp .latched .s13) [] { State.reset with cnt := 25 }))).map
    (fun t => (t.run, t.timedOut)) = some (.busy (.reqp .latched .s14) [], true) := by decide
theorem test_reqp_absent : responsesOf (step (at_ (.reqp .latched .s15) [] { State.reset with lvl := 0x82 })) =
    some [answer 0x9 .malformed] := by decide
/-- 43_card_protocol.md R175 S8, S10. -/
theorem test_anticoll_seven : responsesOf (step (at_ (.anticoll .s8) [] { State.reset with lvl := 7 })) =
    some [answer 0xA .malformed] := by decide
theorem test_anticoll_format : runOf (step (at_ (.anticoll .s10) []
    { State.reset with buf := ⟨0xDE, 0xAD, 0xBE, 0xEF, 0x22⟩ })) =
    some (.busy (.anticoll (.s11 ⟨0x44, 0x45, 0x41, 0x44, 0x42, 0x45, 0x45, 0x46, 0x32, 0x32⟩)) []) := by decide
/-- 95_test_vectors.md V45, and R178 S4 with the empty result. -/
theorem test_getuid_no_card : responsesOf (step (at_ (.getuid .s2) [] State.reset)) =
    some [answer 0xB .noCard] := by decide
theorem test_getuid_empty_uid : responsesOf (step (at_ (.getuid (.s4 .empty)) [] State.reset)) =
    some [{ answer 0xB .malformed with presence := true }] := by decide
/-- 70_reset_and_hazards.md R241, inside a bracket. -/
theorem test_reset_input : (nextOf (step (at_ (.wrreg .latched .latched .s3) []
    { simpleStart [] with cs := .low, history := [.bus .csl], resetIn := [true] }))).map
    (fun t => (t.cs, t.run, t.history)) = some (.high, .idle, []) := by decide
/-- The preconditions of 00_scope.md R12. -/
theorem test_fault_csl : step (at_ (.wrreg .latched .latched .s1) [] { State.reset with cs := .low }) =
    .fault .cslWhileSelected := rfl
theorem test_fault_exchange : step (at_ (.wrreg .latched .latched .s2) [] State.reset) =
    .fault .exchangeWhileDeselected := rfl
theorem test_fault_delay : step (at_ (.reset .s2) [] { State.reset with cs := .low }) =
    .fault .delayWhileSelected := rfl
theorem test_fault_stack : step (at_ (.wrreg (.given 0) (.given 0) .s4) [.getuid .s2] State.reset) =
    .fault .brokenStack := rfl

/-! ## Witnesses: a state and operands that meet the hypotheses of each statement -/

theorem witness_ready : State.reset.Ready := ⟨rfl, rfl, rfl⟩

theorem witness_EncodeOfDecodeIsTheBits :
    decode (.bracket [0x92, 0x00]) = .ok (.rframe 0x09 0x00) ∧ decode (.command 0xFFFFF) = .ok (.reservedF 0xFF 0xFF) :=
  ⟨rfl, by decide⟩

/-- An idle block with a command word on its port. -/
def portStart (w : CmdWord) : State := { State.reset with cmds := [w] }

/-- The first and last op codes of each clause. -/
theorem witness_IdleBlockAcceptsTheCommand :
    (∀ w, (portStart w).run = .idle ∧ (portStart w).resetIn = [] ∧ (portStart w).cmds = [w] ∧
      (portStart w).cs = .high) ∧
    [cmdOp 0x10000, cmdOp 0xBFFFF, cmdOp 0x00000, cmdOp 0xC1234, cmdOp 0xFFFFF] = [0x1, 0xB, 0x0, 0xC, 0xF] ∧
    (0x1 : OpCode) ∉ ([0x0, 0xC, 0xD, 0xE, 0xF] : List OpCode) ∧
    (0xB : OpCode) ∉ ([0x0, 0xC, 0xD, 0xE, 0xF] : List OpCode) :=
  ⟨fun _ => ⟨rfl, rfl, rfl, rfl⟩, by decide, by decide, by decide⟩

/-- A block with a frame open and a command waiting. -/
def busyStart : State :=
  { at_ (.wrreg .latched .latched .s2) [] (simpleStart []) with
    cs := .low, env := (Env.simple []).csl, cmds := [0x70000],
    history := [.cmd 0x1 0 0, .bus .csl] }

theorem witness_BusyBlockLooksAtNoCommand :
    (busyStart.run ≠ .idle ∧ busyStart.resetIn = [] ∧ ∃ t, step busyStart = .next t) ∧
    (let s : State := { State.reset with cmds := [0x70000] }
     s.cmdValid = true ∧ s.cmdReady = true ∧ s.resetIn = []) :=
  ⟨⟨by decide, rfl, _, rfl⟩, by decide⟩

theorem witness_IdleBlockWithoutCommandWaits :
    State.reset.run = .idle ∧ State.reset.resetIn = [] ∧ State.reset.cmds = [] := by decide

theorem witness_StepRunsTheCommandOnThePort :
    (let s : State := { State.reset with cmds := [0x1095A, 0x20900] }
     s.run = .idle ∧ s.resetIn = [] ∧ s.cmds = 0x1095A :: [0x20900]) ∧
      (0xFFFFF < 2 ^ 20 ∧ ((20 : Nat) = 20 ∨ (20 : Nat) = 24) ∧ ((24 : Nat) = 20 ∨ (24 : Nat) = 24)) := by decide

theorem witness_StepRunsThePlacedFrame :
    (decodeTableWord 16 0x125A = some (.wframe 0x09 0x5A) ∧
      frameBody (.wframe 0x09 0x5A) = some (.wrreg (.given 0x09) (.given 0x5A) .s1)) ∧
    (decodeTableWord 16 0x9200 = some (.rframe 0x09 0x00) ∧
      frameBody (.rframe 0x09 0x00) = some (.rdreg (.given 0x09) (.given 0x00) .s1)) ∧
    (decodeTableWord 24 0x129320 = some (.wburst2 0x09 0x93 0x20) ∧
      frameBody (.wburst2 0x09 0x93 0x20) = some (.wburst2 (.given 0x09) (.given 0x93) (.given 0x20) .s1)) := by
  decide

theorem witness_ReservedOpCodesAnswerIllegalOp :
    State.reset.run = .idle ∧ State.reset.cs = .high ∧
      ∀ p ∈ ([(0x0, .reserved0 0x00 0x00), (0xC, .reservedC 0x12 0x34), (0xD, .reservedD 0xFF 0x00),
          (0xE, .reservedE 0x00 0xFF), (0xF, .reservedF 0xFF 0xFF)] : List (OpCode × Instr)),
        ∃ addr data, p ∈ ([(0x0, .reserved0 addr data), (0xC, .reservedC addr data), (0xD, .reservedD addr data),
          (0xE, .reservedE addr data), (0xF, .reservedF addr data)] : List (OpCode × Instr)) := by
  refine ⟨rfl, rfl, ?_⟩
  simp only [List.forall_mem_cons]
  exact ⟨⟨0x00, 0x00, by decide⟩, ⟨0x12, 0x34, by decide⟩, ⟨0xFF, 0x00, by decide⟩, ⟨0x00, 0xFF, by decide⟩,
    ⟨0xFF, 0xFF, by decide⟩, by simp⟩

theorem witness_AddressesAliasModuloSixtyFour : (0x49 : Byte) &&& 0x3F = 0x09 &&& 0x3F := by decide

theorem witness_simple_environment :
    (simpleStart [(0x14, 0xA5)]).Ready ∧ Memory.wf [(0x14, 0xA5)] = true ∧
      (simpleStart [(0x14, 0xA5)]).env = Env.simple [(0x14, 0xA5)] := ⟨⟨rfl, rfl, rfl⟩, by decide, rfl⟩

theorem witness_WriteThenReadReturnsTheValue :
    (simpleStart []).Ready ∧ Memory.wf [] = true ∧ (simpleStart []).env = Env.simple [] ∧
      (0x2A : Byte) &&& 0x3F = 0x6A &&& 0x3F := ⟨⟨rfl, rfl, rfl⟩, by decide, rfl, by decide⟩

/-- The clean fixture of 95_test_vectors.md P3, with its command still to be given. -/
def fixture : State :=
  { State.reset with
    env := Env.scripted [] ([(0x04, ⟨[0x00, 0x20], none⟩), (0x09, ⟨[0x04, 0xAA, 0xBB, 0xCC, 0xDD], none⟩),
      (0x0A, ⟨[0x00, 0x02, 0x02, 0x05], none⟩)]) }

theorem witness_RegisterFileUnderFrames :
    fixture.Ready ∧ Memory.wf [] = true ∧ ∃ q, fixture.env = .script [] q .off :=
  ⟨⟨rfl, rfl, rfl⟩, by decide, _, rfl⟩

/-- A chip that clears its busy bit at the second poll, and one that shows it at every poll there is. -/
def pollStart (max : Option Nat) (polls : List Byte) : State :=
  { State.reset with
    env := Env.scripted [] [(0x01, ⟨polls, none⟩)], cfg := { Config.default with resetPollMax := max } }

theorem witness_ResetCommandWithBound :
    let s := pollStart (some 1) [0x10]
    s.Ready ∧ s.cfg.resetPollMax = some 1 ∧ 1 ≤ 1 ∧ (Body.reset 1 (accepted 0x5 0 0 s)).1 = false ∧
      (Body.reset 1 (accepted 0x5 0 0 (pollStart (some 1) [0x00]))).1 = true :=
  ⟨⟨rfl, rfl, rfl⟩, rfl, by decide, by decide, by decide⟩

theorem witness_ResetAndInitWithoutBoundWhenTheChipAnswers :
    let s := pollStart none [0x10, 0xEF]
    s.Ready ∧ s.cfg.resetPollMax = none ∧ (Body.reset 2 (accepted 0x5 0 0 s)).1 = true ∧
      (Body.init 2 (accepted 0x8 0 0 s)).1 = true :=
  ⟨⟨rfl, rfl, rfl⟩, rfl, by decide, by decide⟩

/-- The chip of 95_test_vectors.md V32, whose CommandReg shows bit 4 for ever, and no bound. -/
def stuckStart : State :=
  { State.reset with
    env := Env.scripted [] [(0x01, ⟨[], some 0x10⟩)], cfg := { Config.default with resetPollMax := none } }

/-- That chip after the block has written the SoftReset code. -/
def stuckEnv : Env := .script [(0x01, 0x0F)] [(0x01, ⟨[], some 0x10⟩)] .off

theorem stuck_poll (n : Nat) : ∀ s : State, s.env = stuckEnv → s.cfg = stuckStart.cfg →
    (Body.resetPoll n s).1 = false := by
  induction n with
  | zero => intro s _ _; rfl
  | succ n ih =>
    intro s he hc
    have h : (Body.readTmp (Body.reg s.cfg.aCommand) s).env = stuckEnv ∧
        (Body.readTmp (Body.reg s.cfg.aCommand) s).tmp = 0x10 := by
      simp only [Body.readTmp, Body.rd, Body.rdByte, Body.send, Body.select, csh, emit, he, hc]
      decide
    have hb : (Body.readTmp (Body.reg s.cfg.aCommand) s).tmp &&& 0x10 ≠ 0 := by rw [h.2]; decide
    rw [Body.resetPoll_busy n hb]
    exact ih _ (by simp only [Body.countPoll, Body.wait, emit, h.1]; rfl) hc

theorem witness_ResetAndInitWithoutBoundHang :
    stuckStart.Ready ∧ stuckStart.cfg.resetPollMax = none ∧
      (∀ n, (Body.reset n (accepted 0x5 0 0 stuckStart)).1 = false) ∧
      (∀ n, (Body.init n (accepted 0x8 0 0 stuckStart)).1 = false) := by
  refine ⟨⟨rfl, rfl, rfl⟩, rfl, fun n => stuck_poll n _ (by decide) rfl, fun n => ?_⟩
  have h : (Body.reset n (rsth (csh (accepted 0x8 0 0 stuckStart)))).1 = false := stuck_poll n _ (by decide) rfl
  unfold Body.init
  simp only [h]
  rfl

theorem witness_UnresponsiveAfterExactlyTheBound :
    (Body.reset 0 State.reset).1 = false ∧ (Body.reset 2 (pollStart (some 2) [0x10, 0xFF])).1 = false := by decide

theorem witness_AbsentStatusPriority :
    (Body.anticollSend { fixture with env := Env.scripted [] [(0x0A, ⟨[0x00, 0x07], none⟩)] }).lvl = 7 ∧
      (Body.anticollSend { fixture with env := Env.scripted [] [(0x0A, ⟨[0x00, 0x00], none⟩)] }).lvl = 0 := by decide

/-- Both values of the failed-poll flag (95_test_vectors.md V41, P3). -/
theorem witness_ReqpFlagsFollowTheirRules :
    ((Body.reqp 0x26 (simpleStart [])).timedOut = true ∧ (Body.reqp 0x26 (simpleStart [])).lvl = 0x80) ∧
      ((Body.reqp 0x26 fixture).timedOut = false ∧ (Body.reqp 0x26 fixture).presence = true) := by decide +kernel

theorem witness_FormatIsInjectiveAndHexadecimal :
    (Buf.toList ⟨0x00, 0x0F, 0x10, 0x9A, 0xFF⟩)[0]? = some 0x00 ∧
      (Buf.toList ⟨0x00, 0x0F, 0x10, 0x9A, 0xFF⟩)[1]? = some 0x0F ∧ (0x0F : Byte).toNat ≤ 0x0F := by decide

/-- Whether an instruction, run from `s` for `k` steps more, has completed. -/
def completesIn (i : Instr) (k : Nat) (s : State) : Bool :=
  match exec i s with
  | .next t0 =>
    match runSteps k t0 with
    | .next t => decide (t.run = .idle) && decide (t.cmds = s.cmds)
    | .fault _ => false
    | .refused _ => false
  | .fault _ => false
  | .refused _ => false

theorem completes_of {i : Instr} {k : Nat} {s : State} (h : completesIn i k s = true) : ∃ t, Completes i s t := by
  unfold completesIn at h
  cases he : exec i s with
  | next t0 =>
    rw [he] at h
    simp only at h
    cases hr : runSteps k t0 with
    | next t =>
      rw [hr] at h
      simp only [Bool.and_eq_true, decide_eq_true_eq] at h
      exact ⟨t, k, t0, he, hr, h.1, h.2⟩
    | fault r => rw [hr] at h; cases h
    | refused r => rw [hr] at h; cases h
  | fault r => rw [he] at h; cases h
  | refused r => rw [he] at h; cases h

theorem witness_fixture_ready : fixture.Ready ∧ fixture.cfg.wf = true := ⟨⟨rfl, rfl, rfl⟩, by decide⟩
theorem witness_wframe_completes : ∃ t, Completes (.wframe 0x09 0x5A) fixture t := completes_of (k := 3) (by decide)
theorem witness_rframe_completes : ∃ t, Completes (.rframe 0x09 0x00) fixture t := completes_of (k := 3) (by decide)
theorem witness_wburst2_completes : ∃ t, Completes (.wburst2 0x09 0x93 0x20) fixture t :=
  completes_of (k := 4) (by decide)
theorem witness_wrreg_completes : ∃ t, Completes (.wrreg 0x49 0x5A) fixture t := completes_of (k := 4) (by decide)
theorem witness_rdreg_completes : ∃ t, Completes (.rdreg 0x49 0x00) fixture t := completes_of (k := 4) (by decide)
theorem witness_setbits_completes : ∃ t, Completes (.setbits 0x14 0x0F) fixture t := completes_of (k := 10) (by decide)
theorem witness_clrbits_completes : ∃ t, Completes (.clrbits 0x14 0x0F) fixture t := completes_of (k := 10) (by decide)
theorem witness_reset_completes : ∃ t, Completes (.reset 0 0) fixture t := completes_of (k := 13) (by decide)
theorem witness_anton_completes : ∃ t, Completes (.anton 0 0) fixture t := completes_of (k := 17) (by decide)
theorem witness_antoff_completes : ∃ t, Completes (.antoff 0 0) fixture t := completes_of (k := 11) (by decide)
theorem witness_init_completes : ∃ t, Completes (.init 0 0) fixture t := completes_of (k := 60) (by decide +kernel)
theorem witness_reqp_completes : ∃ t, Completes (.reqp 0 0x26) fixture t := completes_of (k := 71) (by decide +kernel)
theorem witness_anticoll_completes : ∃ t, Completes (.anticoll 0 0) fixture t := completes_of (k := 52) (by decide +kernel)
theorem witness_getuid_completes : ∃ t, Completes (.getuid 0 0) fixture t := completes_of (k := 154) (by decide +kernel)
/-- Both ends of R250's row for GETUID: no failing poll and no card, every poll failing and a card. -/
theorem witness_DelaysOfEachCommand :
    fixture.Ready ∧ (∃ t, Completes (.getuid 0 0) fixture t) ∧
      (let p := Body.reqp 0x26 { fixture with env := Env.scripted [] [(0x04, ⟨[], some 0x30⟩)] }
       p.cnt = 0 ∧ p.presence = false) ∧
      (let p := Body.reqp 0x26 { fixture with env := Env.scripted [] [(0x0A, ⟨[], some 0x02⟩)] }
       p.cnt = 25 ∧ p.presence = true) :=
  ⟨⟨rfl, rfl, rfl⟩, witness_getuid_completes, by decide +kernel, by decide +kernel⟩
theorem witness_reserved0_completes : ∃ t, Completes (.reserved0 0 0) fixture t := completes_of (k := 0) (by decide)
theorem witness_reservedC_completes : ∃ t, Completes (.reservedC 0x12 0xFF) fixture t := completes_of (k := 0) (by decide)
theorem witness_reservedD_completes : ∃ t, Completes (.reservedD 0x12 0xFF) fixture t := completes_of (k := 0) (by decide)
theorem witness_reservedE_completes : ∃ t, Completes (.reservedE 0x12 0xFF) fixture t := completes_of (k := 0) (by decide)
theorem witness_reservedF_completes : ∃ t, Completes (.reservedF 0x12 0xFF) fixture t := completes_of (k := 0) (by decide)

/-- A legal busy position: the last poll of RESET inside INIT, one short of the bound. -/
def pollingStart : State :=
  { at_ (.reset .s8) [.init .s4] State.reset with cnt := 25, history := [.cmd 0x8 0 0] }

theorem witness_StepKeepsPositionsLegal :
    pollingStart.PosLegal ∧ pollingStart.TraceLegal ∧ pollingStart.ResponsesLegal ∧ pollingStart.AnswersMatch ∧
      pollingStart.env.wf = true ∧ (takeReset pollingStart).1 = false ∧ ∃ t, step pollingStart = .next t := by
  refine ⟨⟨by decide, by decide, by decide, by decide, by decide, by decide⟩, rfl, ?_, rfl, rfl, rfl, _, rfl⟩
  intro r hr
  cases hr

theorem witness_busy_in_a_bracket : busyStart.PosLegal ∧ busyStart.TraceLegal ∧ ∃ t, step busyStart = .next t :=
  ⟨⟨by decide, by decide, by decide, by decide, by decide, by decide⟩, rfl, _, rfl⟩

theorem witness_EveryCommandEnds :
    pollingStart.PosLegal ∧ pollingStart.resetIn = [] ∧ pollingStart.cfg.resetPollMax = some 25 ∧
      pollingStart.run ≠ .idle :=
  ⟨witness_StepKeepsPositionsLegal.1, rfl, rfl, by decide⟩

theorem witness_ResetInputAtAnyStep :
    ({ busyStart with resetIn := [true, false] } : State).resetIn = true :: [false] := rfl

theorem witness_InactiveResetInputChangesNothing :
    ({ busyStart with resetIn := [false, true] } : State).resetIn = false :: [true] ∧
      ∃ t, step { busyStart with resetIn := [false, true] } = .next t ∧ t.resetIn = [true] ∧ t.cs = .low :=
  ⟨rfl, _, rfl, rfl, rfl⟩

end Sys2Proof.Tests
end

section
/-! PROOF. A step only appends to the history (00_scope.md R6, R12, R13): how much each operation a step is made of appends, and the bounds added up over the cases of a step. -/

namespace Sys2Proof.Machine

/-- From `s` to `t` the history is only appended to: at most `b` bus events and at most `r` responses. -/
def HistoryGrows (b r : Nat) (s t : State) : Prop :=
  ∃ es, t.history = s.history ++ es ∧ (es.filterMap Event.bus?).length ≤ b ∧
    (es.filterMap Event.response?).length ≤ r

theorem HistoryGrows.of_eq {s t : State} (b r : Nat) (h : t.history = s.history) : HistoryGrows b r s t :=
  ⟨[], by rw [h, List.append_nil], Nat.zero_le b, Nat.zero_le r⟩

theorem HistoryGrows.trans {b r b' r' : Nat} {s t u : State} (h : HistoryGrows b r s t)
    (h' : HistoryGrows b' r' t u) : HistoryGrows (b + b') (r + r') s u := by
  obtain ⟨es, hst, hb, hr⟩ := h
  obtain ⟨es', htu, hb', hr'⟩ := h'
  refine ⟨es ++ es', by rw [htu, hst, List.append_assoc], ?_, ?_⟩
  · rw [List.filterMap_append, List.length_append]; exact Nat.add_le_add hb hb'
  · rw [List.filterMap_append, List.length_append]; exact Nat.add_le_add hr hr'

/-! ## What each operation appends -/

theorem HistoryGrows.of_bus {s t : State} {e : BusEvent} (h : t.history = s.history ++ [.bus e]) :
    HistoryGrows 1 0 s t :=
  ⟨[.bus e], h, Nat.le_refl 1, Nat.le_refl 0⟩

theorem respond_historyGrows (resp : Response) (s : State) : HistoryGrows 0 1 s (respond resp s) :=
  ⟨[.response resp], rfl, Nat.le_refl 0, Nat.le_refl 1⟩

theorem latchCommand_historyGrows (op : OpCode) (a d : Byte) (s : State) :
    HistoryGrows 0 0 s (latchCommand op a d s) :=
  ⟨[.cmd op a d], rfl, Nat.le_refl 0, Nat.le_refl 0⟩

theorem Prim.historyGrows {s t : State} (h : Prim s t) : HistoryGrows 1 0 s t := by
  cases h with
  | none => exact .of_eq 1 0 rfl
  | select _ => exact .of_bus rfl
  | send tx _ => exact .of_bus rfl
  | csh => exact .of_bus rfl
  | wait n _ => exact .of_bus rfl
  | rsth => exact .of_bus rfl

theorem Ends.historyGrows {s t : State} (h : Ends s t) : HistoryGrows 0 1 s t := by
  obtain ⟨g, K, rfl⟩ | ⟨resp, rfl⟩ | rfl := h
  · exact .of_eq 0 1 rfl
  · exact respond_historyGrows resp s
  · exact .of_eq 0 1 rfl

/-- The abnormal completion appends CSH when chip-select is low, then the response of the command. -/
theorem raise_historyGrows (op : Option OpCode) (st : Status) (s : State) :
    HistoryGrows 1 1 s (raise op st s) := by
  have deselected : HistoryGrows 1 0 s (match s.cs with | .low => csh s | .high => s) := by
    cases s.cs with
    | low => exact .of_bus rfl
    | high => exact .of_eq 1 0 rfl
  cases op with
  | some o => exact deselected.trans (respond_historyGrows (Response.plain o st) _)
  | none => exact deselected.trans (.of_eq 0 1 rfl)

/-! ## What a step appends -/

theorem Advances.historyGrows {s t : State} (h : Advances s t) : HistoryGrows 1 1 s t := by
  obtain ⟨s1, s2, hprim, hsilent, hends⟩ | ⟨op, st, rfl⟩ := h
  · exact (hprim.historyGrows.trans (.of_eq 0 0 hsilent.history)).trans hends.historyGrows
  · exact raise_historyGrows op st s

theorem exec_decodeCommand_historyGrows {s t : State} (w : CmdWord) (hidle : s.run = .idle)
    (h : exec (decodeCommand w) s = .next t) : HistoryGrows 1 1 s t := by
  obtain ⟨op, a, d, f, _, _, _, he⟩ | ⟨op, a, d, _, he⟩ := exec_decodeCommand_idle w hidle
  · have grows : HistoryGrows 1 1 s (latchCommand op a d s) :=
      (latchCommand_historyGrows op a d s).trans (.of_eq 1 1 rfl)
    cases he.symm.trans h
    exact grows
  · have grows : HistoryGrows 1 1 s (acceptReserved op a d s) :=
      (latchCommand_historyGrows op a d s).trans (raise_historyGrows (some op) .illegalOp _)
    cases he.symm.trans h
    exact grows

theorem takeReset_history (s : State) : (takeReset s).2.history = s.history := by
  unfold takeReset; split <;> rfl

theorem step_historyGrows {s t : State} (hreset : (takeReset s).1 = false) (h : step s = .next t) :
    HistoryGrows 1 1 s t := by
  obtain ⟨s', htake, _⟩ | ⟨s', htake, hwork⟩ := step_cases h
  · rw [htake] at hreset; cases hreset
  · have taken : HistoryGrows 0 0 s s' := by
      have hs' := takeReset_history s
      rw [htake] at hs'
      exact .of_eq 0 0 hs'
    have worked : HistoryGrows 1 1 s' t := by
      obtain ⟨f, K, _, hadvance⟩ | ⟨_, _, rfl⟩ | ⟨w, ws, hidle, _, hexec⟩ := hwork
      · exact (advance_cases hadvance).historyGrows
      · exact .of_eq 1 1 rfl
      · exact exec_decodeCommand_historyGrows (s := { s' with cmds := ws }) w hidle hexec
    exact taken.trans worked

/-- Settles O53: each case of the step appends at most one bus event and one response. The position
need not be legal: from any other the step faults or appends no more. -/
theorem historyIsOnlyAppended : Obligations.HistoryIsOnlyAppended :=
  fun _ _ _ hreset h => step_historyGrows hreset h

end Sys2Proof.Machine
end

section
/-! PROOF. How a step of a busy block moves the position (10_state.md R24): it goes on at another label of the same body, calls the body of the label it stands at, returns, or raises. -/

namespace Sys2Proof.Machine

/-- What a step does to everything but the position: a primitive, or none, then changes of latches. -/
def Works (s s' : State) : Prop := ∃ s1, Prim s s1 ∧ Silent s1 s'

theorem Works.refl (s : State) : Works s s := ⟨s, .none, .refl s⟩

theorem Works.of_silent {s s' : State} (h : Silent s s') : Works s s' := ⟨s, .none, h⟩

theorem Works.of_prim {s s' : State} (h : Prim s s') : Works s s' := ⟨s', h, .refl s'⟩

theorem Works.cfg {s s' : State} (h : Works s s') : s'.cfg = s.cfg := by
  obtain ⟨s1, hprim, hsilent⟩ := h
  exact hsilent.cfg.trans (by cases hprim <;> rfl)

theorem Works.dLat {s s' : State} (h : Works s s') : s'.dLat = s.dLat := by
  obtain ⟨s1, hprim, hsilent⟩ := h
  exact hsilent.dLat.trans (by cases hprim <;> rfl)

/-- The level of chip-select at a frame: low from the step after CSL to CSH (40_register_access.md R122). -/
def Frame.level : Frame → Level
  | .wrreg _ _ .s1 => .high
  | .wrreg _ _ _ => .low
  | .rdreg _ _ .s1 => .high
  | .rdreg _ _ _ => .low
  | .wburst2 _ _ _ .s1 => .high
  | .wburst2 _ _ _ _ => .low
  | _ => .high

/-- The poll loops, whose positions bound the counter (41_bitmask.md R145 (e)). -/
def Frame.isLoop : Frame → Bool
  | .reset _ => true
  | .reqp _ _ => true
  | _ => false

/-- What a body returns is what its rule gives: ANTICOLL its result, whose characters are those of the
drained bytes; no other body a UID. -/
def returnLegal (s : State) (f : Frame) (r : Ret) : Bool :=
  match f, r with
  | _, .anticoll u => labelLegal s (.getuid (.s4 u))
  | .anticoll _, .nothing => false
  | .anticoll _, .byte _ => false
  | _, _ => true

/-- From frame `f` the step goes on at `g`, another label of the same body. -/
structure GoesOn (f : Frame) (s : State) (g : Frame) (s' : State) : Prop where
  works : Works s s'
  start : g.start = f.start
  tmp : s'.tmp = s.tmp
  cnt : f.isLoop = true ∨ s'.cnt = s.cnt
  level : s.cs = f.level → s'.cs = g.level
  count : s.cfg.wf = true → countLegal s f = true → countLegal s' g = true
  label : labelLegal s' g = true

/-- The step is the last of the body of `f`, and its result is `r`. -/
structure Returns (f : Frame) (s : State) (r : Ret) (s' : State) : Prop where
  works : Works s s'
  tmp : s'.tmp = s.tmp
  cnt : s'.cnt = s.cnt
  level : s.cs = f.level → s'.cs = .high
  result : labelLegal s f = true → returnLegal s' f r = true

/-- The four kinds of step of a busy block. -/
inductive Moves (f : Frame) (K : List Frame) (s : State) : State → Prop
  | goes {g s'} : GoesOn f s g s' → Moves f K s (goto g K s')
  | calls {g} : f.level = .high → callee f s = some g → Moves f K s (call g f K s)
  | returns {r s' t} : Returns f s r s' → ret K f r s' = .next t → Moves f K s t
  | raises : f = .reset .s8 → Moves f K s (raise s.run.commandOp .unresponsive s)

/-! ## The moves of each kind of label -/

section
variable {f g : Frame} {K : List Frame} {s t : State}

theorem Moves.of_csl (h : andThen (csl s) (fun s => .next (goto g K s)) = .next t)
    (hstart : g.start = f.start) (hg : g.level = .low)
    (hcount : ∀ u, countLegal u g = true) (hlabel : ∀ u, labelLegal u g = true) : Moves f K s t := by
  obtain ⟨u, hu, ht⟩ := andThen_next h
  obtain ⟨hc, e⟩ | ⟨_, e⟩ := csl_cases s <;> rw [e] at hu <;> cases hu
  cases ht
  exact .goes ⟨.of_prim (.select hc), hstart, rfl, .inr rfl, fun _ => hg.symm, fun _ _ => hcount _, hlabel _⟩

theorem Moves.of_transmit {tx : Byte} (h : andThen (transmit tx s) (fun s => .next (goto g K s)) = .next t)
    (hstart : g.start = f.start) (hg : g.level = .low)
    (hcount : ∀ u, countLegal u g = true) (hlabel : ∀ u, labelLegal u g = true) : Moves f K s t := by
  obtain ⟨u, hu, ht⟩ := andThen_next h
  obtain ⟨hc, e⟩ | ⟨_, e⟩ := transmit_cases tx s <;> rw [e] at hu <;> cases hu
  cases ht
  exact .goes ⟨.of_prim (.send tx hc), hstart, rfl, .inr rfl, fun _ => hc.trans hg.symm,
    fun _ _ => hcount _, hlabel _⟩

theorem Moves.of_delay {n : Nat} (h : andThen (delay n s) (fun s => .next (goto g K s)) = .next t)
    (hstart : g.start = f.start) (hg : g.level = .high)
    (hcount : countLegal s f = true → countLegal s g = true) (hlabel : ∀ u, labelLegal u g = true) :
    Moves f K s t := by
  obtain ⟨u, hu, ht⟩ := andThen_next h
  obtain ⟨hc, e⟩ | ⟨_, e⟩ := delay_cases n s <;> rw [e] at hu <;> cases hu
  cases ht
  exact .goes ⟨.of_prim (.wait n hc), hstart, rfl, .inr rfl, fun _ => hc.trans hg.symm,
    fun _ hf => hcount hf, hlabel _⟩

/-- A step of a loop that sets the counter or the failed-poll flag. -/
theorem Moves.of_flags {n : Nat} {b : Bool}
    (h : Host.Outcome.next (goto g K { s with cnt := n, timedOut := b }) = (.next t : Outcome))
    (hloop : f.isLoop = true) (hstart : g.start = f.start) (hlevel : g.level = f.level)
    (hcount : s.cfg.wf = true → countLegal s f = true → countLegal { s with cnt := n, timedOut := b } g = true)
    (hlabel : ∀ u, labelLegal u g = true) : Moves f K s t := by
  cases h
  exact .goes ⟨.of_silent ⟨rfl, rfl, rfl, rfl, rfl, rfl, rfl, rfl, rfl⟩, hstart, rfl, .inl hloop,
    fun hc => hc.trans hlevel.symm, hcount, hlabel _⟩

theorem Moves.of_goto (h : Host.Outcome.next (goto g K s) = (.next t : Outcome))
    (hstart : g.start = f.start) (hlevel : g.level = f.level)
    (hcount : countLegal s f = true → countLegal s g = true) (hlabel : labelLegal s g = true) :
    Moves f K s t := by
  cases h
  exact .goes ⟨.refl s, hstart, rfl, .inr rfl, fun hc => hc.trans hlevel.symm, fun _ => hcount, hlabel⟩

theorem Moves.of_call (h : Host.Outcome.next (call g f K s) = (.next t : Outcome))
    (hlevel : f.level = .high) (hcallee : callee f s = some g) : Moves f K s t := by
  cases h; exact .calls hlevel hcallee

theorem Moves.of_return {r : Ret} (h : ret K f r s = .next t) (hlevel : f.level = .high)
    (hresult : labelLegal s f = true → returnLegal s f r = true) : Moves f K s t :=
  .returns ⟨.refl s, rfl, rfl, fun hc => hc.trans hlevel, hresult⟩ h

theorem Moves.of_csh {r : Ret} (h : ret K f r (csh s) = .next t)
    (hresult : returnLegal (csh s) f r = true) : Moves f K s t :=
  .returns ⟨.of_prim .csh, rfl, rfl, fun _ => rfl, fun _ => hresult⟩ h

end

/-! ## The counters of the loops -/

/-- RESET's bound on the counter at each label (42_chip_control.md R151). -/
theorem countLegal_reset {s : State} {l : ResetAt} :
    countLegal s (.reset l) = true ↔ ∀ n, s.cfg.resetPollMax = some n →
      match l with
      | .s1 => True
      | .s2 => True
      | .s3 => True
      | .s8 => s.cnt ≤ n
      | _ => s.cnt < n := by
  unfold countLegal
  cases h : s.cfg.resetPollMax <;> cases l <;> simp

theorem pos_of_wf {c : Config} {n : Nat} (h : c.wf = true) (hn : c.resetPollMax = some n) : 0 < n := by
  have hne : c.resetPollMax ≠ some 0 := by
    simp only [Config.wf, Bool.and_eq_true, bne_iff_ne] at h
    exact h.2
  exact Nat.pos_of_ne_zero fun h0 => hne (h0 ▸ hn)

theorem lt_of_bound_not_reached {max : Option Nat} {cnt n : Nat} (h : ¬resetBoundReached max cnt = true)
    (hmax : max = some n) (hle : cnt ≤ n) : cnt < n := by
  subst hmax
  simp only [resetBoundReached, beq_iff_eq] at h
  omega

/-! ## The step of each body -/

section
variable {K : List Frame} {s t : State}

theorem stepWrreg_moves {a v : Operand} {l : WrAt} (h : stepWrreg a v l K s = .next t) :
    Moves (.wrreg a v l) K s t := by
  cases l with
  | s1 => exact .of_csl h rfl rfl (fun _ => rfl) (fun _ => rfl)
  | s2 => exact .of_transmit h rfl rfl (fun _ => rfl) (fun _ => rfl)
  | s3 => exact .of_transmit h rfl rfl (fun _ => rfl) (fun _ => rfl)
  | s4 => exact .of_csh h rfl

theorem stepRdreg_moves {a : Operand} {fill : Fill} {l : RdAt} (h : stepRdreg a fill l K s = .next t) :
    Moves (.rdreg a fill l) K s t := by
  cases l with
  | s1 => exact .of_csl h rfl rfl (fun _ => rfl) (fun _ => rfl)
  | s2 => exact .of_transmit h rfl rfl (fun _ => rfl) (fun _ => rfl)
  | s3 =>
    simp only [stepRdreg] at h
    obtain ⟨hc, e⟩ | ⟨_, e⟩ := exchange_cases (fill.byte s) s <;> rw [e] at h <;> cases h
    exact .goes ⟨.of_prim (.send _ hc), rfl, rfl, .inr rfl, fun _ => hc, fun _ _ => rfl, rfl⟩
  | s4 r => exact .of_csh h rfl

theorem stepWburst2_moves {a v w : Operand} {l : BurstAt} (h : stepWburst2 a v w l K s = .next t) :
    Moves (.wburst2 a v w l) K s t := by
  cases l with
  | s1 => exact .of_csl h rfl rfl (fun _ => rfl) (fun _ => rfl)
  | s2 => exact .of_transmit h rfl rfl (fun _ => rfl) (fun _ => rfl)
  | s3 => exact .of_transmit h rfl rfl (fun _ => rfl) (fun _ => rfl)
  | s4 => exact .of_transmit h rfl rfl (fun _ => rfl) (fun _ => rfl)
  | s5 => exact .of_csh h rfl

theorem stepReset_moves {l : ResetAt} (h : stepReset l K s = .next t) : Moves (.reset l) K s t := by
  cases l with
  | s1 => exact .of_call h rfl rfl
  | s2 => exact .of_delay h rfl rfl (fun _ => countLegal_reset.2 fun _ _ => trivial) (fun _ => rfl)
  | s3 =>
    exact .of_flags h rfl rfl rfl (fun hwf _ => countLegal_reset.2 fun _ hn => pos_of_wf hwf hn) (fun _ => rfl)
  | s4 => exact .of_call h rfl rfl
  | s5 =>
    simp only [stepReset] at h
    split at h
    · exact .of_return h rfl (fun _ => rfl)
    · exact .of_goto h rfl rfl (fun hc => countLegal_reset.2 (countLegal_reset.1 hc)) rfl
  | s6 => exact .of_delay h rfl rfl (fun hc => countLegal_reset.2 (countLegal_reset.1 hc)) (fun _ => rfl)
  | s7 =>
    exact .of_flags h rfl rfl rfl (fun _ hc => countLegal_reset.2 (countLegal_reset.1 hc)) (fun _ => rfl)
  | s8 =>
    simp only [stepReset] at h
    split at h
    · cases h; exact .raises rfl
    · next hb =>
      exact .of_goto h rfl rfl (fun hc =>
        countLegal_reset.2 fun n hn => lt_of_bound_not_reached hb hn (countLegal_reset.1 hc n hn)) rfl
  | s9 => exact .of_goto h rfl rfl (fun hc => countLegal_reset.2 (countLegal_reset.1 hc)) rfl

theorem stepAnton_moves {l : AntonAt} (h : stepAnton l K s = .next t) : Moves (.anton l) K s t := by
  cases l with
  | s1 => exact .of_call h rfl rfl
  | s2 =>
    simp only [stepAnton] at h
    split at h
    · exact .of_return h rfl (fun _ => rfl)
    · exact .of_goto h rfl rfl (fun _ => rfl) rfl
  | s3 => exact .of_call h rfl rfl

theorem stepInit_moves {l : InitAt} (h : stepInit l K s = .next t) : Moves (.init l) K s t := by
  cases l with
  | s1 => exact .of_goto h rfl rfl (fun _ => rfl) rfl
  | s2 =>
    cases h
    exact .goes ⟨.of_prim .csh, rfl, rfl, .inr rfl, fun _ => rfl, fun _ _ => rfl, rfl⟩
  | s3 =>
    cases h
    exact .goes ⟨.of_prim .rsth, rfl, rfl, .inr rfl, fun hc => hc, fun _ _ => rfl, rfl⟩
  | _ => exact .of_call h rfl rfl

theorem stepReqp_moves {m : Operand} {l : ReqpAt} (h : stepReqp m l K s = .next t) : Moves (.reqp m l) K s t := by
  cases l with
  | s6 => exact .of_delay h rfl rfl (fun _ => rfl) (fun _ => rfl)
  | s8 => exact .of_flags h rfl rfl rfl (fun _ _ => rfl) (fun _ => rfl)
  | s10 =>
    simp only [stepReqp] at h
    split at h
    · exact .of_goto h rfl rfl
        (fun hc => decide_eq_true (Nat.le_of_lt (of_decide_eq_true hc : s.cnt < 25))) rfl
    · exact .of_goto h rfl rfl (fun hc => hc) rfl
  | s11 => exact .of_delay h rfl rfl (fun hc => hc) (fun _ => rfl)
  | s12 =>
    exact .of_flags h rfl rfl rfl (fun _ hc => decide_eq_true (of_decide_eq_true hc : s.cnt < 25)) (fun _ => rfl)
  | s13 =>
    simp only [stepReqp] at h
    split at h
    · next hlt => exact .of_goto h rfl rfl (fun _ => decide_eq_true hlt) rfl
    · exact .of_flags h rfl rfl rfl (fun _ hc => hc) (fun _ => rfl)
  | s15 =>
    exact .returns (s' := { s with presence := presenceOf s.lvl }) (r := .nothing)
      ⟨.of_silent ⟨rfl, rfl, rfl, rfl, rfl, rfl, rfl, rfl, rfl⟩, rfl, rfl, fun hc => hc, fun _ => rfl⟩ h
  | _ => exact .of_call h rfl rfl

theorem stepAnticoll_moves {l : AnticollAt} (h : stepAnticoll l K s = .next t) : Moves (.anticoll l) K s t := by
  cases l with
  | s5 => exact .of_delay h rfl rfl (fun _ => rfl) (fun _ => rfl)
  | s8 =>
    simp only [stepAnticoll] at h
    split at h
    · exact .of_goto h rfl rfl (fun _ => rfl) rfl
    · exact .of_return h rfl (fun _ => rfl)
  | s10 => exact .of_goto h rfl rfl (fun _ => rfl) (beq_self_eq_true _)
  | s11 str =>
    refine .of_return h rfl (fun hl => ?_)
    show (s.buf == s.buf && str == formatUid s.buf) = true
    rw [beq_self_eq_true, Bool.true_and]
    exact hl
  | _ => exact .of_call h rfl rfl

theorem stepGetuid_moves {l : GetuidAt} (h : stepGetuid l K s = .next t) : Moves (.getuid l) K s t := by
  cases l with
  | s2 =>
    simp only [stepGetuid] at h
    split at h
    · exact .of_goto h rfl rfl (fun _ => rfl) rfl
    · exact .of_return h rfl (fun _ => rfl)
  | s4 u => exact .of_return h rfl (fun hl => hl)
  | _ => exact .of_call h rfl rfl

/-- Everything a step of a busy block can do with its position. -/
theorem advance_moves {f : Frame} (h : advance f K s = .next t) : Moves f K s t := by
  cases f with
  | wrreg a v l => exact stepWrreg_moves h
  | rdreg a fill l => exact stepRdreg_moves h
  | wburst2 a v w l => exact stepWburst2_moves h
  | setbits a m l => cases l <;> exact .of_call h rfl rfl
  | clrbits a m l => cases l <;> exact .of_call h rfl rfl
  | reset l => exact stepReset_moves h
  | anton l => exact stepAnton_moves h
  | antoff l => cases l; exact .of_call h rfl rfl
  | init l => exact stepInit_moves h
  | reqp m l => exact stepReqp_moves h
  | anticoll l => exact stepAnticoll_moves h
  | drain l => exact .of_call h rfl rfl
  | getuid l => exact stepGetuid_moves h

end

/-! ## The return, one frame at a time -/

/-- How a return unwinds the stack of callers: it reaches the end of the outermost operation, or a
caller that goes on; a caller whose last step the call was ends in its turn. -/
inductive Unwinds : List Frame → Frame → Ret → State → State → Prop
  | completes (f r s) : Unwinds [] f r s (complete f r s)
  | goesOn {c K f r s g s'} : afterCall c r s = some (.goesOn g s') → Unwinds (c :: K) f r s (goto g K s')
  | ends {c K f r s s' t} : afterCall c r s = some (.ends s') → Unwinds K c .nothing s' t →
      Unwinds (c :: K) f r s t

theorem unwinds_of_ret {K : List Frame} : ∀ {f r s t}, ret K f r s = .next t → Unwinds K f r s t := by
  induction K with
  | nil => intro f r s t h; cases h; exact .completes f r s
  | cons c K ih =>
    intro f r s t h
    simp only [ret] at h
    cases ha : afterCall c r s with
    | none => rw [ha] at h; cases h
    | some x =>
      cases x with
      | goesOn g s' => rw [ha] at h; cases h; exact .goesOn ha
      | ends s' => rw [ha] at h; exact .ends ha (ih h)

/-! ## The step -/

theorem takeReset_snd (s : State) : (takeReset s).2 = { s with resetIn := s.resetIn.tail } := by
  unfold takeReset
  split
  · next h => rw [h, List.tail_nil, ← h]
  · next h => rw [h, List.tail_cons]

/-- Everything a step can do once the level of the reset input is taken. -/
inductive Steps (s : State) : State → Prop
  | resets : Steps s (hardReset s)
  | moves {f K t} : s.run = .busy f K → advance f K s = .next t → Steps s t
  | waits : s.run = .idle → Steps s s
  | accepts {op a d f ws} : s.run = .idle → f.commandOp = some op → f.start = f → f.isRoot = true →
      Steps s (accept op a d f { s with cmds := ws })
  | rejects {op a d ws} : s.run = .idle → op ∈ ([0x0, 0xC, 0xD, 0xE, 0xF] : List OpCode) →
      Steps s (acceptReserved op a d { s with cmds := ws })

theorem steps_of_step {s t : State} (h : step s = .next t) : Steps (takeReset s).2 t := by
  obtain ⟨s', htake, rfl⟩ | ⟨s', htake, hwork⟩ := step_cases h <;> rw [htake]
  · exact .resets
  · obtain ⟨f, K, hrun, hadvance⟩ | ⟨hrun, _, rfl⟩ | ⟨w, ws, hrun, _, hexec⟩ := hwork
    · exact .moves hrun hadvance
    · exact .waits hrun
    · obtain ⟨op, a, d, f, hop, hstart, hroot, he⟩ | ⟨op, a, d, hop, he⟩ :=
        exec_decodeCommand_idle (s := { s' with cmds := ws }) w hrun
      · cases he.symm.trans hexec
        exact .accepts hrun hop hstart hroot
      · cases he.symm.trans hexec
        exact .rejects hrun hop

end Sys2Proof.Machine
end

section
/-! PROOF. Every step keeps the position legal: the rank of a body bounds the stack above it, what a frame calls rests on few fields of the state, and each kind of move keeps each clause of `PosLegal`. -/

namespace Sys2Proof.Machine

/-! ## The call tree (43_card_protocol.md R180) -/

/-- How many frames can stand on a frame of this body. -/
def Frame.rank : Frame → Nat
  | .wrreg _ _ _ => 0
  | .rdreg _ _ _ => 0
  | .wburst2 _ _ _ _ => 0
  | .setbits _ _ _ => 1
  | .clrbits _ _ _ => 1
  | .reset _ => 1
  | .drain _ => 1
  | .anton _ => 2
  | .antoff _ => 2
  | .reqp _ _ => 2
  | .anticoll _ => 2
  | .init _ => 3
  | .getuid _ => 3

theorem Frame.rank_start (f : Frame) : f.start.rank = f.rank := by cases f <;> rfl

theorem Frame.isRoot_start (f : Frame) : f.start.isRoot = f.isRoot := by
  cases f with
  | wrreg a v l => cases a <;> cases v <;> rfl
  | rdreg a fill l => cases a <;> cases fill <;> rfl
  | wburst2 a v w l => cases a <;> cases v <;> cases w <;> rfl
  | setbits a m l => cases a <;> cases m <;> rfl
  | clrbits a m l => cases a <;> cases m <;> rfl
  | reqp m l => cases m <;> rfl
  | _ => rfl

theorem Frame.isRoot_of_start_eq {f g : Frame} (h : g.start = f.start) : g.isRoot = f.isRoot := by
  rw [← g.isRoot_start, h, f.isRoot_start]

theorem Frame.rank_le (f : Frame) : f.rank ≤ 3 := by cases f <;> simp [Frame.rank]

theorem countLegal_of_not_loop {f : Frame} (h : f.isLoop = false) (s : State) : countLegal s f = true := by
  cases f with
  | reset l => cases h
  | reqp m l => cases h
  | _ => rfl

theorem Frame.isLoop_of_rank {f : Frame} (h : f.rank = 3) : f.isLoop = false := by
  cases f with
  | reset l => cases h
  | reqp m l => cases h
  | _ => rfl

theorem Frame.isLoop_start (f : Frame) : f.start.isLoop = f.isLoop := by cases f <;> rfl

theorem Frame.level_start (f : Frame) : f.start.level = .high := by cases f <;> rfl

theorem countLegal_start (f : Frame) (s : State) : countLegal s f.start = true := by
  cases f with
  | reset l => exact countLegal_reset.2 fun _ _ => trivial
  | _ => rfl

theorem labelLegal_start (f : Frame) (s : State) : labelLegal s f.start = true := by cases f <;> rfl

/-- What a called frame is: the first step of a body of lower rank; a poll loop is called from rank 3
only. -/
structure Called (c g : Frame) : Prop where
  start : g.start = g
  rank : g.rank < c.rank
  loop : (g.isLoop && c.rank != 3) = false

theorem callee_called {c g : Frame} {s : State} (h : callee c s = some g) : Called c g := by
  unfold callee at h
  split at h <;> cases h <;>
    exact ⟨rfl, Nat.le_of_ble_eq_true rfl, rfl⟩

theorem rank_of_calls_loop {c g : Frame} (h : Called c g) (hg : g.isLoop = true) : c.rank = 3 := by
  have hloop := h.loop
  rw [hg, Bool.true_and, bne_eq_false_iff_eq] at hloop
  exact hloop

/-- What a frame calls rests on the configuration, the data latch and, in the bit-mask helpers, `tmp`. -/
theorem callee_congr {c : Frame} {s u : State} (hcfg : u.cfg = s.cfg) (hd : u.dLat = s.dLat)
    (htmp : u.tmp = s.tmp ∨ c.rank ≠ 1) : callee c u = callee c s := by
  have data (m : Operand) : m.data u = m.data s := by cases m <;> simp [Operand.data, hd]
  cases c with
  | setbits a m l =>
    have heq : u.tmp = s.tmp := htmp.resolve_right fun h => h rfl
    cases l <;> simp only [callee, heq, data]
  | clrbits a m l =>
    have heq : u.tmp = s.tmp := htmp.resolve_right fun h => h rfl
    cases l <;> simp only [callee, heq, data]
  | reqp m l => cases l <;> simp [callee, hcfg, data]
  | reset l => cases l <;> simp [callee, hcfg]
  | anton l => cases l <;> simp [callee, hcfg]
  | antoff l => cases l; simp [callee, hcfg]
  | init l => cases l <;> simp [callee, hcfg]
  | anticoll l => cases l <;> simp [callee, hcfg]
  | drain l => simp [callee, hcfg]
  | getuid l => cases l <;> rfl
  | _ => rfl

/-! ## Legal stacks -/

theorem stackLegal_cons {s : State} {f c : Frame} {K : List Frame} :
    stackLegal s f (c :: K) = true ↔ callee c s = some f.start ∧ stackLegal s c K = true := by
  simp [stackLegal]

theorem stackLegal_of_start_eq {s : State} {f g : Frame} (h : g.start = f.start) :
    ∀ {K : List Frame}, stackLegal s f K = true → stackLegal s g K = true
  | [], hf => (Frame.isRoot_of_start_eq h).trans hf
  | _ :: _, hf => by rw [stackLegal_cons] at *; exact ⟨h ▸ hf.1, hf.2⟩

theorem rank_lt_of_calls {s : State} {f c : Frame} (h : callee c s = some f.start) : f.rank < c.rank := by
  have hlt := (callee_called h).rank
  rwa [f.rank_start] at hlt

/-- The rank bounds the depth of a legal stack. -/
theorem length_add_rank_le {s : State} : ∀ {f : Frame} {K : List Frame}, stackLegal s f K = true →
    K.length + f.rank ≤ 3
  | f, [], _ => by simpa using f.rank_le
  | f, c :: K, h => by
    rw [stackLegal_cons] at h
    have hlt := rank_lt_of_calls h.1
    have hle := length_add_rank_le h.2
    simp only [List.length_cons]
    omega

/-- `tmp` plays a part in a legal stack only below a bracket. -/
theorem stackLegal_congr {s u : State} {f : Frame} {K : List Frame} (h : stackLegal s f K = true)
    (hcfg : u.cfg = s.cfg) (hd : u.dLat = s.dLat) (htmp : u.tmp = s.tmp ∨ f.rank ≠ 0) :
    stackLegal u f K = true := by
  induction K generalizing f with
  | nil => exact h
  | cons c K ih =>
    rw [stackLegal_cons] at h ⊢
    have hlt := rank_lt_of_calls h.1
    have hcallee : callee c u = callee c s := callee_congr hcfg hd (htmp.imp_right fun _ => by omega)
    exact ⟨hcallee.trans h.1, ih h.2 (.inr (by omega))⟩

/-- A loop is called by an outermost frame, which counts nothing. -/
theorem countLegal_below_loop {s : State} {f : Frame} {K : List Frame} (h : stackLegal s f K = true)
    (hf : f.isLoop = true) (u : State) : ∀ c ∈ K, countLegal u c = true := by
  cases K with
  | nil => exact fun _ hc => absurd hc List.not_mem_nil
  | cons c K =>
    rw [stackLegal_cons] at h
    have hrank : c.rank = 3 := rank_of_calls_loop (callee_called h.1) (f.isLoop_start.trans hf)
    have hK : K = [] := by
      have hle := length_add_rank_le h.2
      exact List.eq_nil_of_length_eq_zero (by omega)
    subst hK
    exact fun d hd => by rw [List.mem_singleton.1 hd]; exact countLegal_of_not_loop (Frame.isLoop_of_rank hrank) u

/-! ## Legal positions -/

/-- The clauses of `PosLegal` for a busy block, the position given apart from the state. The bound on
the depth follows from the stack. -/
structure BusyLegal (s : State) (f : Frame) (K : List Frame) : Prop where
  wf : s.cfg.wf = true
  level : s.cs = f.level
  stack : stackLegal s f K = true
  count : ∀ g ∈ f :: K, countLegal s g = true
  label : labelLegal s f = true

theorem csLegal_busy {s : State} {f : Frame} {K : List Frame} (h : s.run = .busy f K) :
    csLegal s = true ↔ s.cs = f.level := by
  unfold csLegal State.openBracket
  rw [h]
  cases f with
  | wrreg a v l => cases l <;> exact beq_iff_eq
  | rdreg a fill l => cases l <;> exact beq_iff_eq
  | wburst2 a v w l => cases l <;> exact beq_iff_eq
  | _ => exact beq_iff_eq

theorem State.PosLegal.wf {s : State} (h : s.PosLegal) : s.cfg.wf = true := h.1

theorem posLegal_idle_iff {s : State} (h : s.run = .idle) :
    s.PosLegal ↔ s.cfg.wf = true ∧ s.cs = .high := by
  simp [State.PosLegal, csLegal, State.openBracket, h]

theorem posLegal_busy_iff {s : State} {f : Frame} {K : List Frame} (h : s.run = .busy f K) :
    s.PosLegal ↔ BusyLegal s f K := by
  unfold State.PosLegal
  rw [csLegal_busy h, h]
  constructor
  · rintro ⟨hwf, hlevel, hstack, _, hcount, hlabel⟩
    exact ⟨hwf, hlevel, hstack, hcount, hlabel⟩
  · rintro ⟨hwf, hlevel, hstack, hcount, hlabel⟩
    have hle := length_add_rank_le hstack
    exact ⟨hwf, hlevel, hstack, by simp only [List.length_cons]; omega, hcount, hlabel⟩

theorem BusyLegal.posLegal_goto {s : State} {f : Frame} {K : List Frame} (h : BusyLegal s f K) :
    (goto f K s).PosLegal :=
  (posLegal_busy_iff rfl).2 ⟨h.wf, h.level, stackLegal_congr h.stack rfl rfl (.inl rfl), h.count, h.label⟩

/-- The counters of other frames rest on the configuration and `cnt` alone. -/
theorem countLegal_congr {s u : State} {f : Frame} (hcfg : u.cfg = s.cfg) (hcnt : u.cnt = s.cnt)
    (h : countLegal s f = true) : countLegal u f = true := by
  unfold countLegal at *
  rw [hcfg, hcnt]
  exact h

/-! ## The four moves -/

theorem GoesOn.busyLegal {f g : Frame} {K : List Frame} {s s' : State} (h : GoesOn f s g s')
    (hs : BusyLegal s f K) : BusyLegal s' g K where
  wf := h.works.cfg ▸ hs.wf
  level := h.level hs.level
  stack := stackLegal_of_start_eq h.start (stackLegal_congr hs.stack h.works.cfg h.works.dLat (.inl h.tmp))
  count := by
    have htop : countLegal s' g = true := h.count hs.wf (hs.count f List.mem_cons_self)
    refine List.forall_mem_cons.2 ⟨htop, ?_⟩
    obtain hloop | hcnt := h.cnt
    · exact countLegal_below_loop hs.stack hloop s'
    · exact fun c hc => countLegal_congr h.works.cfg hcnt (hs.count c (List.mem_cons_of_mem f hc))
  label := h.label

theorem call_posLegal {f g : Frame} {K : List Frame} {s : State} (hcallee : callee f s = some g)
    (hlevel : f.level = .high) (hs : BusyLegal s f K) : (call g f K s).PosLegal := by
  have hstart : g.start = g := (callee_called hcallee).start
  have hbusy : BusyLegal s g (f :: K) :=
    { wf := hs.wf
      level := hs.level.trans (hlevel.trans (hstart ▸ g.level_start).symm)
      stack := stackLegal_cons.2 ⟨hcallee.trans (congrArg some hstart.symm), hs.stack⟩
      count := List.forall_mem_cons.2 ⟨hstart ▸ countLegal_start g s, hs.count⟩
      label := hstart ▸ labelLegal_start g s }
  exact hbusy.posLegal_goto

/-- A caller that goes on stands at a later label of its body, its counter as before; the label holds
what the body called has returned. -/
theorem afterCall_goesOn {c f g : Frame} {r : Ret} {s s' : State} (h : afterCall c r s = some (.goesOn g s')) :
    g.start = c.start ∧ g.level = .high ∧ s'.cnt = s.cnt ∧ (countLegal s c = true → countLegal s' g = true) ∧
      (returnLegal s f r = true → labelLegal s' g = true) := by
  unfold afterCall at h
  split at h <;> cases h
  all_goals refine ⟨rfl, rfl, rfl, fun hc => hc, fun hr => ?_⟩
  any_goals rfl
  exact hr

/-- A caller that ends too is not ANTICOLL, and has nothing to return. -/
theorem afterCall_ends_return {c : Frame} {r : Ret} {s s' : State} (h : afterCall c r s = some (.ends s')) :
    s'.cnt = s.cnt ∧ returnLegal s' c .nothing = true := by
  unfold afterCall at h
  split at h <;> cases h
  all_goals exact ⟨rfl, rfl⟩

theorem complete_posLegal {f : Frame} {r : Ret} {s : State} (hwf : s.cfg.wf = true) (hcs : s.cs = .high) :
    (complete f r s).PosLegal := by
  unfold complete
  split <;> exact (posLegal_idle_iff rfl).2 ⟨hwf, hcs⟩

/-- What holds while a return unwinds the stack. -/
structure Returning (s : State) (f : Frame) (r : Ret) (K : List Frame) : Prop where
  wf : s.cfg.wf = true
  cs : s.cs = .high
  stack : stackLegal s f K = true
  count : ∀ g ∈ K, countLegal s g = true
  result : returnLegal s f r = true

theorem Returning.ends {s s' : State} {c f : Frame} {r : Ret} {K : List Frame} (h : Returning s f r (c :: K))
    (he : afterCall c r s = some (.ends s')) : Returning s' c .nothing K where
  wf := (afterCall_ends he).cfg ▸ h.wf
  cs := (afterCall_ends he).cs.trans h.cs
  stack := by
    obtain ⟨hcallee, hK⟩ := stackLegal_cons.1 h.stack
    have hlt := rank_lt_of_calls hcallee
    exact stackLegal_congr hK (afterCall_ends he).cfg (afterCall_ends he).dLat (.inr (by omega))
  count g hg := countLegal_congr (afterCall_ends he).cfg (afterCall_ends_return he).1
    (h.count g (List.mem_cons_of_mem c hg))
  result := (afterCall_ends_return he).2

theorem Returning.goesOn {s s' : State} {c f g : Frame} {r : Ret} {K : List Frame}
    (h : Returning s f r (c :: K)) (hg : afterCall c r s = some (.goesOn g s')) : BusyLegal s' g K := by
  obtain ⟨hstart, hlevel, hcnt, hcount, hlabel⟩ := afterCall_goesOn (f := f) hg
  obtain ⟨hcallee, hK⟩ := stackLegal_cons.1 h.stack
  have hlt := rank_lt_of_calls hcallee
  obtain ⟨hcountc, hcountK⟩ := List.forall_mem_cons.1 h.count
  exact
    { wf := (afterCall_goes hg).cfg ▸ h.wf
      level := ((afterCall_goes hg).cs.trans h.cs).trans hlevel.symm
      stack := stackLegal_of_start_eq hstart
        (stackLegal_congr hK (afterCall_goes hg).cfg (afterCall_goes hg).dLat (.inr (by omega)))
      count := List.forall_mem_cons.2 ⟨hcount hcountc,
        fun d hd => countLegal_congr (afterCall_goes hg).cfg hcnt (hcountK d hd)⟩
      label := hlabel h.result }

theorem Unwinds.posLegal {K : List Frame} {f : Frame} {r : Ret} {s t : State} (h : Unwinds K f r s t) :
    Returning s f r K → t.PosLegal := by
  induction h with
  | completes f r s => exact fun hs => complete_posLegal hs.wf hs.cs
  | goesOn hg => exact fun hs => (hs.goesOn hg).posLegal_goto
  | ends he _ ih => exact fun hs => ih (hs.ends he)

theorem Returns.returning {f : Frame} {K : List Frame} {r : Ret} {s s' : State} (h : Returns f s r s')
    (hs : BusyLegal s f K) : Returning s' f r K where
  wf := h.works.cfg ▸ hs.wf
  cs := h.level hs.level
  stack := stackLegal_congr hs.stack h.works.cfg h.works.dLat (.inl h.tmp)
  count g hg := countLegal_congr h.works.cfg h.cnt (hs.count g (List.mem_cons_of_mem f hg))
  result := h.result hs.label

theorem raise_of_deselected {s : State} (h : s.cs = .high) (o : OpCode) (st : Status) :
    raise (some o) st s = respond (Response.plain o st) s := by
  simp [raise, h]

theorem raise_posLegal {s : State} (hwf : s.cfg.wf = true) (op : Option OpCode) (st : Status) :
    (raise op st s).PosLegal := by
  have hlow : s.cs = .low ∨ s.cs = .high := by cases s.cs <;> simp
  unfold raise
  obtain hc | hc := hlow <;> rw [hc] <;> cases op
  · exact (posLegal_idle_iff rfl).2 ⟨hwf, rfl⟩
  · exact (posLegal_idle_iff rfl).2 ⟨hwf, rfl⟩
  · exact (posLegal_idle_iff rfl).2 ⟨hwf, hc⟩
  · exact (posLegal_idle_iff rfl).2 ⟨hwf, hc⟩

theorem Moves.posLegal {f : Frame} {K : List Frame} {s t : State} (h : Moves f K s t) (hs : BusyLegal s f K) :
    t.PosLegal := by
  cases h with
  | goes hg => exact (hg.busyLegal hs).posLegal_goto
  | calls hlevel hcallee => exact call_posLegal hcallee hlevel hs
  | returns hr hret => exact (unwinds_of_ret hret).posLegal (hr.returning hs)
  | raises _ => exact raise_posLegal hs.wf _ _

/-! ## The step -/

theorem hardReset_posLegal {s : State} (hwf : s.cfg.wf = true) : (hardReset s).PosLegal :=
  (posLegal_idle_iff rfl).2 ⟨hwf, rfl⟩

theorem accept_posLegal {s : State} {op : OpCode} {a d : Byte} {f : Frame} (hwf : s.cfg.wf = true)
    (hcs : s.cs = .high) (hstart : f.start = f) (hroot : f.isRoot = true) : (accept op a d f s).PosLegal :=
  (posLegal_busy_iff (f := f) (K := []) rfl).2
    { wf := hwf
      level := hcs.trans (hstart ▸ f.level_start).symm
      stack := hroot
      count := List.forall_mem_singleton.2 (hstart ▸ countLegal_start f _)
      label := hstart ▸ labelLegal_start f _ }

theorem takeReset_posLegal {s : State} (h : s.PosLegal) : (takeReset s).2.PosLegal := by
  rw [takeReset_snd]
  obtain hrun | ⟨f, K, hrun⟩ : s.run = .idle ∨ ∃ f K, s.run = .busy f K := by cases s.run <;> simp
  · have hs := (posLegal_idle_iff hrun).1 h
    exact (posLegal_idle_iff (s := { s with resetIn := s.resetIn.tail }) hrun).2 hs
  · have hs := (posLegal_busy_iff hrun).1 h
    exact (posLegal_busy_iff (s := { s with resetIn := s.resetIn.tail }) hrun).2
      ⟨hs.wf, hs.level, stackLegal_congr hs.stack rfl rfl (.inl rfl), hs.count, hs.label⟩

theorem Steps.posLegal {s t : State} (h : Steps s t) (hs : s.PosLegal) : t.PosLegal := by
  cases h with
  | resets => exact hardReset_posLegal hs.wf
  | moves hrun hadvance => exact (advance_moves hadvance).posLegal ((posLegal_busy_iff hrun).1 hs)
  | waits _ => exact hs
  | accepts hrun _ hstart hroot =>
    obtain ⟨hwf, hcs⟩ := (posLegal_idle_iff hrun).1 hs
    exact accept_posLegal hwf hcs hstart hroot
  | rejects _ _ => exact raise_posLegal (s := latchCommand _ _ _ { s with cmds := _ }) hs.wf _ _

/-- Settles O46: each kind of step keeps each clause of a legal position. -/
theorem stepKeepsPositionsLegal : Obligations.StepKeepsPositionsLegal :=
  fun _ _ hs h => (steps_of_step h).posLegal (takeReset_posLegal hs)

end Sys2Proof.Machine
end

section
/-! PROOF. Every step keeps the emitted responses legal and the acceptances answered: which response each kind of end emits, and that nothing else of a step touches commands or responses. -/

namespace Sys2Proof.Machine

/-! ## Commands and responses in the history -/

@[simp] theorem respond_responses (r : Response) (s : State) : (respond r s).responses = s.responses ++ [r] := by
  simp [State.responses, List.filterMap_append, Event.response?]

@[simp] theorem latchCommand_responses (op : OpCode) (a d : Byte) (s : State) :
    (latchCommand op a d s).responses = s.responses := by
  simp [State.responses, List.filterMap_append, Event.response?]

@[simp] theorem csh_responses (s : State) : (csh s).responses = s.responses := by
  simp [State.responses, List.filterMap_append, Event.response?]

/-- The commands accepted. -/
def State.accepts (s : State) : Nat := s.history.countP Event.isCmd

@[simp] theorem respond_accepts (r : Response) (s : State) : (respond r s).accepts = s.accepts := by
  simp [State.accepts, Event.isCmd]

@[simp] theorem latchCommand_accepts (op : OpCode) (a d : Byte) (s : State) :
    (latchCommand op a d s).accepts = s.accepts + 1 := by
  simp [State.accepts, Event.isCmd]

@[simp] theorem csh_accepts (s : State) : (csh s).accepts = s.accepts := by
  simp [State.accepts, Event.isCmd]

/-- A primitive leaves at most one bus event. -/
theorem Prim.history {s s' : State} (h : Prim s s') :
    s'.history = s.history ∨ ∃ e, s'.history = s.history ++ [.bus e] := by
  cases h with
  | none => exact .inl rfl
  | select _ => exact .inr ⟨_, rfl⟩
  | send tx _ => exact .inr ⟨_, rfl⟩
  | csh => exact .inr ⟨_, rfl⟩
  | wait n _ => exact .inr ⟨_, rfl⟩
  | rsth => exact .inr ⟨_, rfl⟩

theorem Works.history {s s' : State} (h : Works s s') :
    s'.history = s.history ∨ ∃ e, s'.history = s.history ++ [.bus e] := by
  obtain ⟨s1, hprim, hsilent⟩ := h
  rw [hsilent.history]
  exact hprim.history

theorem Works.responses {s s' : State} (h : Works s s') : s'.responses = s.responses := by
  unfold State.responses
  obtain e | ⟨b, e⟩ := h.history <;> rw [e]
  simp [List.filterMap_append, Event.response?]

theorem Works.accepts {s s' : State} (h : Works s s') : s'.accepts = s.accepts := by
  unfold State.accepts
  obtain e | ⟨b, e⟩ := h.history <;> rw [e]
  simp [Event.isCmd]

/-! ## The abnormal completion (60_exceptions.md R217) -/

theorem raise_some (op : OpCode) (st : Status) (s : State) :
    ∃ u, (u = s ∨ u = csh s) ∧ raise (some op) st s = respond (Response.plain op st) u := by
  unfold raise
  cases s.cs with
  | low => exact ⟨csh s, .inr rfl, rfl⟩
  | high => exact ⟨s, .inl rfl, rfl⟩

theorem raise_none (st : Status) (s : State) :
    ∃ u, (u = s ∨ u = csh s) ∧ raise none st s = { u with run := .idle } := by
  unfold raise
  cases s.cs with
  | low => exact ⟨csh s, .inr rfl, rfl⟩
  | high => exact ⟨s, .inl rfl, rfl⟩

/-! ## Legal responses (10_state.md R30; 60_exceptions.md R211) -/

/-- A response with no UID. -/
theorem legal_of_noUid {op : OpCode} {st : Status} {b : Byte} {p : Bool} (hst : statusAllowed op st = true)
    (hdata : op ≠ 0x2 → b = 0) (hpresence : op ≠ 0x9 → op ≠ 0xB → p = false)
    (hreqp : op = 0x9 → (st = .ok ↔ p = true)) (huid : op = 0xA ∨ op = 0xB → st ≠ .ok) :
    ({ Response.plain op st with data := b, presence := p } : Response).Legal where
  status := hst
  data := hdata
  presence := hpresence
  uidOps _ _ := rfl
  uidEmpty _ := ⟨rfl, rfl⟩
  uidWhole h := absurd rfl h
  reqpOk := hreqp
  uidOk h := iff_of_false (huid h) (by decide : (0 : BitVec 4) ≠ 10)

/-- A response with a whole UID. -/
theorem legal_of_uid {op : OpCode} {p : Bool} {raw : Buf} {str : UidStr} (hop : op = 0xA ∧ p = false ∨ op = 0xB)
    (hstr : str = formatUid raw) :
    (Response.withUid { Response.plain op .ok with presence := p } (.uid raw str)).Legal where
  status := by
    obtain ⟨rfl, _⟩ | rfl := hop
    · exact (by decide : statusAllowed 0xA .ok = true)
    · exact (by decide : statusAllowed 0xB .ok = true)
  data _ := rfl
  presence _ hB := hop.elim And.right (absurd · hB)
  uidOps hA hB := hop.elim (fun h => absurd h.1 hA) (absurd · hB)
  uidEmpty h := absurd h (by decide : (10 : BitVec 4) ≠ 0)
  uidWhole _ := ⟨rfl, hstr⟩
  reqpOk h := by
    obtain ⟨rfl, _⟩ | rfl := hop
    · exact absurd h (by decide : (0xA : OpCode) ≠ 0x9)
    · exact absurd h (by decide : (0xB : OpCode) ≠ 0x9)
  uidOk _ := iff_of_true rfl rfl

/-- A response that is no OK of a card command has no field but its status. -/
theorem plain_legal {op : OpCode} {st : Status} (hst : statusAllowed op st = true)
    (hok : op ∈ ([0x9, 0xA, 0xB] : List OpCode) → st ≠ .ok) : (Response.plain op st).Legal :=
  legal_of_noUid (b := 0) (p := false) hst (fun _ => rfl) (fun _ _ => rfl)
    (fun h => iff_of_false (hok (by simp [h])) Bool.false_ne_true) (fun h => hok (by simpa using .inr h))

theorem absentStatus_ne_ok (timedOut : Bool) (lvl : Byte) : absentStatus timedOut lvl ≠ .ok := by
  unfold absentStatus
  split
  · nofun
  · split <;> nofun

theorem absentStatus_allowed {op : OpCode} (hop : op = 0x9 ∨ op = 0xB) (timedOut : Bool) (lvl : Byte) :
    statusAllowed op (absentStatus timedOut lvl) = true := by
  unfold absentStatus
  obtain rfl | rfl := hop <;> split
  · decide
  · split <;> decide
  · decide
  · split <;> decide

/-- REQP's response. -/
theorem reqp_response_legal (s : State) :
    ({ Response.plain 0x9 (reqpStatus s.presence s.timedOut s.lvl) with presence := s.presence } : Response).Legal := by
  refine legal_of_noUid (b := 0) ?_ (fun _ => rfl) (fun h => absurd rfl h) (fun _ => ?_)
    (fun h => absurd h (by decide : ¬((0x9 : OpCode) = 0xA ∨ (0x9 : OpCode) = 0xB)))
  · unfold reqpStatus
    split
    · decide
    · exact absentStatus_allowed (.inl rfl) _ _
  · unfold reqpStatus
    cases s.presence with
    | true => exact iff_of_true rfl rfl
    | false => exact iff_of_false (absentStatus_ne_ok _ _) Bool.false_ne_true

/-- The response to ANTICOLL's result, of ANTICOLL itself or of GETUID. -/
theorem anticoll_response_legal {op : OpCode} {p : Bool} {s : State} {u : AnticollResult}
    (hop : op = 0xA ∧ p = false ∨ op = 0xB) (hu : labelLegal s (.getuid (.s4 u)) = true) :
    (Response.withUid { Response.plain op u.status with presence := p } u).Legal := by
  cases u with
  | empty =>
    refine legal_of_noUid (b := 0) ?_ (fun _ => rfl) (fun _ hB => hop.elim And.right (absurd · hB)) ?_ nofun
    · obtain ⟨rfl, _⟩ | rfl := hop <;> decide
    · obtain ⟨rfl, _⟩ | rfl := hop <;> exact fun h => absurd h (by decide)
  | uid raw str =>
    have hstr : raw = s.buf ∧ str = formatUid raw := by simpa [labelLegal] using hu
    exact legal_of_uid hop hstr.2

theorem ok_legal {op : OpCode} (h : op ∈ ([0x1, 0x2, 0x3, 0x4, 0x5, 0x6, 0x7, 0x8] : List OpCode)) :
    (Response.plain op .ok).Legal := by
  have hcase : ∀ o ∈ ([0x1, 0x2, 0x3, 0x4, 0x5, 0x6, 0x7, 0x8] : List OpCode),
      statusAllowed o .ok = true ∧ o ∉ ([0x9, 0xA, 0xB] : List OpCode) := by decide
  exact plain_legal (hcase op h).1 fun hcard => absurd hcard (hcase op h).2

theorem getuidResponse_legal {f : Frame} {r : Ret} {s : State} (hr : returnLegal s f r = true) :
    (getuidResponse r s).Legal := by
  cases r with
  | nothing => exact plain_legal (absentStatus_allowed (.inr rfl) _ _) fun _ => absentStatus_ne_ok _ _
  | byte b => exact plain_legal (absentStatus_allowed (.inr rfl) _ _) fun _ => absentStatus_ne_ok _ _
  | anticoll u => exact anticoll_response_legal (.inr rfl) hr

/-- A command that completes normally answers a legal response. -/
theorem responseOf_legal {f : Frame} {r : Ret} {s : State} {op : OpCode} (hop : f.commandOp = some op)
    (hr : returnLegal s f r = true) : (responseOf op f r s).Legal := by
  cases f with
  | wrreg a v l =>
    cases a <;> cases v <;> cases hop
    exact ok_legal (by decide)
  | rdreg a fill l =>
    cases a <;> cases fill <;> cases hop
    cases r with
    | byte b =>
      exact legal_of_noUid (by decide) (fun h => absurd rfl h) (fun _ _ => rfl)
        (fun h => absurd h (by decide)) (fun h => absurd h (by decide))
    | nothing => exact ok_legal (by decide)
    | anticoll u => exact ok_legal (by decide)
  | wburst2 a v w l => cases hop
  | setbits a m l => cases hop; exact ok_legal (by decide)
  | clrbits a m l => cases hop; exact ok_legal (by decide)
  | reset l => cases hop; exact ok_legal (by decide)
  | anton l => cases hop; exact ok_legal (by decide)
  | antoff l => cases hop; exact ok_legal (by decide)
  | init l => cases hop; exact ok_legal (by decide)
  | reqp m l => cases hop; exact reqp_response_legal s
  | anticoll l =>
    cases hop
    cases r with
    | anticoll u => exact anticoll_response_legal (p := false) (.inl ⟨rfl, rfl⟩) hr
    | nothing => cases hr
    | byte b => cases hr
  | drain l => cases hop
  | getuid l => cases hop; exact getuidResponse_legal hr

/-- RESET raises for itself or for INIT (42_chip_control.md R151, R156). -/
theorem commandOp_of_reset {s : State} {l : ResetAt} {K : List Frame} (h : stackLegal s (.reset l) K = true) :
    (outermost (.reset l) K).commandOp = some 0x5 ∨ (outermost (.reset l) K).commandOp = some 0x8 := by
  cases K with
  | nil => exact .inl rfl
  | cons c K =>
    obtain ⟨hcallee, hK⟩ := stackLegal_cons.1 h
    have hrank : c.rank = 3 := rank_of_calls_loop (callee_called hcallee) rfl
    have hle := length_add_rank_le hK
    have hnil : K = [] := List.eq_nil_of_length_eq_zero (by omega)
    subst hnil
    cases c with
    | init l => exact .inr rfl
    | getuid l => cases l <;> cases hcallee
    | _ => cases hrank

/-! ## The step keeps the responses legal -/

theorem responsesLegal_of_eq {s t : State} (h : t.responses = s.responses) (hs : s.ResponsesLegal) :
    t.ResponsesLegal := by
  unfold State.ResponsesLegal
  rw [h]
  exact hs

theorem respond_responsesLegal {r : Response} {s : State} (hs : s.ResponsesLegal) (hr : r.Legal) :
    (respond r s).ResponsesLegal := by
  unfold State.ResponsesLegal
  rw [respond_responses]
  exact List.forall_mem_append.2 ⟨hs, List.forall_mem_singleton.2 hr⟩

theorem raise_responsesLegal {op : OpCode} {st : Status} {s : State} (hs : s.ResponsesLegal)
    (hr : (Response.plain op st).Legal) : (raise (some op) st s).ResponsesLegal := by
  obtain ⟨u, rfl | rfl, e⟩ := raise_some op st s <;> rw [e]
  · exact respond_responsesLegal hs hr
  · exact respond_responsesLegal (responsesLegal_of_eq (csh_responses s) hs) hr

theorem complete_responsesLegal {f : Frame} {r : Ret} {s : State} (hs : s.ResponsesLegal)
    (hr : returnLegal s f r = true) : (complete f r s).ResponsesLegal := by
  unfold complete
  split
  · next op hop => exact respond_responsesLegal hs (responseOf_legal hop hr)
  · exact hs

theorem Silent.responses {s s' : State} (h : Silent s s') : s'.responses = s.responses := by
  unfold State.responses; rw [h.history]

theorem Unwinds.responsesLegal {K : List Frame} {f : Frame} {r : Ret} {s t : State} (h : Unwinds K f r s t) :
    Returning s f r K → s.ResponsesLegal → t.ResponsesLegal := by
  induction h with
  | completes f r s => exact fun hr hs => complete_responsesLegal hs hr.result
  | goesOn hg => exact fun _ hs => responsesLegal_of_eq (afterCall_goes hg).responses hs
  | ends he _ ih => exact fun hr hs => ih (hr.ends he) (responsesLegal_of_eq (afterCall_ends he).responses hs)

theorem Moves.responsesLegal {f : Frame} {K : List Frame} {s t : State} (h : Moves f K s t)
    (hrun : s.run = .busy f K) (hpos : BusyLegal s f K) (hs : s.ResponsesLegal) : t.ResponsesLegal := by
  cases h with
  | goes hg => exact responsesLegal_of_eq hg.works.responses hs
  | calls _ _ => exact hs
  | returns hr hret =>
    exact (unwinds_of_ret hret).responsesLegal (hr.returning hpos) (responsesLegal_of_eq hr.works.responses hs)
  | raises hf =>
    subst hf
    rw [hrun]
    obtain hop | hop : (Run.busy (.reset .s8) K).commandOp = some 0x5 ∨
        (Run.busy (.reset .s8) K).commandOp = some 0x8 := commandOp_of_reset hpos.stack
    · rw [hop]; exact raise_responsesLegal hs (plain_legal (by decide) nofun)
    · rw [hop]; exact raise_responsesLegal hs (plain_legal (by decide) nofun)

theorem Steps.responsesLegal {s t : State} (h : Steps s t) (hpos : s.PosLegal) (hs : s.ResponsesLegal) :
    t.ResponsesLegal := by
  cases h with
  | resets => exact List.forall_mem_nil _
  | moves hrun hadvance =>
    exact (advance_moves hadvance).responsesLegal hrun ((posLegal_busy_iff hrun).1 hpos) hs
  | waits _ => exact hs
  | accepts _ _ _ _ => exact responsesLegal_of_eq (latchCommand_responses _ _ _ _) hs
  | rejects _ hop =>
    exact raise_responsesLegal (responsesLegal_of_eq (latchCommand_responses _ _ _ _) hs)
      (plain_legal (decide_eq_true hop) nofun)

/-- Settles O49: the response of each kind of end is legal, and no other part of a step emits one. -/
theorem stepKeepsResponsesLegal : Obligations.StepKeepsResponsesLegal := by
  intro s t hpos hs h
  have htaken : (takeReset s).2.ResponsesLegal := by rw [takeReset_snd]; exact hs
  exact (steps_of_step h).responsesLegal (takeReset_posLegal hpos) htaken

/-! ## Every acceptance is answered once -/

/-- The responses a position with this command still owes. -/
def owed : Option OpCode → Nat
  | some _ => 1
  | none => 0

/-- `AnswersMatch` with the command in progress given apart from the state. -/
def Owes (op : Option OpCode) (s : State) : Prop := s.accepts = s.responses.length + owed op

theorem answersMatch_iff (s : State) : s.AnswersMatch ↔ Owes s.run.commandOp s := Iff.rfl

theorem Owes.congr {op : Option OpCode} {s t : State} (h : Owes op s) (ha : t.accepts = s.accepts)
    (hr : t.responses = s.responses) : Owes op t := by
  unfold Owes at *
  rw [ha, hr]
  exact h

theorem Frame.commandOp_start (f : Frame) : f.start.commandOp = f.commandOp := by
  cases f with
  | wrreg a v l => cases a <;> cases v <;> rfl
  | rdreg a fill l => cases a <;> cases fill <;> rfl
  | _ => rfl

theorem commandOp_of_start_eq {f g : Frame} (h : g.start = f.start) (K : List Frame) :
    (outermost g K).commandOp = (outermost f K).commandOp :=
  outermost_commandOp g f (by rw [← g.commandOp_start, h, f.commandOp_start]) K

theorem Owes.respond {op : OpCode} {s : State} (h : Owes (some op) s) (r : Response) :
    (respond r s).AnswersMatch := by
  rw [answersMatch_iff]
  unfold Owes at *
  rw [respond_accepts, respond_responses, List.length_append, h]
  rfl

theorem Owes.raise {op : Option OpCode} {s : State} (h : Owes op s) (st : Status) :
    (raise op st s).AnswersMatch := by
  cases op with
  | some o =>
    obtain ⟨u, rfl | rfl, e⟩ := raise_some o st s <;> rw [e]
    · exact h.respond _
    · exact (h.congr (csh_accepts s) (csh_responses s)).respond _
  | none =>
    obtain ⟨u, rfl | rfl, e⟩ := raise_none st s <;> rw [e]
    · exact h
    · exact h.congr (csh_accepts s) (csh_responses s)

theorem Owes.complete {f : Frame} {r : Ret} {s : State} (h : Owes f.commandOp s) :
    (complete f r s).AnswersMatch := by
  unfold Machine.complete
  cases hop : f.commandOp with
  | some op => rw [hop] at h; exact h.respond _
  | none => rw [hop] at h; exact h

theorem Silent.accepts {s s' : State} (h : Silent s s') : s'.accepts = s.accepts := by
  unfold State.accepts; rw [h.history]

theorem Unwinds.answersMatch {K : List Frame} {f : Frame} {r : Ret} {s t : State} (h : Unwinds K f r s t) :
    Owes (outermost f K).commandOp s → t.AnswersMatch := by
  induction h with
  | completes f r s => exact fun hs => hs.complete
  | @goesOn c K f r s g s' hg =>
    intro hs
    have hop : (outermost g K).commandOp = (outermost c K).commandOp :=
      commandOp_of_start_eq (afterCall_goesOn (f := f) hg).1 K
    rw [answersMatch_iff]
    show Owes (outermost g K).commandOp (goto g K s')
    rw [hop]
    exact hs.congr (afterCall_goes hg).accepts (afterCall_goes hg).responses
  | ends he _ ih => exact fun hs => ih (hs.congr (afterCall_ends he).accepts (afterCall_ends he).responses)

theorem Moves.answersMatch {f : Frame} {K : List Frame} {s t : State} (h : Moves f K s t)
    (hrun : s.run = .busy f K) (hs : s.AnswersMatch) : t.AnswersMatch := by
  rw [answersMatch_iff, hrun] at hs
  cases h with
  | @goes g s' hg =>
    rw [answersMatch_iff]
    show Owes (outermost g K).commandOp (goto g K s')
    rw [commandOp_of_start_eq hg.start K]
    exact hs.congr hg.works.accepts hg.works.responses
  | calls _ _ => exact hs
  | returns hr hret => exact (unwinds_of_ret hret).answersMatch (hs.congr hr.works.accepts hr.works.responses)
  | raises _ => rw [hrun]; exact hs.raise _

/-- Acceptance of a command leaves one response owed. -/
theorem owes_latchCommand {s : State} (h : Owes none s) (op : OpCode) (a d : Byte) :
    Owes (some op) (latchCommand op a d s) := by
  unfold Owes at *
  rw [latchCommand_accepts, latchCommand_responses, h]
  rfl

theorem Steps.answersMatch {s t : State} (h : Steps s t) (hs : s.AnswersMatch) : t.AnswersMatch := by
  have idle (hrun : s.run = .idle) (ws : List CmdWord) : Owes none { s with cmds := ws } := by
    rw [answersMatch_iff, hrun] at hs; exact hs
  cases h with
  | resets => rfl
  | moves hrun hadvance => exact (advance_moves hadvance).answersMatch hrun hs
  | waits _ => exact hs
  | @accepts op a d f ws hrun hop _ _ =>
    rw [answersMatch_iff]
    show Owes f.commandOp (accept op a d f { s with cmds := ws })
    rw [hop]
    exact owes_latchCommand (idle hrun ws) op a d
  | @rejects op a d ws hrun _ => exact (owes_latchCommand (idle hrun ws) op a d).raise _

/-- Settles O50: the only steps that accept or answer change what the position owes by as much. -/
theorem stepKeepsAnswersMatched : Obligations.StepKeepsAnswersMatched := by
  intro s t hs h
  have htaken : (takeReset s).2.AnswersMatch := by rw [takeReset_snd]; exact hs
  exact (steps_of_step h).answersMatch htaken

/-! ## Configuration and reset line -/

/-- The configuration is the same, and the reset line is not driven low. -/
def KeepsLine (s t : State) : Prop := t.cfg = s.cfg ∧ (s.rst = .high → t.rst = .high)

theorem KeepsLine.trans {s t u : State} (h : KeepsLine s t) (h' : KeepsLine t u) : KeepsLine s u :=
  ⟨h'.1.trans h.1, h'.2 ∘ h.2⟩

theorem Prim.keepsLine {s t : State} (h : Prim s t) : KeepsLine s t := by
  cases h with
  | none => exact ⟨rfl, id⟩
  | select _ => exact ⟨rfl, id⟩
  | send tx _ => exact ⟨rfl, id⟩
  | csh => exact ⟨rfl, id⟩
  | wait n _ => exact ⟨rfl, id⟩
  | rsth => exact ⟨rfl, fun _ => rfl⟩

theorem Silent.keepsLine {s t : State} (h : Silent s t) : KeepsLine s t := ⟨h.cfg, h.rst.trans⟩

theorem Ends.keepsLine {s t : State} (h : Ends s t) : KeepsLine s t := by
  obtain ⟨g, K, rfl⟩ | ⟨r, rfl⟩ | rfl := h <;> exact ⟨rfl, id⟩

theorem raise_keepsLine (op : Option OpCode) (st : Status) (s : State) : KeepsLine s (raise op st s) := by
  cases op with
  | some o => obtain ⟨u, rfl | rfl, e⟩ := raise_some o st s <;> rw [e] <;> exact ⟨rfl, id⟩
  | none => obtain ⟨u, rfl | rfl, e⟩ := raise_none st s <;> rw [e] <;> exact ⟨rfl, id⟩

theorem Advances.keepsLine {s t : State} (h : Advances s t) : KeepsLine s t := by
  obtain ⟨s1, s2, hprim, hsilent, hends⟩ | ⟨op, st, rfl⟩ := h
  · exact (hprim.keepsLine.trans hsilent.keepsLine).trans hends.keepsLine
  · exact raise_keepsLine op st s

theorem Steps.keepsLine {s t : State} (h : Steps s t) : KeepsLine s t := by
  cases h with
  | resets => exact ⟨rfl, fun _ => rfl⟩
  | moves _ hadvance => exact (advance_cases hadvance).keepsLine
  | waits _ => exact ⟨rfl, id⟩
  | accepts _ _ _ _ => exact ⟨rfl, id⟩
  | @rejects op a d ws _ _ => exact raise_keepsLine (some op) .illegalOp (latchCommand op a d { s with cmds := ws })

/-- Settles O52: no part of a step writes the configuration, and RSTH and the reset drive the line high. -/
theorem configurationAndResetLineAreKept : Obligations.ConfigurationAndResetLineAreKept := by
  intro s t h
  have hline := (steps_of_step h).keepsLine
  rw [takeReset_snd] at hline
  exact hline

/-! ## The reset state -/

/-- Settles O7: the invariants of a state with no history and no position. -/
theorem resetMeetsTheInvariants : Obligations.ResetMeetsTheInvariants :=
  ⟨(posLegal_idle_iff rfl).2 ⟨by decide, rfl⟩, rfl, List.forall_mem_nil _, rfl, rfl⟩

end Sys2Proof.Machine
end

section
/-! PROOF. The command port (10_state.md R26, R27): what an idle block does with the word on it, and that a busy block's step is the same whatever inputs are to come. -/

namespace Sys2Proof.Machine

/-! ## Acceptance -/

/-- Every op code starts its command's first frame, or is reserved (30_encoding.md R100, R101). -/
theorem exec_commandOf (op : OpCode) (a d : Byte) (s : State) :
    (op ∉ ([0x0, 0xC, 0xD, 0xE, 0xF] : List OpCode) ∧
      ∃ f : Frame, f.commandOp = some op ∧ f.start = f ∧ f.isRoot = true ∧
        exec (commandOf op a d) s = beginCommand op a d f s) ∨
    (op ∈ ([0x0, 0xC, 0xD, 0xE, 0xF] : List OpCode) ∧ exec (commandOf op a d) s = beginReserved op a d s) := by
  have hop : op = BitVec.ofNat 4 op.toNat := by simp
  have hlt : op.toNat < 16 := op.isLt
  generalize op.toNat = n at hop hlt
  subst hop
  interval_cases n
  · exact .inr ⟨by decide, rfl⟩
  · exact .inl ⟨by decide, .wrreg .latched .latched .s1, rfl, rfl, rfl, rfl⟩
  · exact .inl ⟨by decide, .rdreg .latched .param .s1, rfl, rfl, rfl, rfl⟩
  · exact .inl ⟨by decide, .setbits .latched .latched .s1, rfl, rfl, rfl, rfl⟩
  · exact .inl ⟨by decide, .clrbits .latched .latched .s1, rfl, rfl, rfl, rfl⟩
  · exact .inl ⟨by decide, .reset .s1, rfl, rfl, rfl, rfl⟩
  · exact .inl ⟨by decide, .anton .s1, rfl, rfl, rfl, rfl⟩
  · exact .inl ⟨by decide, .antoff .s1, rfl, rfl, rfl, rfl⟩
  · exact .inl ⟨by decide, .init .s1, rfl, rfl, rfl, rfl⟩
  · exact .inl ⟨by decide, .reqp .latched .s1, rfl, rfl, rfl, rfl⟩
  · exact .inl ⟨by decide, .anticoll .s1, rfl, rfl, rfl, rfl⟩
  · exact .inl ⟨by decide, .getuid .s1, rfl, rfl, rfl, rfl⟩
  all_goals exact .inr ⟨by decide, rfl⟩

/-- The step of an idle block with a word on its port. -/
theorem step_port {s : State} {w : CmdWord} {ws : List CmdWord} (hrun : s.run = .idle) (hreset : s.resetIn = [])
    (hcmds : s.cmds = w :: ws) : step s = exec (decodeCommand w) { s with cmds := ws } := by
  simp [step, takeReset, hreset, work, hrun, fetch, hcmds]

theorem acceptReserved_of_deselected {s : State} (hcs : s.cs = .high) (op : OpCode) (a d : Byte) :
    acceptReserved op a d s = { s with
      run := .idle, aLat := a, dLat := d,
      history := s.history ++ [.cmd op a d, .response (answer op .illegalOp)] } := by
  unfold acceptReserved
  rw [raise_of_deselected (s := latchCommand op a d s) hcs]
  simp [respond, latchCommand, answer, Response.plain, Buf.zero, UidStr.zero]

/-- Settles O8: the step is exec of the decoded word, which is acceptance. -/
theorem idleBlockAcceptsTheCommand : Obligations.IdleBlockAcceptsTheCommand := by
  intro s w ws hrun hreset hcmds
  have hidle : ({ s with cmds := ws } : State).run = .idle := hrun
  rw [step_port hrun hreset hcmds, decodeCommand]
  obtain ⟨hop, f, hf, hstart, hroot, he⟩ | ⟨hop, he⟩ :=
    exec_commandOf (cmdOp w) (cmdAddr w) (cmdData w) { s with cmds := ws }
  · refine ⟨fun _ => ⟨f, hf, hstart, hroot, ?_⟩, fun h => absurd h hop⟩
    rw [he, beginCommand_idle hidle]
    rfl
  · refine ⟨fun h => absurd hop h, fun _ hcs => ?_⟩
    rw [he, beginReserved_idle hidle, acceptReserved_of_deselected (s := { s with cmds := ws }) hcs, hrun]

/-- Settles O10: an idle block with an empty port fetches nothing. -/
theorem idleBlockWithoutCommandWaits : Obligations.IdleBlockWithoutCommandWaits :=
  fun _ hrun hreset hcmds => step_idle hrun hreset hcmds

/-- Settles O6: the values are the reset state's own, and an idle block with an empty port waits. -/
theorem resetValuesOfR50 : Obligations.ResetValuesOfR50 :=
  ⟨rfl, rfl, rfl, rfl, rfl, rfl, rfl, ⟨0, rfl⟩, step_idle rfl rfl rfl⟩

/-- A table word below 2^20, in 20 bits or in whole bytes, is a command word (log entry 10). -/
theorem tableEncoded_command {nbits w : Nat} (hbits : nbits = 20 ∨ nbits = 24) (hw : w < 2 ^ 20) :
    tableEncoded nbits w = some (.command (BitVec.ofNat 20 w)) := by
  unfold tableEncoded
  rw [if_neg (by omega), if_pos hbits, if_pos hw]

/-- Settles O11: the step of a port, and a placed word is the word on the port. -/
theorem stepRunsTheCommandOnThePort : Obligations.StepRunsTheCommandOnThePort := by
  refine ⟨fun s w ws hrun hreset hcmds => step_port hrun hreset hcmds, fun s nbits w hbits hw => ⟨?_, ?_⟩⟩
  · unfold decodeTableWord
    rw [tableEncoded_command hbits hw]
    rfl
  · unfold State.withFetchWord placeTableWord
    rw [tableEncoded_command hbits hw]
    exact step_port rfl rfl rfl

/-! ## The inputs to come -/

/-- `s` with other commands presented and other levels of the reset input to come. -/
def State.withInputs (ws : List CmdWord) (bs : List Bool) (s : State) : State :=
  { s with cmds := ws, resetIn := bs }

/-- The outcome with its next state changed by `g`. -/
def mapNext (g : State → State) : Outcome → Outcome
  | .next t => .next (g t)
  | .fault r => .fault r
  | .refused r => .refused r

section
variable (ws : List CmdWord) (bs : List Bool)

theorem mapNext_ite {c : Prop} [Decidable c] {g : State → State} {x y x' y' : Outcome} (hx : x' = mapNext g x)
    (hy : y' = mapNext g y) : (if c then x' else y') = mapNext g (if c then x else y) := by
  split
  · exact hx
  · exact hy

theorem csl_withInputs (s : State) :
    csl (s.withInputs ws bs) = (csl s).map (State.withInputs ws bs) := by
  simp only [csl, State.withInputs]
  cases s.cs <;> rfl

theorem exchange_withInputs (tx : Byte) (s : State) :
    exchange tx (s.withInputs ws bs) = (exchange tx s).map fun p => (p.1, p.2.withInputs ws bs) := by
  simp only [exchange, State.withInputs]
  cases s.cs <;> rfl

theorem transmit_withInputs (tx : Byte) (s : State) :
    transmit tx (s.withInputs ws bs) = (transmit tx s).map (State.withInputs ws bs) := by
  unfold transmit
  rw [exchange_withInputs]
  cases exchange tx s <;> rfl

theorem delay_withInputs (n : Nat) (s : State) :
    delay n (s.withInputs ws bs) = (delay n s).map (State.withInputs ws bs) := by
  simp only [delay, State.withInputs]
  cases s.cs <;> rfl

theorem andThen_withInputs (g : Frame) (K : List Frame) (x : Except Fault State) :
    andThen (x.map (State.withInputs ws bs)) (fun s => .next (goto g K s)) =
      mapNext (State.withInputs ws bs) (andThen x fun s => .next (goto g K s)) := by
  cases x <;> rfl

theorem raise_withInputs (op : Option OpCode) (st : Status) (s : State) :
    raise op st (s.withInputs ws bs) = (raise op st s).withInputs ws bs := by
  unfold raise
  rw [show (s.withInputs ws bs).cs = s.cs from rfl]
  cases s.cs <;> cases op <;> rfl

theorem complete_withInputs (f : Frame) (r : Ret) (s : State) :
    complete f r (s.withInputs ws bs) = (complete f r s).withInputs ws bs := by
  have hresponse (op : OpCode) : responseOf op f r (s.withInputs ws bs) = responseOf op f r s := by
    unfold responseOf getuidResponse; rfl
  unfold complete
  cases f.commandOp with
  | some op => simp only [hresponse]; rfl
  | none => rfl

/-- How a caller resumes, with the inputs changed. -/
def Resume.withInputs : Resume → Resume
  | .goesOn g s => .goesOn g (s.withInputs ws bs)
  | .ends s => .ends (s.withInputs ws bs)

theorem afterCall_withInputs (c : Frame) (r : Ret) (s : State) :
    afterCall c r (s.withInputs ws bs) = (afterCall c r s).map (Resume.withInputs ws bs) := by
  unfold afterCall
  split <;> rfl

theorem ret_withInputs (K : List Frame) : ∀ (f : Frame) (r : Ret) (s : State),
    ret K f r (s.withInputs ws bs) = mapNext (State.withInputs ws bs) (ret K f r s) := by
  induction K with
  | nil => intro f r s; simp only [ret, complete_withInputs]; rfl
  | cons c K ih =>
    intro f r s
    simp only [ret, afterCall_withInputs]
    cases afterCall c r s with
    | none => rfl
    | some x =>
      cases x with
      | goesOn g s' => rfl
      | ends s' => exact ih c .nothing s'

/-- The step of a busy block does not look at the inputs to come. -/
theorem advance_withInputs (f : Frame) (K : List Frame) (s : State) :
    advance f K (s.withInputs ws bs) = mapNext (State.withInputs ws bs) (advance f K s) := by
  have selects (g : Frame) : andThen (csl (s.withInputs ws bs)) (fun s => .next (goto g K s)) =
      mapNext (State.withInputs ws bs) (andThen (csl s) fun s => .next (goto g K s)) := by
    rw [csl_withInputs, andThen_withInputs]
  have transmits (tx : Byte) (g : Frame) :
      andThen (transmit tx (s.withInputs ws bs)) (fun s => .next (goto g K s)) =
        mapNext (State.withInputs ws bs) (andThen (transmit tx s) fun s => .next (goto g K s)) := by
    rw [transmit_withInputs, andThen_withInputs]
  have delays (n : Nat) (g : Frame) :
      andThen (delay n (s.withInputs ws bs)) (fun s => .next (goto g K s)) =
        mapNext (State.withInputs ws bs) (andThen (delay n s) fun s => .next (goto g K s)) := by
    rw [delay_withInputs, andThen_withInputs]
  cases f with
  | wrreg a v l =>
    cases l with
    | s1 => exact selects _
    | s2 => exact transmits _ _
    | s3 => exact transmits _ _
    | s4 => exact ret_withInputs ws bs K _ _ (csh s)
  | rdreg a fill l =>
    cases l with
    | s1 => exact selects _
    | s2 => exact transmits _ _
    | s3 =>
      simp only [advance, stepRdreg]
      rw [show fill.byte (s.withInputs ws bs) = fill.byte s from rfl, exchange_withInputs]
      cases exchange (fill.byte s) s <;> rfl
    | s4 r => exact ret_withInputs ws bs K _ _ (csh s)
  | wburst2 a v w l =>
    cases l with
    | s1 => exact selects _
    | s2 => exact transmits _ _
    | s3 => exact transmits _ _
    | s4 => exact transmits _ _
    | s5 => exact ret_withInputs ws bs K _ _ (csh s)
  | setbits a m l => cases l <;> rfl
  | clrbits a m l => cases l <;> rfl
  | reset l =>
    cases l with
    | s2 => exact delays _ _
    | s5 => exact mapNext_ite (ret_withInputs ws bs K _ _ s) rfl
    | s6 => exact delays _ _
    | s8 => exact mapNext_ite (congrArg Host.Outcome.next (raise_withInputs ws bs s.run.commandOp .unresponsive s)) rfl
    | _ => rfl
  | anton l =>
    cases l with
    | s2 => exact mapNext_ite (ret_withInputs ws bs K _ _ s) rfl
    | _ => rfl
  | antoff l => cases l; rfl
  | init l => cases l <;> rfl
  | reqp m l =>
    cases l with
    | s6 => exact delays _ _
    | s10 => exact mapNext_ite rfl rfl
    | s11 => exact delays _ _
    | s13 => exact mapNext_ite rfl rfl
    | s15 => exact ret_withInputs ws bs K _ _ { s with presence := presenceOf s.lvl }
    | _ => rfl
  | anticoll l =>
    cases l with
    | s5 => exact delays _ _
    | s8 => exact mapNext_ite rfl (ret_withInputs ws bs K _ _ s)
    | s11 str => exact ret_withInputs ws bs K _ _ s
    | _ => rfl
  | drain l => rfl
  | getuid l =>
    cases l with
    | s2 => exact mapNext_ite rfl (ret_withInputs ws bs K _ _ s)
    | s4 u => exact ret_withInputs ws bs K _ _ s
    | _ => rfl

end

/-! ## The port of an idle and of a busy block -/

theorem cmdReady_iff (s : State) : s.cmdReady = true ↔ s.run = .idle := by
  unfold State.cmdReady
  cases s.run <;> simp

theorem acceptReserved_cmds (op : OpCode) (a d : Byte) (s : State) : (acceptReserved op a d s).cmds = s.cmds := by
  unfold acceptReserved
  obtain ⟨u, rfl | rfl, e⟩ := raise_some op .illegalOp (latchCommand op a d s) <;> rw [e] <;> rfl

theorem acceptReserved_accepts (op : OpCode) (a d : Byte) (s : State) :
    (acceptReserved op a d s).accepts = s.accepts + 1 := by
  unfold acceptReserved
  obtain ⟨u, rfl | rfl, e⟩ := raise_some op .illegalOp (latchCommand op a d s) <;> rw [e] <;> simp

/-- An idle block takes the word on its port and records one acceptance. -/
theorem step_accepts {s : State} {w : CmdWord} {ws : List CmdWord} (hrun : s.run = .idle)
    (hreset : s.resetIn = []) (hcmds : s.cmds = w :: ws) :
    ∃ t, step s = .next t ∧ t.cmds = ws ∧ t.accepts = s.accepts + 1 := by
  have hidle : ({ s with cmds := ws } : State).run = .idle := hrun
  rw [step_port hrun hreset hcmds, decodeCommand]
  obtain ⟨_, f, _, _, _, he⟩ | ⟨_, he⟩ := exec_commandOf (cmdOp w) (cmdAddr w) (cmdData w) { s with cmds := ws }
  · rw [he, beginCommand_idle hidle]
    exact ⟨_, rfl, rfl, latchCommand_accepts _ _ _ s⟩
  · rw [he, beginReserved_idle hidle]
    exact ⟨_, rfl, acceptReserved_cmds _ _ _ _, acceptReserved_accepts _ _ _ _⟩

theorem Ends.accepts {s t : State} (h : Ends s t) : t.accepts = s.accepts := by
  obtain ⟨g, K, rfl⟩ | ⟨r, rfl⟩ | rfl := h
  · rfl
  · exact respond_accepts r s
  · rfl

theorem raise_accepts (op : Option OpCode) (st : Status) (s : State) : (raise op st s).accepts = s.accepts := by
  cases op with
  | some o =>
    obtain ⟨u, rfl | rfl, e⟩ := raise_some o st s <;> rw [e, respond_accepts]
    exact csh_accepts s
  | none =>
    obtain ⟨u, rfl | rfl, e⟩ := raise_none st s <;> rw [e]
    · rfl
    · exact csh_accepts s

theorem Advances.accepts {s t : State} (h : Advances s t) : t.accepts = s.accepts := by
  obtain ⟨s1, s2, hprim, hsilent, hends⟩ | ⟨op, st, rfl⟩ := h
  · exact hends.accepts.trans (Works.accepts ⟨s1, hprim, hsilent⟩)
  · exact raise_accepts op st s

/-- Settles O9: an idle block accepts by exec of the decoded word; the step of a busy block is the
sequencer's, which looks at no input. -/
theorem busyBlockLooksAtNoCommand : Obligations.BusyBlockLooksAtNoCommand := by
  intro s
  refine ⟨cmdReady_iff s, fun hvalid hready hreset => ?_, fun hbusy hreset t h => ?_⟩
  · cases hcmds : s.cmds with
    | nil => rw [State.cmdValid, hcmds] at hvalid; cases hvalid
    | cons w ws => exact step_accepts ((cmdReady_iff s).1 hready) hreset hcmds
  · obtain ⟨f, K, hrun⟩ : ∃ f K, s.run = .busy f K := by
      cases hrun : s.run with
      | idle => exact absurd hrun hbusy
      | busy f K => exact ⟨f, K, rfl⟩
    have hadvance : advance f K s = .next t := (step_busy hrun hreset).symm.trans h
    obtain ⟨hresetIn, _, _, hcmds, _⟩ := step_monotone hreset h
    refine ⟨hcmds hbusy, (advance_cases hadvance).accepts, fun ws => ?_⟩
    have hstep : step (s.withInputs ws []) = mapNext (State.withInputs ws []) (advance f K s) :=
      (step_busy (s := s.withInputs ws []) hrun rfl).trans (advance_withInputs ws [] f K s)
    rw [hadvance] at hstep
    rw [show ({ s with cmds := ws } : State) = s.withInputs ws [] by rw [State.withInputs, hreset],
      show ({ t with cmds := ws } : State) = t.withInputs ws [] by rw [State.withInputs, hresetIn]]
    exact hstep

/-! ## The reset input -/

/-- Settles O55: an active level takes the whole step, which is the block's own reset. -/
theorem resetInputAtAnyStep : Obligations.ResetInputAtAnyStep := by
  intro s bs hreset
  have hstep : step s = .next (hardReset { s with resetIn := bs }) := by simp [step, takeReset, hreset]
  rw [hstep]
  unfold hardReset
  cases hcs : s.cs <;> rfl

end Sys2Proof.Machine
end

section
/-! PROOF. What the bodies of Safety.lean leave unchanged: each is its start but for chip-select, history, environment and the latches its rule writes (10_state.md R22). -/

namespace Sys2Proof.Machine

namespace Body

/-! ## The branches of ANTICOLL and INIT -/

theorem anticoll_uid {s : State} (h : (anticollSend s).lvl = 5) :
    anticoll s =
      (.uid (drain (anticollSend s)).buf (formatUid (drain (anticollSend s)).buf),
        drain (anticollSend s)) :=
  if_pos h

theorem anticoll_empty {s : State} (h : ¬(anticollSend s).lvl = 5) :
    anticoll s = (.empty, anticollSend s) :=
  if_neg h

/-- INIT S1 to S3: both lines high. -/
abbrev initLines (s : State) : State := rsth (csh s)

theorem init_ok {n : Nat} {s : State} (h : (reset n (initLines s)).1 = true) :
    init n s = (true, anton (initWrites (reset n (initLines s)).2)) :=
  if_pos h

theorem init_unresponsive {n : Nat} {s : State} (h : ¬(reset n (initLines s)).1 = true) :
    init n s = (false, (reset n (initLines s)).2) :=
  if_neg h

/-! ## What each body changes -/

theorem resetPoll_fields (n : Nat) : ∀ {s : State}, s.cs = .high → ∃ tmp cnt env history,
    (resetPoll n s).2 = { s with cs := .high, tmp := tmp, cnt := cnt, env := env, history := history } := by
  induction n with
  | zero => intro s hcs; exact ⟨s.tmp, s.cnt, s.env, s.history, by rw [← hcs]; rfl⟩
  | succ n ih =>
    intro s _
    by_cases h : (resetRead s).tmp &&& 0x10 = 0
    · rw [resetPoll_clear n h]; exact ⟨_, _, _, _, rfl⟩
    · rw [resetPoll_busy n h]; exact ih (s := countPoll (resetRead s)) rfl

theorem reset_fields (n : Nat) (s : State) : ∃ tmp cnt env history,
    (reset n s).2 = { s with cs := .high, tmp := tmp, cnt := cnt, env := env, history := history } :=
  resetPoll_fields n (s := resetSend s) rfl

theorem anton_fields (s : State) : ∃ tmp env history,
    anton s = { s with cs := .high, tmp := tmp, env := env, history := history } := by
  by_cases h : (readTmp (reg s.cfg.aTxControl) s).tmp &&& 0x03 = 0x03
  · rw [anton_on h]; exact ⟨_, _, _, rfl⟩
  · rw [anton_off h]; exact ⟨_, _, _, rfl⟩

theorem init_fields (n : Nat) (s : State) : ∃ tmp cnt env history,
    (init n s).2 =
      { s with cs := .high, rst := .high, tmp := tmp, cnt := cnt, env := env, history := history } := by
  obtain ⟨tmp, cnt, env, history, hreset⟩ := reset_fields n (initLines s)
  by_cases h : (reset n (initLines s)).1 = true
  · obtain ⟨tmp', env', history', hanton⟩ := anton_fields (initWrites (reset n (initLines s)).2)
    rw [init_ok h, hanton, hreset]
    exact ⟨tmp', cnt, env', history', rfl⟩
  · rw [init_unresponsive h, hreset]
    exact ⟨_, _, _, _, rfl⟩

theorem irqPoll_fields (n : Nat) : ∀ {s : State}, s.cs = .high → ∃ irq cnt timedOut env history,
    irqPoll n s =
      { s with cs := .high, irq := irq, cnt := cnt, timedOut := timedOut, env := env, history := history } := by
  induction n with
  | zero => intro s hcs; exact ⟨s.irq, s.cnt, true, s.env, s.history, by rw [← hcs]; rfl⟩
  | succ n ih =>
    intro s _
    by_cases h : (readIrq s).irq &&& 0x30 ≠ 0
    · rw [irqPoll_seen n h]; exact ⟨_, _, _, _, _, rfl⟩
    · rw [irqPoll_unseen n h]; exact ih (s := countPoll (readIrq s)) rfl

theorem reqp_fields (m : Byte) (s : State) : ∃ tmp irq lvl cnt presence timedOut env history,
    reqp m s =
      { s with cs := .high, tmp := tmp, irq := irq, lvl := lvl, cnt := cnt, presence := presence,
               timedOut := timedOut, env := env, history := history } := by
  obtain ⟨irq, cnt, timedOut, env, history, hpoll⟩ := irqPoll_fields 25 (s := reqpStart m s) rfl
  unfold reqp
  rw [hpoll]
  exact ⟨_, _, _, _, _, _, _, _, rfl⟩

theorem anticollSend_fields (s : State) : ∃ tmp lvl env history,
    anticollSend s = { s with cs := .high, tmp := tmp, lvl := lvl, env := env, history := history } :=
  ⟨_, _, _, _, rfl⟩

theorem drain_fields (s : State) : ∃ buf env history,
    drain s = { s with cs := .high, buf := buf, env := env, history := history } :=
  ⟨_, _, _, rfl⟩

theorem anticoll_fields (s : State) : ∃ tmp lvl buf env history,
    (anticoll s).2 =
      { s with cs := .high, tmp := tmp, lvl := lvl, buf := buf, env := env, history := history } := by
  obtain ⟨tmp, lvl, env, history, hsend⟩ := anticollSend_fields s
  by_cases h : (anticollSend s).lvl = 5
  · obtain ⟨buf, env', history', hdrain⟩ := drain_fields (anticollSend s)
    rw [anticoll_uid h, hdrain, hsend]
    exact ⟨tmp, lvl, buf, env', history', rfl⟩
  · rw [anticoll_empty h, hsend]
    exact ⟨tmp, lvl, s.buf, env, history, rfl⟩

theorem anticoll_frame (s : State) :
    (anticoll s).2.cs = .high ∧ (anticoll s).2.resetIn = s.resetIn ∧ (anticoll s).2.cmds = s.cmds := by
  obtain ⟨tmp, lvl, buf, env, history, h⟩ := anticoll_fields s
  rw [h]
  exact ⟨rfl, rfl, rfl⟩

theorem init_frame (n : Nat) (s : State) :
    (init n s).2.cs = .high ∧ (init n s).2.resetIn = s.resetIn ∧ (init n s).2.cmds = s.cmds := by
  obtain ⟨tmp, cnt, env, history, h⟩ := init_fields n s
  rw [h]
  exact ⟨rfl, rfl, rfl⟩

end Body

/-- Settles O33: RSTH and CSH drive the lines high, and no later body drives one low. -/
theorem initLeavesBothLinesHigh : Obligations.InitLeavesBothLinesHigh := by
  intro s n
  obtain ⟨tmp, cnt, env, history, h⟩ := Body.init_fields n s
  rw [h]
  exact ⟨rfl, rfl⟩

end Sys2Proof.Machine
end

section
/-! PROOF. In which state each instruction completes: a completion is unique, and the run of each instruction's outermost body gives one. RESET and INIT with no bound complete when some poll reads the busy bit as 0, and else hang. -/

namespace Sys2Proof.Machine

theorem State.Ready.idle {s : State} (h : s.Ready) : s.run = .idle := h.1
theorem State.Ready.deselected {s : State} (h : s.Ready) : s.cs = .high := h.2.1
theorem State.Ready.noReset {s : State} (h : s.Ready) : s.resetIn = [] := h.2.2

/-! ## A completion is unique -/

theorem raise_resetIn (op : Option OpCode) (st : Status) (s : State) : (raise op st s).resetIn = s.resetIn := by
  cases op with
  | some o => obtain ⟨u, rfl | rfl, e⟩ := raise_some o st s <;> simp [e]
  | none => obtain ⟨u, rfl | rfl, e⟩ := raise_none st s <;> simp [e]

theorem Advances.resetIn {s t : State} (h : Advances s t) : t.resetIn = s.resetIn := by
  obtain ⟨s1, s2, hprim, hsilent, hends⟩ | ⟨op, st, rfl⟩ := h
  · have hs1 : s1.resetIn = s.resetIn := by cases hprim <;> rfl
    have hs2 : s2.resetIn = s.resetIn := hsilent.resetIn.trans hs1
    obtain ⟨g, K, rfl⟩ | ⟨r, rfl⟩ | rfl := hends <;> exact hs2
  · exact raise_resetIn op st s

/-- Everything an idle block can do with an instruction. -/
theorem exec_idle {s : State} (h : s.run = .idle) (i : Instr) :
    (∃ op a d f, exec i s = .next (goto f [] (accepted op a d s))) ∨
    (∃ op a d, exec i s = .next (acceptReserved op a d s)) ∨ ∃ f, exec i s = advance f [] s := by
  have frame (f : Frame) : beginFrame f s = advance f [] s := by unfold beginFrame whenIdle; rw [h]
  cases i with
  | reserved0 a d => exact .inr (.inl ⟨_, _, _, beginReserved_idle h _ _ _⟩)
  | reservedC a d => exact .inr (.inl ⟨_, _, _, beginReserved_idle h _ _ _⟩)
  | reservedD a d => exact .inr (.inl ⟨_, _, _, beginReserved_idle h _ _ _⟩)
  | reservedE a d => exact .inr (.inl ⟨_, _, _, beginReserved_idle h _ _ _⟩)
  | reservedF a d => exact .inr (.inl ⟨_, _, _, beginReserved_idle h _ _ _⟩)
  | wframe a v => exact .inr (.inr ⟨_, frame _⟩)
  | rframe a f => exact .inr (.inr ⟨_, frame _⟩)
  | wburst2 a v w => exact .inr (.inr ⟨_, frame _⟩)
  | _ => exact .inl ⟨_, _, _, _, beginCommand_idle h _ _ _ _⟩

theorem exec_resetIn {i : Instr} {s t : State} (hs : s.Ready) (h : exec i s = .next t) : t.resetIn = [] := by
  obtain ⟨op, a, d, f, he⟩ | ⟨op, a, d, he⟩ | ⟨f, he⟩ := exec_idle hs.idle i <;> rw [he] at h
  · cases h; exact hs.noReset
  · cases h; exact (raise_resetIn _ _ _).trans hs.noReset
  · exact (advance_cases h).resetIn.trans hs.noReset

/-- A run that has reached Idle goes no further without taking a command. -/
theorem eq_of_runs_past_idle {k m : Nat} {s t u : State} (hs : s.resetIn = []) (ht : Runs k s t)
    (hidle : t.run = .idle) (hu : Runs m s u) (hle : k ≤ m) (hcmds : u.cmds = t.cmds) : u = t := by
  obtain ⟨n, rfl⟩ := Nat.exists_eq_add_of_le hle
  have hrest : Runs n t u := (run_add n ht).symm.trans hu
  exact idle_run hidle (run_monotone hs ht).1 hrest (by rw [hcmds])

theorem Completes.unique {i : Instr} {s t u : State} (hs : s.Ready) (ht : Completes i s t)
    (hu : Completes i s u) : t = u := by
  obtain ⟨k, t0, he, hrun, hidle, hcmds⟩ := ht
  obtain ⟨m, u0, he', hrun', hidle', hcmds'⟩ := hu
  cases he.symm.trans he'
  have hreset := exec_resetIn hs he
  obtain hle | hle := Nat.le_total k m
  · exact (eq_of_runs_past_idle hreset hrun hidle hrun' hle (hcmds'.trans hcmds.symm)).symm
  · exact eq_of_runs_past_idle hreset hrun' hidle' hrun hle (hcmds.trans hcmds'.symm)

/-- An instruction that is busy after every number of steps, with no command taken, does not complete. -/
theorem not_completes_of_hang {i : Instr} {s t0 : State} (hs : s.Ready) (he : exec i s = .next t0)
    (hang : ∀ k, ∃ m u, k ≤ m ∧ Runs m t0 u ∧ u.run ≠ .idle ∧ u.cmds = s.cmds) (t : State) :
    ¬Completes i s t := by
  rintro ⟨k, u0, he', hrun, hidle, hcmds⟩
  cases he.symm.trans he'
  obtain ⟨m, u, hle, hrunu, hbusy, hcmdsu⟩ := hang k
  have heq := eq_of_runs_past_idle (exec_resetIn hs he) hrun hidle hrunu hle (hcmdsu.trans hcmds.symm)
  exact hbusy (heq ▸ hidle)

/-! ## How the outermost bodies answer -/

/-- The two selections of the status of a REQP that found no card agree (60_exceptions.md R213). -/
theorem absentStatus_eq_absent (timedOut : Bool) (lvl : Byte) : absentStatus timedOut lvl = absent timedOut lvl := by
  simp [absentStatus, absent]

/-- REQP's response (43_card_protocol.md R171). -/
def reqpEnd (u : State) : State :=
  answered { answer 0x9 (if u.presence then .ok else absent u.timedOut u.lvl) with presence := u.presence } u

theorem ret_reqp (m : Operand) (u : State) : ret [] (.reqp m .s15) .nothing u = .next (reqpEnd u) := by
  unfold reqpEnd
  rw [← absentStatus_eq_absent]
  rfl

/-- The response to ANTICOLL's result (43_card_protocol.md R175, R178). -/
def anticollEnd (op : OpCode) (presence : Bool) (p : AnticollResult × State) : State :=
  answered (answerUid op presence p.1) p.2

theorem ret_anticoll (l : AnticollAt) (x : AnticollResult) (u : State) :
    ret [] (.anticoll l) (.anticoll x) u = .next (anticollEnd 0xA false (x, u)) := by
  cases x <;> rfl

/-- GETUID after REQP (43_card_protocol.md R178). -/
def getuidEnd (u : State) : State :=
  if u.presence then anticollEnd 0xB true (Body.anticoll u) else answered (answer 0xB (absent u.timedOut u.lvl)) u

theorem getuidEnd_present {u : State} (h : u.presence = true) :
    getuidEnd u = anticollEnd 0xB true (Body.anticoll u) := if_pos h

theorem getuidEnd_absent {u : State} (h : u.presence = false) :
    getuidEnd u = answered (answer 0xB (absent u.timedOut u.lvl)) u := if_neg (by simp [h])

theorem getuidEnd_run (u : State) : (getuidEnd u).run = .idle := by
  cases h : u.presence with
  | true => rw [getuidEnd_present h]; rfl
  | false => rw [getuidEnd_absent h]; rfl

theorem getuidEnd_cmds (u : State) : (getuidEnd u).cmds = u.cmds := by
  cases h : u.presence with
  | true => rw [getuidEnd_present h]; exact (Body.anticoll_frame u).2.2
  | false => rw [getuidEnd_absent h]; rfl

theorem ret_getuid (x : AnticollResult) (u : State) :
    ret [] (.getuid (.s4 x)) (.anticoll x) u = .next (anticollEnd 0xB true (x, u)) := by
  cases x <;> rfl

/-- GETUID from S2. -/
theorem run_getuid_rest {u : State} (hcs : u.cs = .high) (hreset : u.resetIn = []) :
    ∃ m, runSteps m (goto (.getuid .s2) [] u) = .next (getuidEnd u) := by
  cases h : u.presence with
  | true =>
    obtain ⟨m, l, hrun⟩ := run_anticoll (s := u) [.getuid .s3] hcs hreset
    obtain ⟨_, hreset', _⟩ := Body.anticoll_frame u
    rw [getuidEnd_present h]
    generalize Body.anticoll u = p at *
    have hp : Runs m (goto (.anticoll .s1) [.getuid .s3] u) (goto (.getuid (.s4 p.1)) [] p.2) := hrun
    refine ⟨m + 1 + 2, ?_⟩
    rw [show m + 1 + 2 = (m + 1) + 1 + 1 from rfl,
      run_step (t := goto (.getuid .s3) [] u) _ hreset
        (by show (if u.presence then _ else _) = _; rw [if_pos h]; rfl),
      run_step (t := goto (.anticoll .s1) [.getuid .s3] u) _ hreset rfl,
      run_add 1 hp, run_one, step_goto _ _ (hreset'.trans hreset)]
    exact (ret_goto [] _ _ _ _ p.2).trans (ret_getuid p.1 p.2)
  | false =>
    refine ⟨1, ?_⟩
    rw [run_one, step_goto _ _ hreset, getuidEnd_absent h, ← absentStatus_eq_absent]
    show (if u.presence then _ else _) = _
    rw [if_neg (by simp [h]), ret_goto]
    rfl

theorem resetEnd_outermost {x : Bool × State} (hcs : x.2.cs = .high) :
    resetEnd [] x = .next (answered (answer 0x5 (if x.1 then .ok else .unresponsive)) x.2) := by
  obtain ⟨b, u⟩ := x
  cases b with
  | true => rfl
  | false => exact congrArg Host.Outcome.next (raise_of_deselected hcs 0x5 .unresponsive)

theorem initEnd_outermost {x : Bool × State} (hcs : x.2.cs = .high) :
    initEnd [] x = .next (answered (answer 0x8 (if x.1 then .ok else .unresponsive)) x.2) := by
  obtain ⟨b, u⟩ := x
  cases b with
  | true => rfl
  | false => exact congrArg Host.Outcome.next (raise_of_deselected hcs 0x8 .unresponsive)

/-! ## Frames run on their own -/

/-- A frame has completed when the run of its body has: exec opens the bracket, which is the body's
first step. -/
theorem completes_frame {i : Instr} {f g : Frame} {s t : State} {k : Nat} (hs : s.Ready)
    (he : exec i s = beginFrame f s)
    (hfirst : ∀ u : State, advance f [] u = andThen (csl u) fun u => .next (goto g [] u))
    (hrun : runSteps (k + 1) (goto f [] s) = .next t) (hidle : t.run = .idle) (hcmds : t.cmds = s.cmds) :
    Completes i s t := by
  have hopen (u : State) (hu : u.cs = .high) : advance f [] u = .next (goto g [] (Body.select u)) := by
    rw [hfirst, csl_eq hu, andThen_ok]
  refine ⟨k, goto g [] (Body.select s), by rw [he, beginFrame_ready hs, hopen s hs.deselected], ?_, hidle, hcmds⟩
  rw [run_step k hs.noReset (hopen (goto f [] s) hs.deselected)] at hrun
  exact hrun

section
variable {s : State} (hs : s.Ready)
include hs

theorem completes_wframe (a : RegAddr) (v : Byte) :
    Completes (.wframe a v) s { Body.wr (Body.reg a) v s with run := .idle } :=
  completes_frame (k := 3) (g := .wrreg (.ofReg a) (.given v) .s2) hs rfl (fun _ => rfl)
    (run_wr [] (.ofReg a) (.given v) hs.deselected hs.noReset) rfl rfl

theorem completes_rframe (a : RegAddr) (f : Byte) :
    Completes (.rframe a f) s { Body.rd (Body.reg a) f s with run := .idle } :=
  completes_frame (k := 3) (g := .rdreg (.ofReg a) (.given f) .s2) hs rfl (fun _ => rfl)
    (run_rd [] (.ofReg a) (.given f) hs.deselected hs.noReset) rfl rfl

theorem completes_wburst2 (a : RegAddr) (v w : Byte) :
    Completes (.wburst2 a v w) s { Body.wburst2 (Body.reg a) v w s with run := .idle } :=
  completes_frame (k := 4) (g := .wburst2 (.ofReg a) (.given v) (.given w) .s2) hs rfl (fun _ => rfl)
    (run_wburst2 [] (.ofReg a) (.given v) (.given w) hs.deselected hs.noReset) rfl rfl

/-! ## Commands -/

theorem completes_reserved {i : Instr} {op : OpCode} {a d : Byte} (he : exec i s = beginReserved op a d s) :
    Completes i s { s with
      run := .idle, aLat := a, dLat := d,
      history := s.history ++ [.cmd op a d, .response (answer op .illegalOp)] } :=
  ⟨0, _, by rw [he, beginReserved_idle hs.idle, acceptReserved_of_deselected hs.deselected], rfl, rfl, rfl⟩

theorem completes_wrreg (a d : Byte) :
    Completes (.wrreg a d) s (answered (answer 0x1 .ok) (Body.wr a d (accepted 0x1 a d s))) :=
  completes_cmd hs rfl ⟨4, run_wr [] .latched .latched hs.deselected hs.noReset⟩ rfl rfl rfl

theorem completes_rdreg (a d : Byte) :
    let u := accepted 0x2 a d s
    Completes (.rdreg a d) s
      (answered { answer 0x2 .ok with data := Body.rdByte a s.cfg.readFill u } (Body.rd a s.cfg.readFill u)) :=
  completes_cmd hs rfl ⟨4, run_rd [] .latched .param hs.deselected hs.noReset⟩ rfl rfl rfl

theorem completes_setbits (a d : Byte) :
    Completes (.setbits a d) s (answered (answer 0x3 .ok) (Body.setb a d (accepted 0x3 a d s))) :=
  completes_cmd hs rfl ⟨10, run_setb [] .latched .latched hs.deselected hs.noReset⟩ rfl rfl rfl

theorem completes_clrbits (a d : Byte) :
    Completes (.clrbits a d) s (answered (answer 0x4 .ok) (Body.clrb a d (accepted 0x4 a d s))) :=
  completes_cmd hs rfl ⟨10, run_clrb [] .latched .latched hs.deselected hs.noReset⟩ rfl rfl rfl

theorem completes_anton (a d : Byte) :
    Completes (.anton a d) s (answered (answer 0x6 .ok) (Body.anton (accepted 0x6 a d s))) := by
  obtain ⟨k, l, hrun⟩ := run_anton (s := accepted 0x6 a d s) [] hs.deselected hs.noReset
  obtain ⟨_, _, hcmds⟩ := Body.anton_frame (accepted 0x6 a d s)
  exact completes_cmd hs rfl ⟨k, hrun⟩ rfl hcmds rfl

theorem completes_antoff (a d : Byte) :
    Completes (.antoff a d) s (answered (answer 0x7 .ok) (Body.antoff (accepted 0x7 a d s))) :=
  completes_cmd hs rfl ⟨11, run_antoff (s := accepted 0x7 a d s) [] hs.deselected hs.noReset⟩ rfl rfl rfl

theorem completes_reqp (a d : Byte) :
    Completes (.reqp a d) s (reqpEnd (Body.reqp d (accepted 0x9 a d s))) := by
  obtain ⟨k, hrun⟩ := run_reqp (s := accepted 0x9 a d s) [] .latched hs.deselected hs.noReset
  have hdata : Operand.latched.data (accepted 0x9 a d s) = d := rfl
  rw [hdata, ret_reqp] at hrun
  obtain ⟨_, _, hcmds⟩ := Body.reqp_frame d (accepted 0x9 a d s)
  generalize Body.reqp d (accepted 0x9 a d s) = u at *
  exact completes_cmd hs rfl ⟨k, hrun⟩ rfl hcmds rfl

theorem completes_anticoll (a d : Byte) :
    Completes (.anticoll a d) s (anticollEnd 0xA false (Body.anticoll (accepted 0xA a d s))) := by
  obtain ⟨k, l, hrun⟩ := run_anticoll (s := accepted 0xA a d s) [] hs.deselected hs.noReset
  obtain ⟨_, _, hcmds⟩ := Body.anticoll_frame (accepted 0xA a d s)
  exact completes_cmd hs rfl ⟨k, hrun.trans (ret_anticoll _ _ _)⟩ rfl hcmds rfl

/-- GETUID up to S2, where REQP has returned. -/
theorem runs_getuid_reqp (a d : Byte) :
    ∃ k, Runs k (goto (.getuid .s1) [] (accepted 0xB a d s))
      (goto (.getuid .s2) [] (Body.reqp 0x26 (accepted 0xB a d s))) := by
  obtain ⟨k, hrun⟩ := run_reqp (s := accepted 0xB a d s) [.getuid .s1] (.given 0x26) hs.deselected hs.noReset
  have hcall : Runs 1 (goto (.getuid .s1) [] (accepted 0xB a d s))
      (goto (.reqp (.given 0x26) .s1) [.getuid .s1] (accepted 0xB a d s)) := by
    apply Runs.one
    rw [step_goto _ _ (by exact hs.noReset)]
    rfl
  exact ⟨1 + k, hcall.trans hrun⟩

theorem completes_getuid (a d : Byte) :
    Completes (.getuid a d) s (getuidEnd (Body.reqp 0x26 (accepted 0xB a d s))) := by
  obtain ⟨k, hreqp⟩ := runs_getuid_reqp hs a d
  obtain ⟨hcs, hreset, hcmds⟩ := Body.reqp_frame 0x26 (accepted 0xB a d s)
  generalize Body.reqp 0x26 (accepted 0xB a d s) = u at *
  obtain ⟨m, hrest⟩ := run_getuid_rest hcs (hreset.trans hs.noReset)
  have hcmds' : (getuidEnd u).cmds = s.cmds := (getuidEnd_cmds u).trans hcmds
  have hrun : Runs (k + m) (goto (.getuid .s1) [] (accepted 0xB a d s)) (getuidEnd u) := hreqp.trans hrest
  exact completes_cmd hs rfl ⟨k + m, hrun⟩ (getuidEnd_run u) hcmds' rfl

/-! ## RESET and INIT -/

theorem completes_reset_of_run {a d : Byte} {n : Nat}
    (hrun : ∃ k, runSteps k (goto (.reset .s1) [] (accepted 0x5 a d s)) =
      resetEnd [] (Body.reset n (accepted 0x5 a d s))) :
    Completes (.reset a d) s
      (answered (answer 0x5 (if (Body.reset n (accepted 0x5 a d s)).1 then .ok else .unresponsive))
        (Body.reset n (accepted 0x5 a d s)).2) := by
  obtain ⟨hcs, _, hcmds⟩ := Body.reset_frame n (accepted 0x5 a d s)
  rw [resetEnd_outermost hcs] at hrun
  generalize Body.reset n (accepted 0x5 a d s) = x at *
  exact completes_cmd hs rfl hrun rfl hcmds rfl

theorem completes_init_of_run {a d : Byte} {n : Nat}
    (hrun : ∃ k, runSteps k (goto (.init .s1) [] (accepted 0x8 a d s)) =
      initEnd [] (Body.init n (accepted 0x8 a d s))) :
    Completes (.init a d) s
      (answered (answer 0x8 (if (Body.init n (accepted 0x8 a d s)).1 then .ok else .unresponsive))
        (Body.init n (accepted 0x8 a d s)).2) := by
  obtain ⟨hcs, _, hcmds⟩ := Body.init_frame n (accepted 0x8 a d s)
  rw [initEnd_outermost hcs] at hrun
  generalize Body.init n (accepted 0x8 a d s) = x at *
  exact completes_cmd hs rfl hrun rfl hcmds rfl

omit hs in
/-- RESET hangs when no poll reads the busy bit as 0 and no bound is set (60_exceptions.md R221): from
its first step, over any callers, it is at S4 again after every round. -/
theorem runs_reset_hang {u : State} (K : List Frame) (hcs : u.cs = .high) (hreset : u.resetIn = [])
    (hmax : u.cfg.resetPollMax = none) (hbusy : ∀ n, (Body.reset n u).1 = false) (k : Nat) :
    ∃ m v, k ≤ m ∧ Runs m (goto (.reset .s1) K u) v ∧ v.run ≠ .idle ∧ v.cmds = u.cmds := by
  have hpoll := run_resetPoll_hang K k (s := Body.resetSend u) rfl (by exact hreset) (by exact hmax) (hbusy k)
  exact ⟨7 + 10 * k, _, by omega, (run_resetSend K hcs hreset).trans hpoll, nofun, (Body.reset_frame k u).2.2⟩

omit hs in
/-- A bound of a well-formed configuration is at least 1. -/
theorem resetPollMax_cases {c : Config} (hwf : c.wf = true) :
    c.resetPollMax = none ∨ ∃ n, c.resetPollMax = some (n + 1) := by
  cases hmax : c.resetPollMax with
  | none => exact .inl rfl
  | some n =>
    obtain ⟨m, rfl⟩ := Nat.exists_eq_succ_of_ne_zero (Nat.pos_iff_ne_zero.1 (pos_of_wf hwf hmax))
    exact .inr ⟨m, rfl⟩

/-- RESET, when it completes, leaves the state of its body for some number of polls. -/
theorem completes_reset {a d : Byte} {t : State} (hwf : s.cfg.wf = true) (h : Completes (.reset a d) s t) :
    ∃ n, t = answered (answer 0x5 (if (Body.reset n (accepted 0x5 a d s)).1 then .ok else .unresponsive))
      (Body.reset n (accepted 0x5 a d s)).2 := by
  obtain hmax | ⟨n, hmax⟩ := resetPollMax_cases hwf
  · by_cases hclear : ∃ n, (Body.reset n (accepted 0x5 a d s)).1 = true
    · obtain ⟨n, hn⟩ := hclear
      exact ⟨n, h.unique hs (completes_reset_of_run hs (run_reset_none [] hs.deselected hs.noReset hmax hn))⟩
    · have hbusy (n) : (Body.reset n (accepted 0x5 a d s)).1 = false :=
        Bool.eq_false_iff.2 fun hn => hclear ⟨n, hn⟩
      have he : exec (.reset a d) s = .next (goto (.reset .s1) [] (accepted 0x5 a d s)) :=
        beginCommand_idle hs.idle _ _ _ _
      exact absurd h (not_completes_of_hang hs he (runs_reset_hang [] hs.deselected hs.noReset hmax hbusy) t)
  · exact ⟨n + 1, h.unique hs (completes_reset_of_run hs (run_reset [] hs.deselected hs.noReset hmax))⟩

/-- INIT, when it completes, leaves the state of its body for some number of polls. -/
theorem completes_init {a d : Byte} {t : State} (hwf : s.cfg.wf = true) (h : Completes (.init a d) s t) :
    ∃ n, t = answered (answer 0x8 (if (Body.init n (accepted 0x8 a d s)).1 then .ok else .unresponsive))
      (Body.init n (accepted 0x8 a d s)).2 := by
  let u := accepted 0x8 a d s
  obtain hmax | ⟨n, hmax⟩ := resetPollMax_cases hwf
  · by_cases hclear : ∃ n, (Body.reset n (Body.initLines u)).1 = true
    · obtain ⟨n, hn⟩ := hclear
      have hreset := run_reset_none [.init .s4] (s := Body.initLines u) rfl (by exact hs.noReset) (by exact hmax) hn
      exact ⟨n, h.unique hs (completes_init_of_run hs (run_init_of [] (by exact hs.noReset) hreset))⟩
    · have hbusy (n) : (Body.reset n (Body.initLines u)).1 = false := Bool.eq_false_iff.2 fun hn => hclear ⟨n, hn⟩
      have he : exec (.init a d) s = .next (goto (.init .s1) [] u) := beginCommand_idle hs.idle _ _ _ _
      have hang (k : Nat) :
          ∃ m v, k ≤ m ∧ Runs m (goto (.init .s1) [] u) v ∧ v.run ≠ .idle ∧ v.cmds = s.cmds := by
        obtain ⟨m, v, hle, hrun, hv, hcmds⟩ :=
          runs_reset_hang [.init .s4] (u := Body.initLines u) rfl (by exact hs.noReset) (by exact hmax) hbusy k
        exact ⟨4 + m, v, by omega, (run_initLines [] (by exact hs.noReset)).trans hrun, hv, hcmds⟩
      exact absurd h (not_completes_of_hang hs he hang t)
  · exact ⟨n + 1, h.unique hs (completes_init_of_run hs (run_init [] (by exact hs.noReset) hmax))⟩

end

end Sys2Proof.Machine
end

section
/-! PROOF. The frame of every instruction: its completion is unique, and the fields its bodies change are those its rule names. -/

namespace Sys2Proof.Machine

theorem getuidEnd_fields {u : State} (hcs : u.cs = .high) : ∃ tmp lvl buf env history,
    getuidEnd u = { u with run := .idle, cs := .high, tmp := tmp, lvl := lvl, buf := buf, env := env,
                           history := history } := by
  obtain h | h := Bool.eq_false_or_eq_true u.presence
  · obtain ⟨tmp, lvl, buf, env, history, he⟩ := Body.anticoll_fields u
    rw [getuidEnd_present h, anticollEnd, he]
    exact ⟨_, _, _, _, _, rfl⟩
  · rw [getuidEnd_absent h, ← hcs]
    exact ⟨_, _, _, _, _, rfl⟩

section
variable {s t : State} {a d : Byte} (hs : s.Ready)
include hs

theorem Completes.reserved_fields {i : Instr} {op : OpCode} (he : exec i s = beginReserved op a d s)
    (h : Completes i s t) : t = { s with aLat := a, dLat := d, history := t.history } := by
  rw [h.unique hs (completes_reserved hs he), hs.idle]

theorem Completes.anton_fields (h : Completes (.anton a d) s t) :
    t = { s with aLat := a, dLat := d, tmp := t.tmp, env := t.env, history := t.history } := by
  obtain ⟨tmp, env, history, he⟩ := Body.anton_fields (accepted 0x6 a d s)
  rw [h.unique hs (completes_anton hs a d), he, hs.idle, hs.deselected]
  rfl

theorem Completes.reset_fields (hwf : s.cfg.wf = true) (h : Completes (.reset a d) s t) :
    t = { s with aLat := a, dLat := d, tmp := t.tmp, cnt := t.cnt, env := t.env, history := t.history } := by
  obtain ⟨n, ht⟩ := completes_reset hs hwf h
  obtain ⟨tmp, cnt, env, history, he⟩ := Body.reset_fields n (accepted 0x5 a d s)
  rw [ht, he, hs.idle, hs.deselected]
  rfl

theorem Completes.init_fields (hwf : s.cfg.wf = true) (h : Completes (.init a d) s t) :
    t = { s with rst := .high, aLat := a, dLat := d, tmp := t.tmp, cnt := t.cnt, env := t.env,
                 history := t.history } := by
  obtain ⟨n, ht⟩ := completes_init hs hwf h
  obtain ⟨tmp, cnt, env, history, he⟩ := Body.init_fields n (accepted 0x8 a d s)
  rw [ht, he, hs.idle, hs.deselected]
  rfl

theorem Completes.reqp_fields (h : Completes (.reqp a d) s t) :
    t = { s with aLat := a, dLat := d, tmp := t.tmp, irq := t.irq, lvl := t.lvl, cnt := t.cnt,
                 presence := t.presence, timedOut := t.timedOut, env := t.env, history := t.history } := by
  obtain ⟨_, _, _, _, _, _, _, _, he⟩ := Body.reqp_fields d (accepted 0x9 a d s)
  rw [h.unique hs (completes_reqp hs a d), he, hs.idle, hs.deselected]
  rfl

theorem Completes.anticoll_fields (h : Completes (.anticoll a d) s t) :
    t = { s with aLat := a, dLat := d, tmp := t.tmp, lvl := t.lvl, buf := t.buf, env := t.env,
                 history := t.history } := by
  obtain ⟨_, _, _, _, _, he⟩ := Body.anticoll_fields (accepted 0xA a d s)
  rw [h.unique hs (completes_anticoll hs a d), anticollEnd, he, hs.idle, hs.deselected]
  rfl

theorem Completes.getuid_fields (h : Completes (.getuid a d) s t) :
    t = { s with aLat := a, dLat := d, tmp := t.tmp, irq := t.irq, lvl := t.lvl, cnt := t.cnt, buf := t.buf,
                 presence := t.presence, timedOut := t.timedOut, env := t.env, history := t.history } := by
  obtain ⟨_, _, _, _, _, hend⟩ := getuidEnd_fields (Body.reqp_frame 0x26 (accepted 0xB a d s)).1
  obtain ⟨_, _, _, _, _, _, _, _, he⟩ := Body.reqp_fields 0x26 (accepted 0xB a d s)
  rw [h.unique hs (completes_getuid hs a d), hend, he, hs.idle, hs.deselected]
  rfl

end

/-- Settles O44: one instruction at a time, from its completion and the fields of its bodies. -/
theorem instructionsChangeOnlyTheirState : Obligations.InstructionsChangeOnlyTheirState := by
  intro s t a d r w hs hwf
  simp only [List.forall_mem_cons, List.not_mem_nil, false_implies, implies_true, and_true]
  refine ⟨⟨fun h => ?_, fun h => ?_, fun h => ?_⟩, ⟨fun h => ?_, fun h => ?_⟩,
    ⟨fun h => h.reserved_fields hs rfl, fun h => h.reserved_fields hs rfl, fun h => h.reserved_fields hs rfl,
      fun h => h.reserved_fields hs rfl, fun h => h.reserved_fields hs rfl⟩,
    ⟨fun h => ?_, fun h => ?_, fun h => h.anton_fields hs, fun h => ?_⟩,
    fun h => h.reset_fields hs hwf, fun h => h.init_fields hs hwf, fun h => h.reqp_fields hs,
    fun h => h.anticoll_fields hs, fun h => h.getuid_fields hs⟩
  · rw [h.unique hs (completes_wframe hs r d), hs.idle, hs.deselected]; rfl
  · rw [h.unique hs (completes_rframe hs r d), hs.idle, hs.deselected]; rfl
  · rw [h.unique hs (completes_wburst2 hs r d w), hs.idle, hs.deselected]; rfl
  · rw [h.unique hs (completes_wrreg hs a d), hs.idle, hs.deselected]; rfl
  · rw [h.unique hs (completes_rdreg hs a d), hs.idle, hs.deselected]; rfl
  · rw [h.unique hs (completes_setbits hs a d), hs.idle, hs.deselected]; rfl
  · rw [h.unique hs (completes_clrbits hs a d), hs.idle, hs.deselected]; rfl
  · rw [h.unique hs (completes_antoff hs a d), hs.idle, hs.deselected]; rfl

end Sys2Proof.Machine
end

section
/-! PROOF. The register file of the reference environments under the bodies (20_memory.md R72, R73): what each exchange does to it, what each body writes, and what the protocol commands leave in it. -/

namespace Sys2Proof.Machine

/-- The environment is a reference environment in phase `ph` whose registers read as `ρ`. -/
def Registers (ph : Phase) (s : State) (ρ : Nat → Byte) : Prop :=
  ∃ regs queues, s.env = .script regs queues ph ∧ regs.wf = true ∧ ∀ x, regs.read x = ρ x

/-! ## Frame bytes (30_encoding.md R91) -/

theorem frameIsRead_wframeByte (a : Byte) : frameIsRead (wframeByte a.toNat) = false := by
  revert a; decide

theorem frameIsRead_rframeByte (a : Byte) : frameIsRead (rframeByte a.toNat) = true := by
  revert a; decide

theorem frameAddr_wframeByte (a : Byte) : frameAddr (wframeByte a.toNat) = a.setWidth 6 := by
  revert a; decide

theorem setWidth_reg (a : RegAddr) : (Body.reg a).setWidth 6 = a := by
  revert a; decide

/-! ## Primitives -/

namespace Registers

variable {ph : Phase} {s : State} {ρ : Nat → Byte}

theorem of_env {t : State} (h : Registers ph s ρ) (he : t.env = s.env) : Registers ph t ρ := by
  unfold Registers
  rw [he]
  exact h

theorem select (h : Registers ph s ρ) : Registers .addr (Body.select s) ρ := by
  obtain ⟨regs, queues, henv, hwf, hread⟩ := h
  exact ⟨regs, queues, by simp [Body.select, henv, Env.csl], hwf, hread⟩

theorem csh (h : Registers ph s ρ) : Registers .off (csh s) ρ := by
  obtain ⟨regs, queues, henv, hwf, hread⟩ := h
  exact ⟨regs, queues, by simp [henv, Env.csh], hwf, hread⟩

theorem wait (h : Registers ph s ρ) (n : Nat) : Registers ph (Body.wait n s) ρ := by
  obtain ⟨regs, queues, henv, hwf, hread⟩ := h
  exact ⟨regs, queues, by simp [Body.wait, henv, Env.dly], hwf, hread⟩

theorem rsth (h : Registers ph s ρ) : Registers ph (rsth s) ρ := by
  obtain ⟨regs, queues, henv, hwf, hread⟩ := h
  exact ⟨regs, queues, by simp [henv, Env.rsth], hwf, hread⟩

/-- The frame byte sets direction and address. -/
theorem send_frame (h : Registers .addr s ρ) (tx : Byte) :
    Registers (.data (frameIsRead tx) (frameAddr tx)) (Body.send tx s) ρ := by
  obtain ⟨regs, queues, henv, hwf, hread⟩ := h
  exact ⟨regs, queues, by simp [Body.send, henv, Env.xfer], hwf, hread⟩

/-- A data byte of a write bracket is stored. -/
theorem send_write {a : RegAddr} (h : Registers (.data false a) s ρ) (tx : Byte) :
    Registers (.data false a) (Body.send tx s) (Function.update ρ a.toNat tx) := by
  obtain ⟨regs, queues, henv, hwf, hread⟩ := h
  refine ⟨regs.write a.toNat tx, queues, by simp [Body.send, henv, Env.xfer], Memory.wf_write hwf a.isLt tx, ?_⟩
  intro x
  rw [Memory.read_write hwf, Function.update_apply, hread]

/-- A data byte of a read bracket stores nothing. -/
theorem send_read {a : RegAddr} (h : Registers (.data true a) s ρ) (tx : Byte) :
    Registers (.data true a) (Body.send tx s) ρ := by
  obtain ⟨regs, queues, henv, hwf, hread⟩ := h
  cases hpop : (Queues.get queues a.toNat).pop with
  | none => exact ⟨regs, queues, by simp [Body.send, henv, Env.xfer, hpop], hwf, hread⟩
  | some p => exact ⟨regs, queues.put a.toNat p.2, by simp [Body.send, henv, Env.xfer, hpop], hwf, hread⟩

/-! ## Brackets -/

theorem wr (h : Registers ph s ρ) (a v : Byte) :
    Registers .off (Body.wr a v s) (Function.update ρ (a.setWidth 6).toNat v) := by
  have hframe := h.select.send_frame (wframeByte a.toNat)
  rw [frameIsRead_wframeByte, frameAddr_wframeByte] at hframe
  exact (hframe.send_write v).csh

theorem wburst2 (h : Registers ph s ρ) (a v w : Byte) :
    Registers .off (Body.wburst2 a v w s) (Function.update ρ (a.setWidth 6).toNat w) := by
  have hframe := h.select.send_frame (wframeByte a.toNat)
  rw [frameIsRead_wframeByte, frameAddr_wframeByte] at hframe
  have hburst := ((hframe.send_write v).send_write w).csh
  rw [Function.update_idem] at hburst
  exact hburst

theorem rd (h : Registers ph s ρ) (a f : Byte) : Registers .off (Body.rd a f s) ρ := by
  have hframe := h.select.send_frame (rframeByte a.toNat)
  rw [frameIsRead_rframeByte] at hframe
  exact (hframe.send_read f).csh

/-! ## Bodies -/

theorem wrReg (h : Registers ph s ρ) (a : RegAddr) (v : Byte) :
    Registers .off (Body.wrReg a v s) (Function.update ρ a.toNat v) := by
  have hwr := h.wr (Body.reg a) v
  rw [setWidth_reg] at hwr
  exact hwr

theorem readTmp (h : Registers ph s ρ) (a : Byte) : Registers .off (Body.readTmp a s) ρ :=
  (h.rd a s.cfg.readFill).of_env rfl

theorem setb (h : Registers ph s ρ) (a : RegAddr) (m : Byte) :
    ∃ v, Registers .off (Body.setb (Body.reg a) m s) (Function.update ρ a.toNat v) :=
  ⟨_, (h.readTmp (Body.reg a)).wrReg a _⟩

theorem clrb (h : Registers ph s ρ) (a : RegAddr) (m : Byte) :
    ∃ v, Registers .off (Body.clrb (Body.reg a) m s) (Function.update ρ a.toNat v) :=
  ⟨_, (h.readTmp (Body.reg a)).wrReg a _⟩

theorem startSend (h : Registers ph s ρ) :
    ∃ v, Registers .off (Body.startSend s) (Function.update ρ s.cfg.aBitFraming.toNat v) := by
  obtain ⟨v, hset⟩ := h.setb s.cfg.aBitFraming s.cfg.startSendMask
  obtain ⟨w, hclear⟩ := (hset.wait 10).clrb s.cfg.aBitFraming s.cfg.startSendMask
  rw [Function.update_idem] at hclear
  exact ⟨w, hclear⟩

theorem resetPoll (n : Nat) : ∀ {s : State}, Registers .off s ρ → Registers .off (Body.resetPoll n s).2 ρ := by
  induction n with
  | zero => exact fun h => h
  | succ n ih =>
    intro s h
    have hread : Registers .off (Body.resetRead s) ρ := h.readTmp _
    by_cases hclear : (Body.resetRead s).tmp &&& 0x10 = 0
    · rw [Body.resetPoll_clear n hclear]; exact hread
    · rw [Body.resetPoll_busy n hclear]; exact ih (hread.wait 1)

theorem reset (h : Registers ph s ρ) (n : Nat) :
    Registers .off (Body.reset n s).2 (Function.update ρ s.cfg.aCommand.toNat s.cfg.cmdSoftReset) :=
  resetPoll n (s := Body.resetSend s) ((h.wrReg s.cfg.aCommand s.cfg.cmdSoftReset).wait 50)

theorem anton (h : Registers ph s ρ) :
    ∃ v, Registers .off (Body.anton s) (Function.update ρ s.cfg.aTxControl.toNat v) := by
  have hread := h.readTmp (Body.reg s.cfg.aTxControl)
  by_cases hon : (Body.readTmp (Body.reg s.cfg.aTxControl) s).tmp &&& 0x03 = 0x03
  · rw [Body.anton_on hon]
    exact ⟨ρ s.cfg.aTxControl.toNat, by rw [Function.update_eq_self]; exact hread⟩
  · rw [Body.anton_off hon]
    exact hread.setb s.cfg.aTxControl 0x03

theorem irqPoll (n : Nat) : ∀ {s : State}, Registers .off s ρ → Registers .off (Body.irqPoll n s) ρ := by
  induction n with
  | zero => exact fun h => h
  | succ n ih =>
    intro s h
    have hread : Registers .off (Body.readIrq s) ρ :=
      (h.rd (Body.reg s.cfg.aComIrq) s.cfg.readFill).of_env rfl
    by_cases hseen : (Body.readIrq s).irq &&& 0x30 ≠ 0
    · rw [Body.irqPoll_seen n hseen]; exact hread
    · rw [Body.irqPoll_unseen n hseen]; exact ih (hread.wait 1)

theorem drainRead (h : Registers ph s ρ) (put : Byte → Buf → Buf) : Registers .off (Body.drainRead put s) ρ :=
  (h.rd (Body.reg s.cfg.aFifoData) s.cfg.readFill).of_env rfl

theorem readLevel (h : Registers ph s ρ) : Registers .off (Body.readLevel s) ρ :=
  (h.rd (Body.reg s.cfg.aFifoLevel) s.cfg.readFill).of_env rfl

theorem drain (h : Registers ph s ρ) : Registers .off (Body.drain s) ρ :=
  ((((h.drainRead _).drainRead _).drainRead _).drainRead _).drainRead _

/-! ## INIT -/

theorem initWrites (h : Registers ph s ρ) :
    let w := s.cfg.initWrites
    Registers .off (Body.initWrites s)
      (Function.update (Function.update (Function.update (Function.update (Function.update ρ
        w.w1.addr.toNat w.w1.value) w.w2.addr.toNat w.w2.value) w.w3.addr.toNat w.w3.value)
        w.w4.addr.toNat w.w4.value) w.w5.addr.toNat w.w5.value) :=
  ((((h.wrReg _ _).wrReg _ _).wrReg _ _).wrReg _ _).wrReg _ _

/-- INIT writes CommandReg, the registers of INIT_WRITES and TxControlReg at most. -/
theorem init (h : Registers ph s ρ) (n : Nat) :
    ∃ ρ', Registers .off (Body.init n s).2 ρ' ∧
      ∀ x, x ∉ [s.cfg.aCommand.toNat, s.cfg.aTxControl.toNat, s.cfg.initWrites.w1.addr.toNat,
        s.cfg.initWrites.w2.addr.toNat, s.cfg.initWrites.w3.addr.toNat, s.cfg.initWrites.w4.addr.toNat,
        s.cfg.initWrites.w5.addr.toNat] → ρ' x = ρ x := by
  simp only [List.mem_cons, List.not_mem_nil, or_false, not_or]
  have hreset : Registers .off (Body.reset n (Body.initLines s)).2
      (Function.update ρ s.cfg.aCommand.toNat s.cfg.cmdSoftReset) := h.csh.rsth.reset n
  by_cases hok : (Body.reset n (Body.initLines s)).1 = true
  · have hcfg : (Body.reset n (Body.initLines s)).2.cfg = s.cfg := by
      obtain ⟨tmp, cnt, env, history, he⟩ := Body.reset_fields n (Body.initLines s)
      rw [he]
      rfl
    have hwrites := hreset.initWrites
    obtain ⟨v, hanton⟩ := hwrites.anton
    rw [show (Body.initWrites (Body.reset n (Body.initLines s)).2).cfg = s.cfg from hcfg, hcfg] at hanton
    rw [Body.init_ok hok]
    refine ⟨_, hanton, fun x hx => ?_⟩
    obtain ⟨hcommand, hanton, h1, h2, h3, h4, h5⟩ := hx
    rw [Function.update_of_ne hanton, Function.update_of_ne h5, Function.update_of_ne h4,
      Function.update_of_ne h3, Function.update_of_ne h2, Function.update_of_ne h1,
      Function.update_of_ne hcommand]
  · rw [Body.init_unresponsive hok]
    exact ⟨_, hreset, fun x hx => Function.update_of_ne hx.1 _ _⟩

end Registers

/-! ## The card protocol -/

/-- What REQP and ANTICOLL leave in the registers: the Transceive code, the last byte sent, and changes
of FIFOLevelReg and BitFramingReg only. -/
structure CardWrites (c : Config) (data : Byte) (ρ ρ' : Nat → Byte) : Prop where
  command : ρ' c.aCommand.toNat = c.cmdTransceive
  fifo : ρ' c.aFifoData.toNat = data
  others : ∀ x, x ∉ [c.aCommand.toNat, c.aFifoData.toNat, c.aFifoLevel.toNat, c.aBitFraming.toNat] → ρ' x = ρ x

theorem CardWrites.trans {c : Config} {v w : Byte} {ρ ρ' ρ'' : Nat → Byte} (h : CardWrites c v ρ ρ')
    (h' : CardWrites c w ρ' ρ'') : CardWrites c w ρ ρ'' :=
  ⟨h'.command, h'.fifo, fun x hx => (h'.others x hx).trans (h.others x hx)⟩

/-- The three addresses whose last writes are known are distinct (00_scope.md R9). -/
theorem addresses_ne {c : Config} (hwf : c.wf = true) :
    c.aCommand.toNat ≠ c.aFifoData.toNat ∧ c.aCommand.toNat ≠ c.aBitFraming.toNat ∧
      c.aFifoData.toNat ≠ c.aBitFraming.toNat := by
  simp only [Config.wf, Config.addresses, Bool.and_eq_true, decide_eq_true_eq, List.nodup_cons, List.mem_cons,
    not_or] at hwf
  obtain ⟨⟨⟨_, hfifo, _, hframing, _⟩, _, ⟨_, hframing', _⟩, _⟩, _⟩ := hwf
  simp only [ne_eq, BitVec.toNat_inj]
  exact ⟨hfifo, hframing, hframing'⟩

/-- Data, then the Transceive code, then StartSend, over writes of the two other registers. -/
theorem cardWrites_of {c : Config} (hwf : c.wf = true) {data w : Byte} {ρ ρ' : Nat → Byte}
    (h : ∀ x, x ≠ c.aFifoLevel.toNat → x ≠ c.aBitFraming.toNat → ρ' x = ρ x) :
    CardWrites c data ρ (Function.update (Function.update (Function.update ρ' c.aFifoData.toNat data)
      c.aCommand.toNat c.cmdTransceive) c.aBitFraming.toNat w) := by
  obtain ⟨hfifo, hframing, hframing'⟩ := addresses_ne hwf
  refine ⟨?_, ?_, fun x hx => ?_⟩
  · rw [Function.update_of_ne hframing, Function.update_self]
  · rw [Function.update_of_ne hframing', Function.update_of_ne hfifo.symm, Function.update_self]
  · simp only [List.mem_cons, List.not_mem_nil, or_false, not_or] at hx
    obtain ⟨hcommand, hdata, hlevel, hframe⟩ := hx
    rw [Function.update_of_ne hframe, Function.update_of_ne hcommand, Function.update_of_ne hdata,
      h x hlevel hframe]

namespace Registers

variable {ph : Phase} {s : State} {ρ : Nat → Byte}

theorem reqp (h : Registers ph s ρ) (hwf : s.cfg.wf = true) (m : Byte) :
    ∃ ρ', Registers .off (Body.reqp m s) ρ' ∧ CardWrites s.cfg m ρ ρ' := by
  obtain ⟨v, hflush⟩ := (h.wrReg s.cfg.aBitFraming s.cfg.bfShort).setb s.cfg.aFifoLevel s.cfg.flushMask
  obtain ⟨w, hsend⟩ :=
    ((hflush.wrReg s.cfg.aFifoData m).wrReg s.cfg.aCommand s.cfg.cmdTransceive).startSend
  have hpoll := irqPoll 25 (s := Body.reqpStart m s) (hsend.of_env rfl)
  refine ⟨_, hpoll.readLevel.of_env rfl, cardWrites_of hwf fun x hlevel hframe => ?_⟩
  rw [Function.update_of_ne hlevel, Function.update_of_ne hframe]

theorem anticollSend (h : Registers ph s ρ) (hwf : s.cfg.wf = true) :
    ∃ ρ', Registers .off (Body.anticollSend s) ρ' ∧ CardWrites s.cfg 0x20 ρ ρ' := by
  obtain ⟨v, hflush⟩ := h.setb s.cfg.aFifoLevel s.cfg.flushMask
  have hburst := hflush.wburst2 (Body.reg s.cfg.aFifoData) 0x93 0x20
  rw [setWidth_reg] at hburst
  obtain ⟨w, hsend⟩ := (hburst.wrReg s.cfg.aCommand s.cfg.cmdTransceive).startSend
  exact ⟨_, hsend.readLevel, cardWrites_of hwf fun x hlevel _ => Function.update_of_ne hlevel _ _⟩

theorem anticoll (h : Registers ph s ρ) (hwf : s.cfg.wf = true) :
    ∃ ρ', Registers .off (Body.anticoll s).2 ρ' ∧ CardWrites s.cfg 0x20 ρ ρ' := by
  obtain ⟨ρ', hsend, hcard⟩ := h.anticollSend hwf
  by_cases hlvl : (Body.anticollSend s).lvl = 5
  · rw [Body.anticoll_uid hlvl]; exact ⟨ρ', hsend.drain, hcard⟩
  · rw [Body.anticoll_empty hlvl]; exact ⟨ρ', hsend, hcard⟩

theorem getuidEnd {ρ₀ : Nat → Byte} (h : Registers .off s ρ) (hwf : s.cfg.wf = true)
    (hρ : CardWrites s.cfg 0x26 ρ₀ ρ) :
    ∃ ρ', Registers .off (Machine.getuidEnd s) ρ' ∧
      CardWrites s.cfg (if s.presence then 0x20 else 0x26) ρ₀ ρ' := by
  obtain hcard | hcard := Bool.eq_false_or_eq_true s.presence
  · obtain ⟨ρ', hregs, hwrites⟩ := h.anticoll hwf
    rw [getuidEnd_present hcard, if_pos hcard]
    exact ⟨ρ', hregs, hρ.trans hwrites⟩
  · rw [getuidEnd_absent hcard, if_neg (by simp [hcard])]
    exact ⟨ρ, h, hρ⟩

end Registers

/-- Settles O45: each command completes in the state of its bodies, whose writes to the registers are
known. -/
theorem registerFileUnderProtocolCommands : Obligations.RegisterFileUnderProtocolCommands := by
  intro s t regs queues ph a d hs hwf hregs henv ends c
  have start (op : OpCode) : Registers ph (accepted op a d s) regs.read := ⟨regs, queues, henv, hregs, fun _ => rfl⟩
  have card (i : Instr) (data : Byte) (ht : Completes i s t →
      ∃ ρ, Registers .off t ρ ∧ CardWrites c data regs.read ρ) : ends i (fun regs' =>
        regs'.read c.aCommand.toNat = c.cmdTransceive ∧ regs'.read c.aFifoData.toNat = data ∧
        ∀ x, x ∉ [c.aCommand.toNat, c.aFifoData.toNat, c.aFifoLevel.toNat, c.aBitFraming.toNat] →
          regs'.read x = regs.read x) := by
    intro h
    obtain ⟨ρ, ⟨regs', queues', he, _, hread⟩, hcommand, hfifo, hothers⟩ := ht h
    refine ⟨regs', queues', he, ?_⟩
    simp only [hread]
    exact ⟨hcommand, hfifo, hothers⟩
  refine ⟨fun h => ?_, fun h => ?_, ?_, card _ _ fun h => ?_⟩
  · obtain ⟨n, rfl⟩ := completes_reset hs hwf h
    obtain ⟨regs', queues', he, _, hread⟩ := (start 0x5).reset n
    exact ⟨regs', queues', he, fun x => (hread x).trans (Function.update_apply _ _ _ _)⟩
  · obtain ⟨n, rfl⟩ := completes_init hs hwf h
    obtain ⟨ρ, ⟨regs', queues', he, _, hread⟩, hothers⟩ := (start 0x8).init n
    exact ⟨regs', queues', he, fun x hx => (hread x).trans (hothers x hx)⟩
  · intro i data hi
    refine card i data fun h => ?_
    simp only [List.mem_cons, Prod.mk.injEq, List.not_mem_nil, or_false] at hi
    obtain ⟨rfl, rfl⟩ | ⟨rfl, rfl⟩ := hi
    · obtain ⟨ρ, hρ, hwrites⟩ := (start 0x9).reqp hwf data
      rw [h.unique hs (completes_reqp hs a data)]
      exact ⟨ρ, hρ.of_env rfl, hwrites⟩
    · obtain ⟨ρ, hρ, hwrites⟩ := (start 0xA).anticoll hwf
      rw [h.unique hs (completes_anticoll hs a d)]
      exact ⟨ρ, hρ.of_env rfl, hwrites⟩
  · obtain ⟨ρ, hρ, hwrites⟩ := (start 0xB).reqp hwf 0x26
    obtain ⟨hcs, _, _⟩ := Body.reqp_frame 0x26 (accepted 0xB a d s)
    have hcfg : (Body.reqp 0x26 (accepted 0xB a d s)).cfg = s.cfg := by
      obtain ⟨_, _, _, _, _, _, _, _, he⟩ := Body.reqp_fields 0x26 (accepted 0xB a d s)
      rw [he]
      rfl
    rw [h.unique hs (completes_getuid hs a d)]
    generalize Body.reqp 0x26 (accepted 0xB a d s) = u at *
    have hpresence : (getuidEnd u).presence = u.presence := by
      obtain ⟨_, _, _, _, _, he⟩ := getuidEnd_fields hcs
      rw [he]
    rw [hpresence, show c = u.cfg from hcfg.symm]
    exact hρ.getuidEnd (hcfg ▸ hwf) (hcfg.symm ▸ hwrites)

end Sys2Proof.Machine
end

section
/-! PROOF. Addresses modulo 64 and the register file under single frames (20_memory.md R61, R72, R73): a frame byte has room for six address bits, and each bracket's effect on a reference environment as one equation. -/

namespace Sys2Proof.Machine

/-! ## Addresses with the same low six bits (20_memory.md R61) -/

theorem wframeByte_low (a : Byte) : wframeByte (a &&& 0x3F).toNat = wframeByte a.toNat := by
  revert a; decide

theorem rframeByte_low (a : Byte) : rframeByte (a &&& 0x3F).toNat = rframeByte a.toNat := by
  revert a; decide

namespace Body

section
variable (a v f : Byte) (s : State)

theorem wr_low : wr (a &&& 0x3F) v s = wr a v s := by
  unfold wr; rw [wframeByte_low]

theorem rd_low : rd (a &&& 0x3F) f s = rd a f s := by
  unfold rd; rw [rframeByte_low]

theorem rdByte_low : rdByte (a &&& 0x3F) f s = rdByte a f s := by
  unfold rdByte; rw [rframeByte_low]

theorem readTmp_low : readTmp (a &&& 0x3F) s = readTmp a s := by
  unfold readTmp; rw [rd_low, rdByte_low]

theorem setb_low : setb (a &&& 0x3F) v s = setb a v s := by
  unfold setb; rw [readTmp_low, wr_low]

theorem clrb_low : clrb (a &&& 0x3F) v s = clrb a v s := by
  unfold clrb; rw [readTmp_low, wr_low]

end

end Body

/-- Settles O19: every body is the body at the low six bits of its address. -/
theorem addressesAliasModuloSixtyFour : Obligations.AddressesAliasModuloSixtyFour := by
  intro s a a' v f h
  refine ⟨?_, ?_, ?_, ?_, ?_⟩
  · rw [← Body.wr_low, h, Body.wr_low]
  · rw [← Body.rd_low, h, Body.rd_low]
  · rw [← Body.rdByte_low, h, Body.rdByte_low]
  · rw [← Body.setb_low, h, Body.setb_low]
  · rw [← Body.clrb_low, h, Body.clrb_low]

/-! ## The reference environments under one bracket (20_memory.md R72, R73) -/

theorem toNat_setWidth_six (b : Byte) : (b.setWidth 6).toNat = (b &&& 0x3F).toNat := by
  revert b; decide

namespace Env

theorem xfer_frame (tx : Byte) (regs : Memory) (queues : Queues) :
    ((script regs queues .addr).xfer tx).2 = .script regs queues (.data (frameIsRead tx) (frameAddr tx)) := rfl

theorem xfer_write (tx : Byte) (regs : Memory) (queues : Queues) (a : RegAddr) :
    ((script regs queues (.data false a)).xfer tx).2 = .script (regs.write a.toNat tx) queues (.data false a) := rfl

/-- A data exchange of a read bracket takes at most from a queue. -/
theorem xfer_read (tx : Byte) (regs : Memory) (queues : Queues) (a : RegAddr) :
    ∃ queues', ((script regs queues (.data true a)).xfer tx).2 = .script regs queues' (.data true a) := by
  simp only [xfer]
  split
  · exact ⟨_, rfl⟩
  · exact ⟨queues, rfl⟩

end Env

namespace Body

section
variable {s : State} {regs : Memory} {queues : Queues} {ph : Phase} (henv : s.env = .script regs queues ph)
include henv

theorem wr_env (a v : Byte) :
    (wr a v s).env = .script (regs.write (a.setWidth 6).toNat v) queues .off := by
  simp [wr, send, select, henv, Env.csl, Env.xfer_frame, Env.xfer_write, Env.csh, frameIsRead_wframeByte,
    frameAddr_wframeByte]

theorem wburst2_env (a v w : Byte) :
    (wburst2 a v w s).env =
      .script ((regs.write (a.setWidth 6).toNat v).write (a.setWidth 6).toNat w) queues .off := by
  simp [wburst2, send, select, henv, Env.csl, Env.xfer_frame, Env.xfer_write, Env.csh, frameIsRead_wframeByte,
    frameAddr_wframeByte]

theorem rd_env (a f : Byte) : ∃ queues', (rd a f s).env = .script regs queues' .off := by
  obtain ⟨queues', he⟩ := Env.xfer_read f regs queues (frameAddr (rframeByte a.toNat))
  refine ⟨queues', ?_⟩
  simp [rd, send, select, henv, Env.csl, Env.xfer_frame, frameIsRead_rframeByte, he, Env.csh]

end

end Body

/-- Settles O21: each instruction completes in the state of its bracket, which writes one register, twice
in the burst, or only takes from a queue. -/
theorem registerFileUnderFrames : Obligations.RegisterFileUnderFrames := by
  intro s regs queues ph a b v w hs hregs henv
  have accepted_env (op : OpCode) : (accepted op b v s).env = .script regs queues ph := henv
  refine ⟨?_, ?_, ?_, ?_, ?_⟩
  · refine ⟨_, _, completes_wframe hs a v, Body.wr_env henv (Body.reg a) v, fun x => ?_⟩
    rw [Memory.read_write hregs, setWidth_reg]
  · refine ⟨_, _, completes_wrreg hs b v, Body.wr_env (accepted_env 0x1) b v, fun x => ?_⟩
    rw [Memory.read_write hregs, toNat_setWidth_six]
  · refine ⟨_, _, completes_wburst2 hs a v w, Body.wburst2_env henv (Body.reg a) v w, fun x => ?_⟩
    have hfirst : (regs.write a.toNat v).wf = true := Memory.wf_write hregs a.isLt v
    rw [setWidth_reg, Memory.read_write hfirst, Memory.read_write hregs]
    split <;> rfl
  · obtain ⟨queues', he⟩ := Body.rd_env henv (Body.reg a) v
    exact ⟨_, queues', completes_rframe hs a v, he⟩
  · obtain ⟨queues', he⟩ := Body.rd_env (accepted_env 0x2) b s.cfg.readFill
    exact ⟨_, queues', completes_rdreg hs b v, he⟩

end Sys2Proof.Machine
end

section
/-! PROOF. Every step keeps the register file and the queues canonical (20_memory.md R60, R73): only the environment's own answers change them, and each of those keeps the form. -/

namespace Sys2Proof.Machine

/-- From `s` to `t` a canonical environment stays canonical. -/
def KeepsEnvWf (s t : State) : Prop := s.env.wf = true → t.env.wf = true

theorem KeepsEnvWf.of_eq {s t : State} (h : t.env = s.env) : KeepsEnvWf s t := fun hs => h ▸ hs

theorem csh_keepsEnvWf (s : State) : KeepsEnvWf s (csh s) := fun hs => (Env.wf_csh s.env).trans hs

theorem Prim.keepsEnvWf {s t : State} (h : Prim s t) : KeepsEnvWf s t := by
  intro hs
  cases h with
  | none => exact hs
  | select _ => exact (Env.wf_csl s.env).trans hs
  | send tx _ => exact Env.wf_xfer hs tx
  | csh => exact csh_keepsEnvWf s hs
  | wait n _ => exact (Env.wf_dly n s.env).trans hs
  | rsth => exact (Env.wf_rsth s.env).trans hs

theorem Ends.env {s t : State} (h : Ends s t) : t.env = s.env := by
  obtain ⟨g, K, rfl⟩ | ⟨r, rfl⟩ | rfl := h <;> rfl

theorem raise_keepsEnvWf (op : Option OpCode) (st : Status) (s : State) : KeepsEnvWf s (raise op st s) := by
  have deselected : KeepsEnvWf s (match s.cs with | .low => csh s | .high => s) := by
    cases s.cs with
    | low => exact csh_keepsEnvWf s
    | high => exact .of_eq rfl
  cases op with
  | some o => exact deselected
  | none => exact deselected

theorem hardReset_keepsEnvWf (s : State) : KeepsEnvWf s (hardReset s) := by
  intro hs
  unfold hardReset
  cases s.cs with
  | low => exact (Env.wf_csh s.env).trans hs
  | high => exact hs

theorem Advances.keepsEnvWf {s t : State} (h : Advances s t) : KeepsEnvWf s t := by
  obtain ⟨s1, s2, hprim, hsilent, hends⟩ | ⟨op, st, rfl⟩ := h
  · intro hs
    rw [hends.env, hsilent.env]
    exact hprim.keepsEnvWf hs
  · exact raise_keepsEnvWf op st s

theorem Steps.keepsEnvWf {s t : State} (h : Steps s t) : KeepsEnvWf s t := by
  cases h with
  | resets => exact hardReset_keepsEnvWf s
  | moves _ hadvance => exact (advance_cases hadvance).keepsEnvWf
  | waits _ => exact .of_eq rfl
  | accepts _ _ _ _ => exact .of_eq rfl
  | @rejects op a d ws _ _ => exact raise_keepsEnvWf (some op) .illegalOp (latchCommand op a d { s with cmds := ws })

/-- Settles O51: the parts of a step that reach the environment are the primitives and the reset, and
each keeps the canonical form. -/
theorem stepKeepsTheEnvironmentCanonical : Obligations.StepKeepsTheEnvironmentCanonical := by
  intro s t hs h
  have htaken : (takeReset s).2.env.wf = true := by rw [takeReset_snd]; exact hs
  exact (steps_of_step h).keepsEnvWf htaken

end Sys2Proof.Machine
end

section
/-! PROOF. The environment reaches the block only through the byte a read keeps (20_memory.md R66; 40_register_access.md R121): two states that differ only in the environment and in the received bytes of their histories take the same step. -/

namespace Sys2Proof.Machine

/-! ## States alike but for the environment -/

/-- The event with the byte received in it put aside. -/
def BusEvent.hideReceived : BusEvent → BusEvent
  | .x tx _ => .x tx 0
  | .csl => .csl
  | .csh => .csh
  | .dly n => .dly n
  | .rsth => .rsth

/-- The event with the byte received in it put aside. -/
def Event.hideReceived : Event → Event
  | .bus e => .bus e.hideReceived
  | .cmd op a d => .cmd op a d
  | .response r => .response r

/-- `s` behind another environment and with another history. -/
def State.withEnv (e : Env) (h : List Event) (s : State) : State := { s with env := e, history := h }

/-- `t` is `s` but for the environment and the received bytes in the history. -/
def Alike (s t : State) : Prop :=
  ∃ e h, t = s.withEnv e h ∧ h.map Event.hideReceived = s.history.map Event.hideReceived

namespace Alike

variable {s t : State}

theorem withEnv (e : Env) (s : State) : Alike s { s with env := e } := ⟨e, s.history, rfl, rfl⟩

theorem cs (h : Alike s t) : t.cs = s.cs := by
  obtain ⟨e, hist, rfl, _⟩ := h; rfl

theorem run (h : Alike s t) : t.run = s.run := by
  obtain ⟨e, hist, rfl, _⟩ := h; rfl

theorem cmds (h : Alike s t) : t.cmds = s.cmds := by
  obtain ⟨e, hist, rfl, _⟩ := h; rfl

theorem select (h : Alike s t) : Alike (Body.select s) (Body.select t) := by
  obtain ⟨e, hist, rfl, hh⟩ := h
  exact ⟨e.csl, hist ++ [.bus .csl], rfl, by simp [Body.select, hh]⟩

theorem send (h : Alike s t) (tx : Byte) : Alike (Body.send tx s) (Body.send tx t) := by
  obtain ⟨e, hist, rfl, hh⟩ := h
  exact ⟨(e.xfer tx).2, hist ++ [.bus (.x tx (e.xfer tx).1)], rfl,
    by simp [Body.send, hh, Event.hideReceived, BusEvent.hideReceived]⟩

theorem csh (h : Alike s t) : Alike (csh s) (csh t) := by
  obtain ⟨e, hist, rfl, hh⟩ := h
  exact ⟨e.csh, hist ++ [.bus .csh], rfl, by simp [hh]⟩

theorem wait (h : Alike s t) (n : Nat) : Alike (Body.wait n s) (Body.wait n t) := by
  obtain ⟨e, hist, rfl, hh⟩ := h
  exact ⟨e.dly n, hist ++ [.bus (.dly n)], rfl, by simp [Body.wait, hh]⟩

theorem rsth (h : Alike s t) : Alike (rsth s) (rsth t) := by
  obtain ⟨e, hist, rfl, hh⟩ := h
  exact ⟨e.rsth, hist ++ [.bus .rsth], rfl, by simp [hh]⟩

theorem goto (h : Alike s t) (g : Frame) (K : List Frame) : Alike (goto g K s) (goto g K t) := by
  obtain ⟨e, hist, rfl, hh⟩ := h
  exact ⟨e, hist, rfl, hh⟩

theorem withCmds (h : Alike s t) (ws : List CmdWord) : Alike { s with cmds := ws } { t with cmds := ws } := by
  obtain ⟨e, hist, rfl, hh⟩ := h
  exact ⟨e, hist, rfl, hh⟩

theorem idle (h : Alike s t) : Alike { s with run := .idle } { t with run := .idle } := by
  obtain ⟨e, hist, rfl, hh⟩ := h
  exact ⟨e, hist, rfl, hh⟩

theorem respond (h : Alike s t) (r : Response) : Alike (respond r s) (respond r t) := by
  obtain ⟨e, hist, rfl, hh⟩ := h
  exact ⟨e, hist ++ [.response r], rfl, by simp [hh]⟩

theorem latchCommand (h : Alike s t) (op : OpCode) (a d : Byte) :
    Alike (latchCommand op a d s) (latchCommand op a d t) := by
  obtain ⟨e, hist, rfl, hh⟩ := h
  exact ⟨e, hist ++ [.cmd op a d], rfl, by simp [hh]⟩

theorem raise (h : Alike s t) (op : Option OpCode) (st : Status) : Alike (raise op st s) (raise op st t) := by
  have deselected : Alike (match s.cs with | .low => Machine.csh s | .high => s)
      (match t.cs with | .low => Machine.csh t | .high => t) := by
    rw [h.cs]
    cases s.cs with
    | low => exact h.csh
    | high => exact h
  cases op with
  | some o => exact deselected.respond _
  | none => exact deselected.idle

theorem complete (h : Alike s t) (f : Frame) (r : Ret) : Alike (complete f r s) (complete f r t) := by
  have hresponse (op : OpCode) : responseOf op f r t = responseOf op f r s := by
    obtain ⟨e, hist, rfl, _⟩ := h
    unfold responseOf getuidResponse; rfl
  unfold Machine.complete
  cases f.commandOp with
  | some op => simp only [hresponse]; exact h.respond _
  | none => exact h.idle

theorem hardReset (h : Alike s t) : Alike (hardReset s) (hardReset t) := by
  obtain ⟨e, hist, rfl, _⟩ := h
  exact ⟨_, [], rfl, rfl⟩

end Alike

/-! ## Outcomes alike -/

/-- When `x` answers a next state, `y` answers one alike. -/
def AnswersAlike (x y : Outcome) : Prop := ∀ u, x = .next u → ∃ v, y = .next v ∧ Alike u v

namespace AnswersAlike

variable {s t : State}

theorem next (h : Alike s t) : AnswersAlike (.next s) (.next t) := by
  intro u hu; cases hu; exact ⟨t, rfl, h⟩

theorem fault (r : Fault) (y : Outcome) : AnswersAlike (.fault r) y := by
  intro u hu; cases hu

theorem ite {c : Prop} [Decidable c] {x y x' y' : Outcome} (hx : AnswersAlike x x') (hy : AnswersAlike y y') :
    AnswersAlike (if c then x else y) (if c then x' else y') := by
  split
  · exact hx
  · exact hy

theorem csl (h : Alike s t) (g : Frame) (K : List Frame) :
    AnswersAlike (andThen (csl s) fun s => .next (goto g K s)) (andThen (csl t) fun s => .next (goto g K s)) := by
  obtain ⟨hc, e⟩ | ⟨_, e⟩ := csl_cases s
  · rw [e, csl_eq (h.cs.trans hc)]; exact next (h.select.goto g K)
  · rw [e]; exact fault _ _

theorem transmit (h : Alike s t) (tx : Byte) (g : Frame) (K : List Frame) :
    AnswersAlike (andThen (transmit tx s) fun s => .next (goto g K s))
      (andThen (transmit tx t) fun s => .next (goto g K s)) := by
  obtain ⟨hc, e⟩ | ⟨_, e⟩ := transmit_cases tx s
  · rw [e, transmit_eq tx (h.cs.trans hc)]; exact next ((h.send tx).goto g K)
  · rw [e]; exact fault _ _

theorem delay (h : Alike s t) (n : Nat) (g : Frame) (K : List Frame) :
    AnswersAlike (andThen (delay n s) fun s => .next (goto g K s))
      (andThen (delay n t) fun s => .next (goto g K s)) := by
  obtain ⟨hc, e⟩ | ⟨_, e⟩ := delay_cases n s
  · rw [e, delay_eq n (h.cs.trans hc)]; exact next ((h.wait n).goto g K)
  · rw [e]; exact fault _ _

end AnswersAlike

/-! ## The return -/

/-- How a caller resumes, behind another environment. -/
def Resume.withEnv (e : Env) (h : List Event) : Resume → Resume
  | .goesOn g s => .goesOn g (s.withEnv e h)
  | .ends s => .ends (s.withEnv e h)

theorem afterCall_withEnv (e : Env) (h : List Event) (c : Frame) (r : Ret) (s : State) :
    afterCall c r (s.withEnv e h) = (afterCall c r s).map (Resume.withEnv e h) := by
  unfold afterCall
  split <;> rfl

theorem ret_alike (K : List Frame) : ∀ (f : Frame) (r : Ret) {s t : State}, Alike s t →
    AnswersAlike (ret K f r s) (ret K f r t) := by
  induction K with
  | nil => intro f r s t h; exact .next (h.complete f r)
  | cons c K ih =>
    intro f r s t h
    obtain ⟨e, hist, rfl, hh⟩ := h
    simp only [ret, afterCall_withEnv]
    cases ha : afterCall c r s with
    | none => exact .fault _ _
    | some x =>
      cases x with
      | goesOn g s' => exact .next ⟨e, hist, rfl, hh.trans (by rw [goto_history, (afterCall_goes ha).history])⟩
      | ends s' => exact ih c .nothing ⟨e, hist, rfl, by rw [(afterCall_ends ha).history, hh]⟩

/-! ## The step -/

/-- The step of a busy block that does not keep a received byte is the same behind every environment. -/
theorem advance_alike {f : Frame} (hread : ∀ a fill, f ≠ .rdreg a fill .s3) (K : List Frame) {s t : State}
    (hst : Alike s t) : AnswersAlike (advance f K s) (advance f K t) := by
  obtain ⟨e, hist, rfl, hh⟩ := id hst
  cases f with
  | wrreg a v l =>
    cases l with
    | s1 => exact .csl hst _ _
    | s2 => exact .transmit hst _ _ _
    | s3 => exact .transmit hst _ _ _
    | s4 => exact ret_alike K _ _ hst.csh
  | rdreg a fill l =>
    cases l with
    | s1 => exact .csl hst _ _
    | s2 => exact .transmit hst _ _ _
    | s3 => exact absurd rfl (hread a fill)
    | s4 r => exact ret_alike K _ _ hst.csh
  | wburst2 a v w l =>
    cases l with
    | s1 => exact .csl hst _ _
    | s2 => exact .transmit hst _ _ _
    | s3 => exact .transmit hst _ _ _
    | s4 => exact .transmit hst _ _ _
    | s5 => exact ret_alike K _ _ hst.csh
  | setbits a m l => cases l <;> exact .next ⟨e, hist, rfl, hh⟩
  | clrbits a m l => cases l <;> exact .next ⟨e, hist, rfl, hh⟩
  | reset l =>
    cases l with
    | s2 => exact .delay hst _ _ _
    | s5 => exact .ite (ret_alike K _ _ hst) (.next (hst.goto _ _))
    | s6 => exact .delay hst _ _ _
    | s8 => exact .ite (.next (hst.raise _ _)) (.next (hst.goto _ _))
    | _ => exact .next ⟨e, hist, rfl, hh⟩
  | anton l =>
    cases l with
    | s2 => exact .ite (ret_alike K _ _ hst) (.next (hst.goto _ _))
    | _ => exact .next ⟨e, hist, rfl, hh⟩
  | antoff l => cases l; exact .next ⟨e, hist, rfl, hh⟩
  | init l =>
    cases l with
    | s2 => exact .next (hst.csh.goto _ _)
    | s3 => exact .next (hst.rsth.goto _ _)
    | _ => exact .next ⟨e, hist, rfl, hh⟩
  | reqp m l =>
    cases l with
    | s6 => exact .delay hst _ _ _
    | s10 => exact .ite (.next (hst.goto _ _)) (.next (hst.goto _ _))
    | s11 => exact .delay hst _ _ _
    | s13 => exact .ite (.next (hst.goto _ _)) (.next ⟨e, hist, rfl, hh⟩)
    | s15 => exact ret_alike K _ _ (s := { s with presence := presenceOf s.lvl }) ⟨e, hist, rfl, hh⟩
    | _ => exact .next ⟨e, hist, rfl, hh⟩
  | anticoll l =>
    cases l with
    | s5 => exact .delay hst _ _ _
    | s8 => exact .ite (.next (hst.goto _ _)) (ret_alike K _ _ hst)
    | s11 str => exact ret_alike K _ _ hst
    | _ => exact .next ⟨e, hist, rfl, hh⟩
  | drain l => exact .next ⟨e, hist, rfl, hh⟩
  | getuid l =>
    cases l with
    | s2 => exact .ite (.next (hst.goto _ _)) (ret_alike K _ _ hst)
    | s4 u => exact ret_alike K _ _ hst
    | _ => exact .next ⟨e, hist, rfl, hh⟩

/-- The receiving step of a read differs only in the byte its label keeps. -/
theorem advance_read_alike (a : Operand) (fill : Fill) (K : List Frame) {s t u : State} (hst : Alike s t)
    (h : advance (.rdreg a fill .s3) K s = .next u) :
    ∃ v, advance (.rdreg a fill .s3) K t = .next v ∧ Alike { u with run := v.run } v := by
  have hbyte : fill.byte t = fill.byte s := by obtain ⟨e, hist, rfl, _⟩ := hst; rfl
  simp only [advance, stepRdreg, hbyte] at h ⊢
  obtain ⟨hc, e⟩ | ⟨_, e⟩ := exchange_cases (fill.byte s) s <;> rw [e] at h <;> cases h
  rw [exchange_eq _ (hst.cs.trans hc)]
  exact ⟨_, rfl, (hst.send (fill.byte s)).goto _ _⟩

/-- An idle block does the same with an instruction behind every environment. -/
theorem exec_alike {s t : State} (hrun : s.run = .idle) (hst : Alike s t) (i : Instr) :
    AnswersAlike (exec i s) (exec i t) := by
  have hrun' : t.run = .idle := hst.run.trans hrun
  have command (op : OpCode) (a d : Byte) (f : Frame) :
      AnswersAlike (beginCommand op a d f s) (beginCommand op a d f t) := by
    rw [beginCommand_idle hrun, beginCommand_idle hrun']
    exact .next ((hst.latchCommand op a d).goto f [])
  have reserved (op : OpCode) (a d : Byte) : AnswersAlike (beginReserved op a d s) (beginReserved op a d t) := by
    rw [beginReserved_idle hrun, beginReserved_idle hrun']
    exact .next ((hst.latchCommand op a d).raise _ _)
  have frame (f : Frame) (hf : ∀ a fill, f ≠ .rdreg a fill .s3) : AnswersAlike (beginFrame f s) (beginFrame f t) := by
    unfold beginFrame whenIdle
    rw [hrun, hrun']
    exact advance_alike hf [] hst
  cases i with
  | reserved0 a d => exact reserved _ _ _
  | reservedC a d => exact reserved _ _ _
  | reservedD a d => exact reserved _ _ _
  | reservedE a d => exact reserved _ _ _
  | reservedF a d => exact reserved _ _ _
  | wframe a v => exact frame _ nofun
  | rframe a f => exact frame _ nofun
  | wburst2 a v w => exact frame _ nofun
  | _ => exact command _ _ _ _

theorem work_busy {s : State} {f : Frame} {K : List Frame} (hrun : s.run = .busy f K) :
    work s = advance f K s := by
  unfold work; rw [hrun]

theorem work_waits {s : State} (hrun : s.run = .idle) (hcmds : s.cmds = []) : work s = .next s := by
  simp [work, fetch, hrun, hcmds]

theorem work_port {s : State} {w : CmdWord} {ws : List CmdWord} (hrun : s.run = .idle) (hcmds : s.cmds = w :: ws) :
    work s = exec (decodeCommand w) { s with cmds := ws } := by
  simp [work, fetch, hrun, hcmds]

theorem work_alike {s t : State} (hread : ∀ a fill K, s.run ≠ .busy (.rdreg a fill .s3) K) (hst : Alike s t) :
    AnswersAlike (work s) (work t) := by
  cases hrun : s.run with
  | busy f K =>
    rw [work_busy hrun, work_busy (hst.run.trans hrun)]
    exact advance_alike (fun a fill hf => hread a fill K (hf ▸ hrun)) K hst
  | idle =>
    cases hcmds : s.cmds with
    | nil =>
      rw [work_waits hrun hcmds, work_waits (hst.run.trans hrun) (hst.cmds.trans hcmds)]
      exact .next hst
    | cons w ws =>
      rw [work_port hrun hcmds, work_port (hst.run.trans hrun) (hst.cmds.trans hcmds)]
      exact exec_alike (s := { s with cmds := ws }) hrun (hst.withCmds ws) (decodeCommand w)

theorem step_eq (s : State) :
    step s = if (takeReset s).1 then .next (hardReset (takeReset s).2) else work (takeReset s).2 := by
  unfold step
  obtain ⟨b, s'⟩ := takeReset s
  cases b <;> rfl

theorem takeReset_alike {s t : State} (hst : Alike s t) :
    (takeReset t).1 = (takeReset s).1 ∧ Alike (takeReset s).2 (takeReset t).2 := by
  obtain ⟨e, hist, rfl, hh⟩ := hst
  rw [takeReset_snd, takeReset_snd]
  refine ⟨?_, e, hist, rfl, hh⟩
  unfold takeReset State.withEnv
  cases s.resetIn <;> rfl

theorem step_alike {s t : State} (hread : ∀ a fill K, s.run ≠ .busy (.rdreg a fill .s3) K) (hst : Alike s t) :
    AnswersAlike (step s) (step t) := by
  obtain ⟨hlevel, htaken⟩ := takeReset_alike hst
  rw [step_eq, step_eq, hlevel]
  exact .ite (.next htaken.hardReset) (work_alike (by rw [takeReset_snd]; exact hread) htaken)

theorem step_read_alike {s t u : State} {a : Operand} {fill : Fill} {K : List Frame}
    (hrun : s.run = .busy (.rdreg a fill .s3) K) (hst : Alike s t) (h : step s = .next u) :
    ∃ v, step t = .next v ∧ Alike { u with run := v.run } v := by
  obtain ⟨hlevel, htaken⟩ := takeReset_alike hst
  have hbusy : (takeReset s).2.run = .busy (.rdreg a fill .s3) K := by rw [takeReset_snd, hrun]
  rw [step_eq, work_busy hbusy] at h
  rw [step_eq, work_busy (htaken.run.trans hbusy), hlevel]
  split at h
  · next hactive => cases h; rw [if_pos hactive]; exact ⟨_, rfl, htaken.hardReset⟩
  · next hinactive => rw [if_neg hinactive]; exact advance_read_alike a fill K htaken h

/-! ## What alike states show -/

theorem transmitted_map_hideReceived (es : List BusEvent) :
    transmitted (es.map BusEvent.hideReceived) = transmitted es := by
  induction es with
  | nil => rfl
  | cons e es ih => cases e <;> simp [BusEvent.hideReceived, transmitted, ih]

namespace Alike

variable {s t : State}

theorem trace (h : Alike s t) : t.trace.map BusEvent.hideReceived = s.trace.map BusEvent.hideReceived := by
  have hview (u : State) : u.trace.map BusEvent.hideReceived =
      (u.history.map Event.hideReceived).filterMap Event.bus? := by
    rw [State.trace, List.map_filterMap, List.filterMap_map]
    congr 1
    funext e
    cases e <;> rfl
  obtain ⟨e, hist, rfl, hh⟩ := h
  rw [hview, hview, ← hh]
  rfl

theorem responses (h : Alike s t) : t.responses = s.responses := by
  have hview (u : State) : u.responses = (u.history.map Event.hideReceived).filterMap Event.response? := by
    rw [State.responses, List.filterMap_map]
    congr 1
    funext e
    cases e <;> rfl
  obtain ⟨e, hist, rfl, hh⟩ := h
  rw [hview, hview, ← hh]
  rfl

theorem transmitted_trace (h : Alike s t) : transmitted t.trace = transmitted s.trace := by
  rw [← transmitted_map_hideReceived, h.trace, transmitted_map_hideReceived]

theorem length_trace (h : Alike s t) : t.trace.length = s.trace.length := by
  rw [← List.length_map BusEvent.hideReceived, h.trace, List.length_map]

end Alike

/-- Settles O54: behind another environment the step is alike, the position included but for the byte the
receiving step of a read keeps. -/
theorem environmentOnlySuppliesReceivedBytes : Obligations.EnvironmentOnlySuppliesReceivedBytes := by
  intro s t e h
  have hstep : ∃ t', step { s with env := e } = .next t' ∧ Alike { t with run := t'.run } t' ∧
      ((∀ a f K, s.run ≠ .busy (.rdreg a f .s3) K) → t'.run = t.run) := by
    by_cases hread : ∀ a f K, s.run ≠ .busy (.rdreg a f .s3) K
    · obtain ⟨t', ht', e', hist, rfl, hh⟩ := step_alike hread (.withEnv e s) t h
      exact ⟨_, ht', ⟨e', hist, rfl, hh⟩, fun _ => rfl⟩
    · obtain ⟨a, f, K, hrun⟩ : ∃ a f K, s.run = .busy (.rdreg a f .s3) K := by simpa using hread
      obtain ⟨t', ht', halike⟩ := step_read_alike hrun (.withEnv e s) h
      exact ⟨t', ht', halike, fun hne => absurd hrun (hne a f K)⟩
  obtain ⟨t', ht', halike, hposition⟩ := hstep
  have htransmitted : transmitted t'.trace = transmitted t.trace := halike.transmitted_trace
  have hlength : t'.trace.length = t.trace.length := halike.length_trace
  have hresponses : t'.responses = t.responses := halike.responses
  obtain ⟨e', hist, hfields, _⟩ := halike
  refine ⟨t', ht', htransmitted, hlength, ?_, ?_, ?_, ?_, ?_, ?_, ?_, ?_, ?_, ?_, ?_, hresponses, hposition⟩ <;>
    rw [hfields] <;> rfl

end Sys2Proof.Machine
end

section
/-! PROOF. The encodings (30_encoding.md R90 to R105): a command word and a frame byte are their fields, the brackets that decode are the three kinds of frame, and decoder and encoder undo each other. -/

namespace Sys2Proof

/-! ## The fields of a command word (R99, R100, R101) -/

@[simp] theorem cmdOp_commandWord (op : OpCode) (a d : Byte) : cmdOp (commandWord op a d) = op := by
  unfold cmdOp commandWord
  rw [BitVec.extractLsb'_append_eq_of_le (by decide)]
  exact BitVec.extractLsb'_append_eq_left

@[simp] theorem cmdAddr_commandWord (op : OpCode) (a d : Byte) : cmdAddr (commandWord op a d) = a := by
  unfold cmdAddr commandWord
  rw [BitVec.extractLsb'_append_eq_of_le (by decide)]
  exact BitVec.extractLsb'_append_eq_right

@[simp] theorem cmdData_commandWord (op : OpCode) (a d : Byte) : cmdData (commandWord op a d) = d :=
  BitVec.extractLsb'_append_eq_right

@[simp] theorem commandWord_fields (w : CmdWord) : commandWord (cmdOp w) (cmdAddr w) (cmdData w) = w := by
  unfold commandWord cmdOp cmdAddr cmdData
  rw [BitVec.extractLsb'_append_extractLsb'_eq_extractLsb' (by rfl),
    BitVec.extractLsb'_append_extractLsb'_eq_extractLsb' (by rfl)]
  exact BitVec.extractLsb'_eq_self

@[simp] theorem decodeCommand_commandWord (op : OpCode) (a d : Byte) :
    decodeCommand (commandWord op a d) = commandOf op a d := by
  simp [decodeCommand]

/-- The command of an op code is encoded with that op code. -/
theorem encode_commandOf (op : OpCode) (a d : Byte) :
    encode (commandOf op a d) = .command (commandWord op a d) := by
  have hop : op = BitVec.ofNat 4 op.toNat := by simp
  have hlt : op.toNat < 16 := op.isLt
  generalize op.toNat = n at hop hlt
  subst hop
  interval_cases n <;> rfl

theorem encode_decodeCommand (w : CmdWord) : encode (decodeCommand w) = .command w := by
  rw [decodeCommand, encode_commandOf, commandWord_fields]

/-! ## The fields of a frame byte (R90, R91) -/

/-- A frame byte is the direction bit, the low six bits of the address, and a zero. -/
theorem wframeByte_eq (a : Nat) : wframeByte a = 0#1 ++ BitVec.ofNat 6 a ++ 0#1 := by
  apply BitVec.eq_of_getLsbD_eq
  intro i hi
  simp only [wframeByte, Const.frameAddrMask, BitVec.getLsbD_append, BitVec.getLsbD_ofNat, Nat.testBit_and,
    Nat.testBit_shiftLeft]
  interval_cases i <;> simp (decide := true)

theorem rframeByte_eq (a : Nat) : rframeByte a = 1#1 ++ BitVec.ofNat 6 a ++ 0#1 := by
  have hflag : rframeByte a = wframeByte a ||| 0x80 := BitVec.ofNat_or
  have hset : ∀ b : RegAddr, (0#1 ++ b ++ 0#1 : Byte) ||| 0x80 = 1#1 ++ b ++ 0#1 := by decide
  rw [hflag, wframeByte_eq, hset]

/-- The fields of a byte with the layout of a frame byte. -/
theorem frameByte_fields (d z : BitVec 1) (a : RegAddr) :
    frameIsRead (d ++ a ++ z : Byte) = d.getLsbD 0 ∧ frameAddr (d ++ a ++ z : Byte) = a ∧
      frameZ (d ++ a ++ z : Byte) = z.getLsbD 0 := by
  revert d z a; decide

section
variable (a : Nat)

@[simp] theorem frameIsRead_write : frameIsRead (wframeByte a) = false := by
  rw [wframeByte_eq, (frameByte_fields _ _ _).1]; rfl

@[simp] theorem frameIsRead_read : frameIsRead (rframeByte a) = true := by
  rw [rframeByte_eq, (frameByte_fields _ _ _).1]; rfl

@[simp] theorem frameAddr_write : frameAddr (wframeByte a) = BitVec.ofNat 6 a := by
  rw [wframeByte_eq, (frameByte_fields _ _ _).2.1]

@[simp] theorem frameAddr_read : frameAddr (rframeByte a) = BitVec.ofNat 6 a := by
  rw [rframeByte_eq, (frameByte_fields _ _ _).2.1]

@[simp] theorem frameZ_write : frameZ (wframeByte a) = false := by
  rw [wframeByte_eq, (frameByte_fields _ _ _).2.2]; rfl

@[simp] theorem frameZ_read : frameZ (rframeByte a) = false := by
  rw [rframeByte_eq, (frameByte_fields _ _ _).2.2]; rfl

theorem toNat_wframeByte : (wframeByte a).toNat = (a * 2) &&& 0x7E := by
  have hle : (a * 2) &&& 0x7E ≤ 0x7E := Nat.and_le_right
  rw [wframeByte, Const.frameAddrMask, Nat.shiftLeft_eq, pow_one, BitVec.toNat_ofNat, Nat.mod_eq_of_lt (by omega)]

theorem toNat_rframeByte : (rframeByte a).toNat = ((a * 2) &&& 0x7E) ||| 0x80 := by
  have hle : (a * 2) &&& 0x7E ≤ 0x7E := Nat.and_le_right
  have hlt : ((a * 2) &&& 0x7E) ||| 0x80 < 2 ^ 8 := Nat.or_lt_two_pow (by omega) (by decide)
  rw [rframeByte, Const.frameAddrMask, Const.frameReadFlag, Nat.shiftLeft_eq, pow_one, BitVec.toNat_ofNat,
    Nat.mod_eq_of_lt hlt]

end

/-- A byte with bit 0 clear is the frame byte of its own fields. -/
theorem wframeByte_frameAddr {t : Byte} (hz : frameZ t = false) (hr : frameIsRead t = false) :
    wframeByte (frameAddr t).toNat = t := by
  revert t; decide

theorem rframeByte_frameAddr {t : Byte} (hz : frameZ t = false) (hr : frameIsRead t = true) :
    rframeByte (frameAddr t).toNat = t := by
  revert t; decide

/-- Settles O4: each formula is at most eight bits wide, and each byte is laid out as its three fields. -/
theorem frameByteFieldsOfAnyAddress : Obligations.FrameByteFieldsOfAnyAddress :=
  fun a => ⟨toNat_wframeByte a, toNat_rframeByte a, frameIsRead_write a, frameIsRead_read a,
    frameAddr_write a, frameAddr_read a, frameZ_write a, frameZ_read a⟩

/-! ## The brackets that decode (R92 to R97) -/

/-- The three kinds of frame: the bytes of a bracket and the instruction they are. -/
inductive IsFrame : List Byte → Instr → Prop
  | write {t v : Byte} : frameZ t = false → frameIsRead t = false → IsFrame [t, v] (.wframe (frameAddr t) v)
  | read {t f : Byte} : frameZ t = false → frameIsRead t = true → IsFrame [t, f] (.rframe (frameAddr t) f)
  | burst {t v w : Byte} : frameZ t = false → frameIsRead t = false →
      IsFrame [t, v, w] (.wburst2 (frameAddr t) v w)

theorem decodeBracket_of_isFrame {bs : List Byte} {i : Instr} (h : IsFrame bs i) : decodeBracket bs = .ok i := by
  cases h with
  | write hz hr => simp [decodeBracket, classifyBracket, hz, hr]
  | read hz hr => simp [decodeBracket, classifyBracket, hz, hr]
  | burst hz hr => simp [decodeBracket, classifyBracket, hz, hr]

/-- What decodes is classified (R97) and has bit 0 of its frame byte clear (R96). -/
theorem classifyBracket_of_decodeBracket {t : Byte} {rest : List Byte} {i : Instr}
    (h : decodeBracket (t :: rest) = .ok i) : classifyBracket (t :: rest) = .ok i ∧ frameZ t = false := by
  unfold decodeBracket at h
  cases hc : classifyBracket (t :: rest) with
  | error e => simp [hc] at h
  | ok j =>
    cases hz : frameZ t with
    | true => simp [hc, hz] at h
    | false =>
      simp only [hc, hz] at h
      exact ⟨h, rfl⟩

theorem isFrame_of_decodeBracket {bs : List Byte} {i : Instr} (h : decodeBracket bs = .ok i) : IsFrame bs i := by
  cases bs with
  | nil => cases h
  | cons t rest =>
    obtain ⟨hc, hz⟩ := classifyBracket_of_decodeBracket h
    match rest with
    | [] => cases hc
    | [v] =>
      cases hr : frameIsRead t <;> simp only [classifyBracket, hr] at hc <;> cases hc
      · exact .write hz hr
      · exact .read hz hr
    | [v, w] =>
      cases hr : frameIsRead t <;> simp only [classifyBracket, hr] at hc <;> cases hc
      exact .burst hz hr
    | _ :: _ :: _ :: _ => cases hr : frameIsRead t <;> simp only [classifyBracket, hr] at hc <;> cases hc

theorem decodeBracket_eq_ok_iff {bs : List Byte} {i : Instr} : decodeBracket bs = .ok i ↔ IsFrame bs i :=
  ⟨isFrame_of_decodeBracket, decodeBracket_of_isFrame⟩

theorem decodeBracket_isSome_iff {bs : List Byte} :
    (decodeBracket bs).toOption.isSome = true ↔ ∃ i, IsFrame bs i := by
  simp only [← decodeBracket_eq_ok_iff]
  cases decodeBracket bs <;> simp [Except.toOption]

/-- Settles O5: the brackets that decode are the three kinds of frame. -/
theorem bracketsThatAreFrames : Obligations.BracketsThatAreFrames := by
  intro bytes
  rw [decodeBracket_isSome_iff]
  constructor
  · rintro ⟨i, hframe⟩
    cases hframe with
    | write hz _ => exact ⟨_, _, rfl, hz, .inl rfl⟩
    | read hz _ => exact ⟨_, _, rfl, hz, .inl rfl⟩
    | burst hz hr => exact ⟨_, _, rfl, hz, .inr ⟨rfl, hr⟩⟩
  · rintro ⟨t, rest, rfl, hz, hlength | ⟨hlength, hr⟩⟩
    · obtain ⟨v, rfl⟩ := List.length_eq_one_iff.1 hlength
      cases hr : frameIsRead t with
      | false => exact ⟨_, .write hz hr⟩
      | true => exact ⟨_, .read hz hr⟩
    · obtain ⟨v, w, rfl⟩ := List.length_eq_two.1 hlength
      exact ⟨_, .burst hz hr⟩

/-! ## Decoder and encoder -/

section
variable (a : Nat) (v w : Byte)

/-! A frame byte of any address, followed by one or two bytes, is a frame of the address's low six bits. -/

theorem isFrame_write : IsFrame [wframeByte a, v] (.wframe (BitVec.ofNat 6 a) v) :=
  frameAddr_write a ▸ .write (frameZ_write a) (frameIsRead_write a)

theorem isFrame_read : IsFrame [rframeByte a, v] (.rframe (BitVec.ofNat 6 a) v) :=
  frameAddr_read a ▸ .read (frameZ_read a) (frameIsRead_read a)

theorem isFrame_burst : IsFrame [wframeByte a, v, w] (.wburst2 (BitVec.ofNat 6 a) v w) :=
  frameAddr_write a ▸ .burst (frameZ_write a) (frameIsRead_write a)

end

/-- A frame is encoded as the bytes it is. -/
theorem encode_of_isFrame {bs : List Byte} {i : Instr} (h : IsFrame bs i) : encode i = .bracket bs := by
  cases h with
  | write hz hr => rw [encode, wframeByte_frameAddr hz hr]
  | read hz hr => rw [encode, rframeByte_frameAddr hz hr]
  | burst hz hr => rw [encode, wframeByte_frameAddr hz hr]

/-- Settles O1: a command word holds its three fields, and the bytes of each frame are that frame. -/
theorem decodeOfEncodeIsTheInstruction : Obligations.DecodeOfEncodeIsTheInstruction := by
  intro i
  have command (op : OpCode) (a d : Byte) : decode (.command (commandWord op a d)) = .ok (commandOf op a d) := by
    rw [decode, decodeCommand_commandWord]
  have frame {bs : List Byte} {i j : Instr} (h : IsFrame bs i) (hij : i = j) : decode (.bracket bs) = .ok j :=
    hij ▸ decodeBracket_of_isFrame h
  cases i with
  | wframe a v => exact frame (isFrame_write a.toNat v) (by simp)
  | rframe a f => exact frame (isFrame_read a.toNat f) (by simp)
  | wburst2 a v w => exact frame (isFrame_burst a.toNat v w) (by simp)
  | _ => exact command _ _ _

/-- Settles O2: a word is made of its fields, and what a bracket decodes to is the frame its bytes are. -/
theorem encodeOfDecodeIsTheBits : Obligations.EncodeOfDecodeIsTheBits := by
  intro e i h
  cases e with
  | command w => cases h; exact encode_decodeCommand w
  | bracket bs => exact encode_of_isFrame (isFrame_of_decodeBracket h)

/-- Settles O3: each example word has the fields shown, and a word decodes by its op code. -/
theorem exampleCommandWordsDecode : Obligations.ExampleCommandWordsDecode := by
  refine ⟨by decide, by decide, by decide, by decide, by decide, by decide, by decide, by decide, by decide,
    by decide, by decide, fun a d => ?_⟩
  simp only [decodeCommand_commandWord]
  exact ⟨rfl, rfl, rfl, rfl, rfl, rfl, rfl, rfl⟩

end Sys2Proof
end

section
/-! PROOF. Every step keeps the bus trace legal (30_encoding.md R96; 40_register_access.md R122): each exchange of a bracket adds the byte its label says, the last label closes a frame, and no other step touches a bracket. -/

namespace Sys2Proof.Machine

/-! ## What a trace leaves open -/

/-- The trace is legal and leaves `b` open. -/
def LeavesOpen (b : Bracket) (s : State) : Prop := Bracket.closed.scan s.trace = some b

theorem Bracket.scan_append (es es' : List BusEvent) : ∀ {b b' : Bracket}, b.scan es = some b' →
    b.scan (es ++ es') = b'.scan es' := by
  induction es with
  | nil => intro b b' h; cases h; rfl
  | cons e es ih =>
    intro b b' h
    simp only [List.cons_append, Bracket.scan] at h ⊢
    cases hn : b.next e with
    | none => rw [hn] at h; cases h
    | some c => rw [hn] at h; exact ih h

theorem LeavesOpen.congr {b : Bracket} {s t : State} (h : LeavesOpen b s) (ht : t.trace = s.trace) :
    LeavesOpen b t := by
  unfold LeavesOpen
  rw [ht]
  exact h

theorem emit_trace (e : BusEvent) (s : State) : (emit e s).trace = s.trace ++ [e] := by
  simp [State.trace, List.filterMap_append, Event.bus?]

theorem LeavesOpen.emit {b b' : Bracket} {s u : State} {e : BusEvent} (h : LeavesOpen b s)
    (hu : u.history = s.history) (hnext : b.next e = some b') : LeavesOpen b' (emit e u) := by
  have htrace : u.trace = s.trace := congrArg (List.filterMap Event.bus?) hu
  unfold LeavesOpen
  rw [emit_trace, htrace, Bracket.scan_append _ _ h, Bracket.scan, hnext]
  rfl

/-! ## What each primitive leaves open -/

section
variable {s : State} {bs : List Byte}

theorem LeavesOpen.select (h : LeavesOpen .closed s) : LeavesOpen (.opened []) (Body.select s) :=
  h.emit rfl rfl

theorem LeavesOpen.send (h : LeavesOpen (.opened bs) s) (tx : Byte) :
    LeavesOpen (.opened (bs ++ [tx])) (Body.send tx s) :=
  h.emit rfl rfl

theorem LeavesOpen.csh (h : LeavesOpen (.opened bs) s) {i : Instr} (hframe : IsFrame bs i) :
    LeavesOpen .closed (csh s) :=
  h.emit rfl (if_pos (decodeBracket_isSome_iff.2 ⟨i, hframe⟩))

/-- With chip-select high before and after, a primitive opens nothing. -/
theorem LeavesOpen.prim {t : State} (h : LeavesOpen .closed s) (hprim : Prim s t) (hs : s.cs = .high)
    (ht : t.cs = .high) : LeavesOpen .closed t := by
  cases hprim with
  | none => exact h
  | select _ => cases ht
  | send tx hlow => rw [hs] at hlow; cases hlow
  | csh => exact h.emit rfl rfl
  | wait n _ => exact h.emit rfl rfl
  | rsth => exact h.emit rfl rfl

theorem Silent.trace {t : State} (h : Silent s t) : t.trace = s.trace := by
  unfold State.trace; rw [h.history]

theorem LeavesOpen.works {t : State} (h : LeavesOpen .closed s) (hworks : Works s t) (hs : s.cs = .high)
    (ht : t.cs = .high) : LeavesOpen .closed t := by
  obtain ⟨s1, hprim, hsilent⟩ := hworks
  exact (h.prim hprim hs (hsilent.cs.symm.trans ht)).congr hsilent.trace

end

/-! ## Where the position stands in a bracket -/

theorem traceLegal_idle_iff {s : State} (h : s.run = .idle) : s.TraceLegal ↔ LeavesOpen .closed s := by
  simp only [State.TraceLegal, State.openBracket, h, LeavesOpen]

theorem traceLegal_busy_iff {s : State} {f : Frame} {K : List Frame} (h : s.run = .busy f K) :
    s.TraceLegal ↔ LeavesOpen (f.openBracket s) s := by
  simp only [State.TraceLegal, State.openBracket, h, LeavesOpen]

theorem openBracket_of_deselected {f : Frame} (h : f.level = .high) (s : State) : f.openBracket s = .closed := by
  cases f with
  | wrreg a v l =>
    cases l with
    | s1 => rfl
    | _ => cases h
  | rdreg a fill l =>
    cases l with
    | s1 => rfl
    | _ => cases h
  | wburst2 a v w l =>
    cases l with
    | s1 => rfl
    | _ => cases h
  | _ => rfl

theorem traceLegal_goto {s : State} {g : Frame} (K : List Frame) :
    (goto g K s).TraceLegal ↔ LeavesOpen (g.openBracket s) s :=
  traceLegal_busy_iff rfl

/-- A frame with chip-select high may be gone to when nothing is open. -/
theorem LeavesOpen.goto_of_deselected {s : State} (h : LeavesOpen .closed s) {g : Frame} (hg : g.level = .high)
    (K : List Frame) : (goto g K s).TraceLegal :=
  (traceLegal_goto K).2 (openBracket_of_deselected hg s ▸ h)

/-! ## The return and the abnormal completion -/

theorem respond_trace (r : Response) (s : State) : (respond r s).trace = s.trace := by
  simp [State.trace, List.filterMap_append, Event.bus?]

theorem latchCommand_trace (op : OpCode) (a d : Byte) (s : State) : (latchCommand op a d s).trace = s.trace := by
  simp [State.trace, List.filterMap_append, Event.bus?]

theorem LeavesOpen.respond {s : State} (h : LeavesOpen .closed s) (r : Response) : (respond r s).TraceLegal :=
  (traceLegal_idle_iff rfl).2 (h.congr (respond_trace r s))

theorem LeavesOpen.complete {s : State} (h : LeavesOpen .closed s) (f : Frame) (r : Ret) :
    (complete f r s).TraceLegal := by
  unfold Machine.complete
  split
  · exact h.respond _
  · exact (traceLegal_idle_iff rfl).2 h

theorem LeavesOpen.raise {s : State} (h : LeavesOpen .closed s) (hcs : s.cs = .high) (op : Option OpCode)
    (st : Status) : (raise op st s).TraceLegal := by
  unfold Machine.raise
  rw [hcs]
  cases op with
  | some o => exact h.respond _
  | none => exact (traceLegal_idle_iff rfl).2 h

theorem Unwinds.traceLegal {K : List Frame} {f : Frame} {r : Ret} {s t : State} (h : Unwinds K f r s t) :
    LeavesOpen .closed s → t.TraceLegal := by
  induction h with
  | completes f r s => exact fun hs => hs.complete f r
  | @goesOn c K f r s g s' hg =>
    have hlevel : g.level = .high := (afterCall_goesOn (f := f) hg).2.1
    exact fun hs => (hs.congr (afterCall_goes hg).trace).goto_of_deselected hlevel K
  | ends he _ ih => exact fun hs => ih (hs.congr (afterCall_ends he).trace)

theorem LeavesOpen.ret {s t : State} (h : LeavesOpen .closed s) {K : List Frame} {f : Frame} {r : Ret}
    (hret : ret K f r s = .next t) : t.TraceLegal :=
  (unwinds_of_ret hret).traceLegal h

/-! ## The bodies that make the frames (R123, R124, R126) -/

section
variable {g : Frame} {K : List Frame} {s t : State} {bs : List Byte}

theorem LeavesOpen.of_csl (hs : LeavesOpen .closed s)
    (h : andThen (csl s) (fun s => .next (goto g K s)) = .next t) (hg : g.openBracket s = .opened []) :
    t.TraceLegal := by
  obtain ⟨u, hu, ht⟩ := andThen_next h
  obtain ⟨_, e⟩ | ⟨_, e⟩ := csl_cases s <;> rw [e] at hu <;> cases hu
  cases ht
  have hopen : LeavesOpen (g.openBracket s) (Body.select s) := hg ▸ hs.select
  exact (traceLegal_goto K).2 hopen

theorem LeavesOpen.of_transmit (hs : LeavesOpen (.opened bs) s) {tx : Byte}
    (h : andThen (transmit tx s) (fun s => .next (goto g K s)) = .next t)
    (hg : g.openBracket s = .opened (bs ++ [tx])) : t.TraceLegal := by
  obtain ⟨u, hu, ht⟩ := andThen_next h
  obtain ⟨_, e⟩ | ⟨_, e⟩ := transmit_cases tx s <;> rw [e] at hu <;> cases hu
  cases ht
  have hopen : LeavesOpen (g.openBracket s) (Body.send tx s) := hg ▸ hs.send tx
  exact (traceLegal_goto K).2 hopen

theorem stepWrreg_traceLegal {a v : Operand} {l : WrAt} (hs : LeavesOpen ((Frame.wrreg a v l).openBracket s) s)
    (h : stepWrreg a v l K s = .next t) : t.TraceLegal := by
  cases l with
  | s1 => exact hs.of_csl h rfl
  | s2 => exact hs.of_transmit h rfl
  | s3 => exact hs.of_transmit h rfl
  | s4 => exact (hs.csh (isFrame_write _ _)).ret h

theorem stepRdreg_traceLegal {a : Operand} {fill : Fill} {l : RdAt}
    (hs : LeavesOpen ((Frame.rdreg a fill l).openBracket s) s) (h : stepRdreg a fill l K s = .next t) :
    t.TraceLegal := by
  cases l with
  | s1 => exact hs.of_csl h rfl
  | s2 => exact hs.of_transmit h rfl
  | s3 =>
    simp only [stepRdreg] at h
    obtain ⟨_, e⟩ | ⟨_, e⟩ := exchange_cases (fill.byte s) s <;> rw [e] at h <;> cases h
    exact (traceLegal_goto K).2 (hs.send (fill.byte s))
  | s4 r => exact (hs.csh (isFrame_read _ _)).ret h

theorem stepWburst2_traceLegal {a v w : Operand} {l : BurstAt}
    (hs : LeavesOpen ((Frame.wburst2 a v w l).openBracket s) s) (h : stepWburst2 a v w l K s = .next t) :
    t.TraceLegal := by
  cases l with
  | s1 => exact hs.of_csl h rfl
  | s2 => exact hs.of_transmit h rfl
  | s3 => exact hs.of_transmit h rfl
  | s4 => exact hs.of_transmit h rfl
  | s5 => exact (hs.csh (isFrame_burst _ _ _)).ret h

end

/-! ## The bodies that stand above them -/

/-- Only the bodies of rank 0 hold chip-select low. -/
theorem Frame.level_of_rank {f : Frame} (h : f.rank ≠ 0) : f.level = .high := by
  cases f with
  | wrreg a v l => exact absurd rfl h
  | rdreg a fill l => exact absurd rfl h
  | wburst2 a v w l => exact absurd rfl h
  | _ => rfl

theorem Frame.rank_of_start_eq {f g : Frame} (h : g.start = f.start) : g.rank = f.rank := by
  rw [← g.rank_start, h, f.rank_start]

/-- The step of a body that makes no frame of its own leaves nothing open. -/
theorem Moves.traceLegal {f : Frame} {K : List Frame} {s t : State} (h : Moves f K s t) (hrank : f.rank ≠ 0)
    (hcs : s.cs = .high) (hs : LeavesOpen .closed s) : t.TraceLegal := by
  have hf : f.level = .high := f.level_of_rank hrank
  cases h with
  | @goes g s' hg =>
    have hlevel : g.level = .high := Frame.level_of_rank (Frame.rank_of_start_eq hg.start ▸ hrank)
    have hcs' : s'.cs = .high := (hg.level (hcs.trans hf.symm)).trans hlevel
    exact (hs.works hg.works hcs hcs').goto_of_deselected hlevel K
  | @calls g _ hcallee =>
    have hstart : g.start = g := (callee_called hcallee).start
    exact hs.goto_of_deselected (hstart ▸ g.level_start) (f :: K)
  | returns hr hret => exact (hs.works hr.works hcs (hr.level (hcs.trans hf.symm))).ret hret
  | raises _ => exact hs.raise hcs _ _

theorem advance_traceLegal {f : Frame} {K : List Frame} {s t : State} (hcs : s.cs = f.level)
    (hs : LeavesOpen (f.openBracket s) s) (h : advance f K s = .next t) : t.TraceLegal := by
  by_cases hrank : f.rank = 0
  · cases f with
    | wrreg a v l => exact stepWrreg_traceLegal hs h
    | rdreg a fill l => exact stepRdreg_traceLegal hs h
    | wburst2 a v w l => exact stepWburst2_traceLegal hs h
    | _ => cases hrank
  · have hf : f.level = .high := f.level_of_rank hrank
    rw [openBracket_of_deselected hf] at hs
    exact (advance_moves h).traceLegal hrank (hcs.trans hf) hs

/-! ## The step -/

theorem Steps.traceLegal {s t : State} (h : Steps s t) (hpos : s.PosLegal) (hs : s.TraceLegal) :
    t.TraceLegal := by
  cases h with
  | resets => rfl
  | moves hrun hadvance =>
    exact advance_traceLegal ((posLegal_busy_iff hrun).1 hpos).level ((traceLegal_busy_iff hrun).1 hs) hadvance
  | waits _ => exact hs
  | @accepts op a d f ws hrun _ hstart _ =>
    have hclosed : LeavesOpen .closed (latchCommand op a d { s with cmds := ws }) :=
      ((traceLegal_idle_iff hrun).1 hs).congr (latchCommand_trace op a d _)
    exact hclosed.goto_of_deselected (hstart ▸ f.level_start) []
  | @rejects op a d ws hrun _ =>
    have hclosed : LeavesOpen .closed (latchCommand op a d { s with cmds := ws }) :=
      ((traceLegal_idle_iff hrun).1 hs).congr (latchCommand_trace op a d _)
    exact hclosed.raise ((posLegal_idle_iff hrun).1 hpos).2 (some op) .illegalOp

/-- Settles O48: the steps of a frame's body read as the bytes of that frame, and all other steps as
events outside of brackets. -/
theorem stepKeepsTheTraceLegal : Obligations.StepKeepsTheTraceLegal := by
  intro s t hpos hs h
  have htaken : (takeReset s).2.TraceLegal := by rw [takeReset_snd]; exact hs
  exact (steps_of_step h).traceLegal (takeReset_posLegal hpos) htaken

end Sys2Proof.Machine
end

section
/-! PROOF. The three frames run on their own (30_encoding.md R92 to R95; log entry 12): each completes in the state of its bracket, whose events are written out; and a placed table word is the frame that the next step runs (R105). -/

namespace Sys2Proof.Machine

/-! ## Brackets on a ready block -/

theorem wframeByte_reg (a : RegAddr) : wframeByte (Body.reg a).toNat = 0#1 ++ a ++ 0#1 := by
  rw [wframeByte_eq, BitVec.ofNat_toNat, setWidth_reg]

theorem rframeByte_reg (a : RegAddr) : rframeByte (Body.reg a).toNat = 1#1 ++ a ++ 0#1 := by
  rw [rframeByte_eq, BitVec.ofNat_toNat, setWidth_reg]

/-- A ready block that has run a bracket is as before but for environment and history. -/
theorem Completes.of_bracket {i : Instr} {s u : State} {env : Env} {es : List Event} (hs : s.Ready)
    (h : Completes i s { u with run := .idle })
    (hu : u = { s with cs := .high, env := env, history := s.history ++ es }) :
    Completes i s { s with env := env, history := s.history ++ es } := by
  rw [hu, ← hs.idle, ← hs.deselected] at h
  exact h

/-- Settles O14: WFRAME completes in the state of one write bracket. -/
theorem wframeIsOneBracketOfTwoExchanges : Obligations.WframeIsOneBracketOfTwoExchanges := by
  intro s a v hs
  rw [← wframeByte_reg]
  exact ⟨_, _, _, _, Prod.mk.eta.symm, Prod.mk.eta.symm, (completes_wframe hs a v).of_bracket hs
    (by simp [Body.wr, Body.send, Body.select, csh, emit])⟩

/-- Settles O15: RFRAME completes in the state of one read bracket. -/
theorem rframeIsOneBracketOfTwoExchanges : Obligations.RframeIsOneBracketOfTwoExchanges := by
  intro s a f hs
  rw [← rframeByte_reg]
  exact ⟨_, _, _, _, Prod.mk.eta.symm, Prod.mk.eta.symm, (completes_rframe hs a f).of_bracket hs
    (by simp [Body.rd, Body.send, Body.select, csh, emit])⟩

/-- Settles O16: WBURST2 completes in the state of one write bracket with two data bytes. -/
theorem wburstTwoIsOneBracketOfThreeExchanges : Obligations.WburstTwoIsOneBracketOfThreeExchanges := by
  intro s a v w hs
  rw [← wframeByte_reg]
  exact ⟨_, _, _, _, _, _, Prod.mk.eta.symm, Prod.mk.eta.symm, Prod.mk.eta.symm,
    (completes_wburst2 hs a v w).of_bracket hs (by simp [Body.wburst2, Body.send, Body.select, csh, emit])⟩

/-! ## A placed frame -/

/-- A host command never decodes to a frame. -/
theorem frameBody_decodeCommand (w : CmdWord) : frameBody (decodeCommand w) = none := by
  unfold decodeCommand commandOf
  split <;> rfl

/-- A table word that decodes to a frame stands as a bracket that is that frame. -/
theorem tableEncoded_of_frame {nbits w : Nat} {i : Instr} {f : Frame} (hi : decodeTableWord nbits w = some i)
    (hf : frameBody i = some f) : ∃ bs, tableEncoded nbits w = some (.bracket bs) ∧ decodeBracket bs = .ok i := by
  unfold decodeTableWord at hi
  cases he : tableEncoded nbits w with
  | none => rw [he] at hi; cases hi
  | some e =>
    rw [he] at hi
    cases e with
    | command w => cases hi; rw [frameBody_decodeCommand] at hf; cases hf
    | bracket bs =>
      refine ⟨bs, rfl, ?_⟩
      simp only [decode] at hi
      cases hb : decodeBracket bs with
      | error e => rw [hb] at hi; cases hi
      | ok j => rw [hb] at hi; cases hi; rfl

theorem withFetchWord_frame (s : State) {nbits w : Nat} {i : Instr} {f : Frame}
    (hi : decodeTableWord nbits w = some i) (hf : frameBody i = some f) :
    s.withFetchWord nbits w = { s with run := .busy f [], cs := .high, resetIn := [] } := by
  obtain ⟨bs, he, hb⟩ := tableEncoded_of_frame hi hf
  simp only [State.withFetchWord, placeTableWord, he, place, hb, hf]

/-- Each frame's meaning is its body, whose first step opens the bracket. -/
theorem frameBody_opens {i : Instr} {f : Frame} (hf : frameBody i = some f) :
    (∀ s, exec i s = beginFrame f s) ∧
      ∃ g, ∀ s : State, s.cs = .high → advance f [] s = .next (goto g [] (Body.select s)) := by
  have opens {f g : Frame} (h : ∀ s, advance f [] s = andThen (csl s) fun s => .next (goto g [] s)) :
      ∃ g, ∀ s : State, s.cs = .high → advance f [] s = .next (goto g [] (Body.select s)) :=
    ⟨g, fun s hcs => by rw [h, csl_eq hcs, andThen_ok]⟩
  cases i with
  | wframe a v => cases hf; exact ⟨fun _ => rfl, opens fun _ => rfl⟩
  | rframe a v => cases hf; exact ⟨fun _ => rfl, opens fun _ => rfl⟩
  | wburst2 a v w => cases hf; exact ⟨fun _ => rfl, opens fun _ => rfl⟩
  | _ => cases hf

/-- Settles O12: the placed body's first step, which opens the bracket from any position, is what exec of
the frame does. -/
theorem stepRunsThePlacedFrame : Obligations.StepRunsThePlacedFrame := by
  intro s nbits w i f hi hf
  obtain ⟨hexec, g, hopens⟩ := frameBody_opens hf
  rw [withFetchWord_frame s hi hf]
  let u : State := { s with run := .idle, cs := .high, resetIn := [] }
  have hready : u.Ready := ⟨rfl, rfl, rfl⟩
  have hstep : step (goto f [] u) = .next (goto g [] (Body.select u)) := by
    rw [step_goto f [] rfl, hopens _ rfl, Body.select_goto, goto_goto]
  have hrun : exec i u = .next (goto g [] (Body.select u)) := by
    rw [hexec, beginFrame_ready hready, hopens u rfl]
  exact ⟨rfl, hstep.trans hrun.symm, _, hstep, emit_trace .csl _, rfl⟩

end Sys2Proof.Machine
end

section
/-! PROOF. The register commands of a ready block (40_register_access.md R123, R124, R129): each is its acceptance, one bracket with its events written out, and its response; against the plain register file a read gives the byte just written. -/

namespace Sys2Proof.Machine

/-! ## Frame bytes in the arithmetic of R123 and R124 -/

theorem wframeByte_eq_mul (a : Nat) : wframeByte a = BitVec.ofNat 8 ((a * 2) &&& 0x7E) := by
  rw [← toNat_wframeByte, BitVec.ofNat_toNat, BitVec.setWidth_eq]

theorem rframeByte_eq_mul (a : Nat) : rframeByte a = BitVec.ofNat 8 (((a * 2) &&& 0x7E) ||| 0x80) := by
  rw [← toNat_rframeByte, BitVec.ofNat_toNat, BitVec.setWidth_eq]

namespace Body

/-! ## The events of one bracket -/

section
variable {a v f r0 r1 : Byte} {s : State} {e0 e1 : Env}

theorem wr_eq (h0 : s.env.csl.xfer (wframeByte a.toNat) = (r0, e0)) (h1 : e0.xfer v = (r1, e1)) :
    wr a v s = { s with
      cs := .high, env := e1.csh,
      history := s.history ++ [.bus .csl, .bus (.x (wframeByte a.toNat) r0), .bus (.x v r1), .bus .csh] } := by
  simp [wr, send, select, csh, emit, h0, h1]

theorem rd_eq (h0 : s.env.csl.xfer (rframeByte a.toNat) = (r0, e0)) (h1 : e0.xfer f = (r1, e1)) :
    rd a f s = { s with
      cs := .high, env := e1.csh,
      history := s.history ++ [.bus .csl, .bus (.x (rframeByte a.toNat) r0), .bus (.x f r1), .bus .csh] } := by
  simp [rd, send, select, csh, emit, h0, h1]

end

/-! ## A bracket answers no command -/

section
variable (a v f tx : Byte) (s : State)

@[simp] theorem select_responses : (select s).responses = s.responses := by
  simp [select, emit, State.responses, Event.response?]

@[simp] theorem send_responses : (send tx s).responses = s.responses := by
  simp [send, emit, State.responses, Event.response?]

@[simp] theorem wr_responses : (wr a v s).responses = s.responses := by
  simp [wr]

@[simp] theorem rd_responses : (rd a f s).responses = s.responses := by
  simp [rd]

end

/-! ## A read of the plain register file (20_memory.md R72) -/

/-- Where no byte is queued, a read gives what the register holds. -/
theorem rdByte_of_queue_empty {s : State} {regs : Memory} {queues : Queues} {ph : Phase}
    (henv : s.env = .script regs queues ph) (a f : Byte)
    (hqueue : (Queues.get queues (a.setWidth 6).toNat).pop = none) :
    rdByte a f s = regs.read (a.setWidth 6).toNat := by
  have haddr : frameAddr (rframeByte a.toNat) = a.setWidth 6 := by
    rw [frameAddr_read, BitVec.ofNat_toNat]
  have hdata : (Env.xfer f (.script regs queues (.data true (a.setWidth 6)))).1 = regs.read (a.setWidth 6).toNat := by
    simp only [Env.xfer, hqueue]
  simpa [rdByte, send, select, emit, henv, Env.csl, Env.xfer_frame, frameIsRead_rframeByte, haddr] using hdata

end Body

/-! ## One bracket between acceptance and response -/

@[simp] theorem accepted_responses (op : OpCode) (a d : Byte) (s : State) :
    (accepted op a d s).responses = s.responses :=
  latchCommand_responses op a d s

@[simp] theorem answered_responses (r : Response) (s : State) : (answered r s).responses = s.responses ++ [r] :=
  respond_responses r s

/-- A ready block that has answered is ready again, so a command of one bracket changes nothing but the
operand latches, the environment and the history. -/
theorem Completes.of_command_bracket {i : Instr} {op : OpCode} {a d : Byte} {r : Response} {s u : State}
    {env : Env} {es : List Event} (hs : s.Ready) (h : Completes i s (answered r u))
    (hu : u = { accepted op a d s with cs := .high, env := env, history := (accepted op a d s).history ++ es }) :
    Completes i s { s with
      aLat := a, dLat := d, env := env, history := s.history ++ .cmd op a d :: (es ++ [.response r]) } := by
  have hend : answered r u = { s with
      aLat := a, dLat := d, env := env, history := s.history ++ .cmd op a d :: (es ++ [.response r]) } := by
    simp [hu, answered, accepted, hs.idle, hs.deselected]
  exact hend ▸ h

/-- Settles O17: WRREG completes in the state of one write bracket. -/
theorem wrregWritesInOneBracket : Obligations.WrregWritesInOneBracket := by
  intro s addr data hs
  rw [← wframeByte_eq_mul]
  exact ⟨_, _, _, _, Prod.mk.eta.symm, Prod.mk.eta.symm,
    (completes_wrreg hs addr data).of_command_bracket hs (Body.wr_eq Prod.mk.eta.symm Prod.mk.eta.symm)⟩

/-- Settles O18: RDREG completes in the state of one read bracket and answers with the byte of its second
exchange. -/
theorem rdregReadsInOneBracket : Obligations.RdregReadsInOneBracket := by
  intro s addr data hs
  rw [← rframeByte_eq_mul]
  exact ⟨_, _, _, _, Prod.mk.eta.symm, Prod.mk.eta.symm,
    (completes_rdreg hs addr data).of_command_bracket hs (Body.rd_eq Prod.mk.eta.symm Prod.mk.eta.symm)⟩

/-! ## Write, then read (40_register_access.md R129) -/

/-- Settles O20: the write leaves its byte in the register, and the read, at an alias of the address, gives
what the register holds. -/
theorem writeThenReadReturnsTheValue : Obligations.WriteThenReadReturnsTheValue := by
  intro s regs a a' v d hs hregs henv halias
  let t := answered (answer 0x1 .ok) (Body.wr a v (accepted 0x1 a v s))
  let u := accepted 0x2 a' d t
  have ht : t.Ready := ⟨rfl, rfl, hs.noReset⟩
  have hstored : u.env = .script (regs.write (a.setWidth 6).toNat v) [] .off :=
    Body.wr_env (s := accepted 0x1 a v s) henv a v
  have hread : Body.rdByte a' t.cfg.readFill u = v := by
    rw [Body.rdByte_of_queue_empty hstored a' _ rfl, Memory.read_write hregs, toNat_setWidth_six, toNat_setWidth_six,
      halias, if_pos rfl]
  refine ⟨t, _, completes_wrreg hs a v, completes_rdreg ht a' d, ?_⟩
  rw [hread]
  simp [t]

end Sys2Proof.Machine
end

section
/-! PROOF. The bit-mask commands (41_bitmask.md R140 to R143): both are one read-modify-write, whose two brackets are written out for any environment and whose effect on the plain register file composes. -/

namespace Sys2Proof.Machine

namespace Body

/-! ## Read-modify-write (41_bitmask.md R140) -/

/-- The template of R140: read into `tmp`, then write `g` of the byte read to the same address. -/
def rmw (g : Byte → Byte) (a : Byte) (s : State) : State :=
  wr a (g (readTmp a s).tmp) (readTmp a s)

theorem setb_eq_rmw (a m : Byte) (s : State) : setb a m s = rmw (· ||| m) a s := rfl

theorem clrb_eq_rmw (a m : Byte) (s : State) : clrb a m s = rmw (· &&& ~~~m) a s := rfl

theorem rmw_eq {g : Byte → Byte} {a r0 r r2 r3 : Byte} {s : State} {e0 e1 e2 e3 : Env}
    (h0 : s.env.csl.xfer (rframeByte a.toNat) = (r0, e0)) (h1 : e0.xfer s.cfg.readFill = (r, e1))
    (h2 : e1.csh.csl.xfer (wframeByte a.toNat) = (r2, e2)) (h3 : e2.xfer (g r) = (r3, e3)) :
    rmw g a s = { s with
      cs := .high, tmp := r, env := e3.csh,
      history := s.history ++ [
        .bus .csl, .bus (.x (rframeByte a.toNat) r0), .bus (.x s.cfg.readFill r), .bus .csh,
        .bus .csl, .bus (.x (wframeByte a.toNat) r2), .bus (.x (g r) r3), .bus .csh] } := by
  have hbyte : rdByte a s.cfg.readFill s = r := by simp [rdByte, send, select, emit, h0, h1]
  have hread : readTmp a s = { s with
      cs := .high, tmp := r, env := e1.csh,
      history := s.history ++ [.bus .csl, .bus (.x (rframeByte a.toNat) r0), .bus (.x s.cfg.readFill r), .bus .csh] } := by
    rw [readTmp, hbyte, rd_eq h0 h1]
  rw [rmw, hread, wr_eq h2 h3]
  simp

end Body

/-- A command that is one read-modify-write completes with the two brackets and no other change. -/
theorem Completes.of_command_rmw {i : Instr} {op : OpCode} {a d : Byte} {x : Response} {g : Byte → Byte} {s : State}
    (hs : s.Ready) (h : Completes i s (answered x (Body.rmw g a (accepted op a d s)))) :
    ∃ r0 e0 r e1 r2 e2 r3 e3,
      s.env.csl.xfer (rframeByte a.toNat) = (r0, e0) ∧ e0.xfer s.cfg.readFill = (r, e1) ∧
      e1.csh.csl.xfer (wframeByte a.toNat) = (r2, e2) ∧ e2.xfer (g r) = (r3, e3) ∧
      Completes i s { s with
        aLat := a, dLat := d, tmp := r, env := e3.csh,
        history := s.history ++ [.cmd op a d,
          .bus .csl, .bus (.x (rframeByte a.toNat) r0), .bus (.x s.cfg.readFill r), .bus .csh,
          .bus .csl, .bus (.x (wframeByte a.toNat) r2), .bus (.x (g r) r3), .bus .csh,
          .response x] } := by
  refine ⟨_, _, _, _, _, _, _, _, Prod.mk.eta.symm, Prod.mk.eta.symm, Prod.mk.eta.symm, Prod.mk.eta.symm, ?_⟩
  rw [Body.rmw_eq (s := accepted op a d s) Prod.mk.eta.symm Prod.mk.eta.symm Prod.mk.eta.symm Prod.mk.eta.symm] at h
  simpa [answered, accepted, hs.idle, hs.deselected] using h

/-- Settles O22: SETBITS is the read-modify-write with the OR. -/
theorem setbitsReadsThenWritesTheOr : Obligations.SetbitsReadsThenWritesTheOr := by
  intro s addr m hs
  exact (completes_setbits hs addr m).of_command_rmw (g := (· ||| m)) hs

/-- `0xFF - m` of R142 is the complement in 8 bits. -/
theorem ff_sub_eq_not (m : Byte) : 0xFF - m = ~~~m :=
  BitVec.allOnes_sub_eq_not m

/-- Settles O23: CLRBITS is the read-modify-write with the AND of the complement. -/
theorem clrbitsReadsThenWritesTheMasked : Obligations.ClrbitsReadsThenWritesTheMasked := by
  intro s addr m hs
  rw [ff_sub_eq_not]
  exact (completes_clrbits hs addr m).of_command_rmw (g := (· &&& ~~~m)) hs

namespace Body

/-! ## Read-modify-write on the plain register file (20_memory.md R72) -/

section
variable {s : State} {regs : Memory} (henv : s.env = Env.simple regs)
include henv

theorem readTmp_env_simple (a : Byte) : (readTmp a s).env = Env.simple regs := by
  have hread (f : Byte) (b : RegAddr) :
      ((Env.script regs [] (.data true b)).xfer f).2 = .script regs [] (.data true b) := rfl
  simp [readTmp, rd, send, select, henv, Env.simple, Env.csl, Env.xfer_frame, hread, Env.csh]

theorem rmw_env_simple (g : Byte → Byte) (a : Byte) :
    (rmw g a s).env = Env.simple (regs.write (a &&& 0x3F).toNat (g (regs.read (a &&& 0x3F).toNat))) := by
  have htmp : (readTmp a s).tmp = regs.read (a.setWidth 6).toNat := rdByte_of_queue_empty henv a _ rfl
  rw [rmw, wr_env (readTmp_env_simple henv a), htmp, toNat_setWidth_six]
  rfl

end

end Body

/-- Run from a ready block against ENV_SIMPLE, the instruction completes, and all it does to the register
file is to replace the byte at `x` by `g` of it. -/
def ModifiesRegister (i : Instr) (x : Nat) (g : Byte → Byte) : Prop :=
  ∀ (s : State) (regs : Memory), s.Ready → regs.wf = true → s.env = Env.simple regs →
    ∃ t regs', Completes i s t ∧ t.Ready ∧ regs'.wf = true ∧ t.env = Env.simple regs' ∧
      regs'.read = Function.update regs.read x (g (regs.read x))

theorem ModifiesRegister.of_rmw {i : Instr} {op : OpCode} {a d : Byte} {r : Response} {g : Byte → Byte}
    (h : ∀ s : State, s.Ready → Completes i s (answered r (Body.rmw g a (accepted op a d s)))) :
    ModifiesRegister i (a &&& 0x3F).toNat g := by
  intro s regs hs hwf henv
  have haddr : (a &&& 0x3F).toNat < 64 := toNat_setWidth_six a ▸ (a.setWidth 6).isLt
  refine ⟨_, _, h s hs, ⟨rfl, rfl, hs.noReset⟩, Memory.wf_write hwf haddr _,
    Body.rmw_env_simple (s := accepted op a d s) henv g a, ?_⟩
  funext y
  rw [Memory.read_write hwf, Function.update_apply]

theorem modifiesRegister_setbits (a m : Byte) :
    ModifiesRegister (.setbits a m) (a &&& 0x3F).toNat (· ||| m) :=
  .of_rmw fun _ hs => completes_setbits hs a m

theorem modifiesRegister_clrbits (a m : Byte) :
    ModifiesRegister (.clrbits a m) (a &&& 0x3F).toNat (· &&& ~~~m) :=
  .of_rmw fun _ hs => completes_clrbits hs a m

/-- Two such instructions at one register, one after the other. -/
theorem ModifiesRegister.seq {i j : Instr} {x : Nat} {g h : Byte → Byte} (hi : ModifiesRegister i x g)
    (hj : ModifiesRegister j x h) {s : State} {regs : Memory} (hs : s.Ready) (hwf : regs.wf = true)
    (henv : s.env = Env.simple regs) :
    ∃ t regs1 u regs2,
      Completes i s t ∧ t.env = Env.simple regs1 ∧ regs1.read x = g (regs.read x) ∧
        (∀ y, y ≠ x → regs1.read y = regs.read y) ∧
      Completes j t u ∧ u.env = Env.simple regs2 ∧ regs2.read x = h (g (regs.read x)) ∧
        (∀ y, y ≠ x → regs2.read y = regs.read y) := by
  obtain ⟨t, regs1, ht, hready, hwf1, henv1, hread1⟩ := hi s regs hs hwf henv
  obtain ⟨u, regs2, hu, _, _, henv2, hread2⟩ := hj t regs1 hready hwf1 henv1
  rw [hread1, Function.update_self, Function.update_idem] at hread2
  refine ⟨t, regs1, u, regs2, ht, henv1, ?_, fun y hy => ?_, hu, henv2, ?_, fun y hy => ?_⟩
  · rw [hread1, Function.update_self]
  · rw [hread1, Function.update_of_ne hy]
  · rw [hread2, Function.update_self]
  · rw [hread2, Function.update_of_ne hy]

/-! ## The laws (41_bitmask.md R143) -/

theorem or_or_mask (r m : Byte) : (r ||| m) ||| m = r ||| m := by
  rw [BitVec.or_assoc, BitVec.or_self]

theorem clear_or_mask (r m : Byte) : (r &&& ~~~m) ||| m = r ||| m := by
  ext k hk
  simp [Bool.or_and_distrib_right]

theorem or_clear_mask (r m : Byte) : (r ||| m) &&& ~~~m = r &&& ~~~m := by
  ext k hk
  simp [Bool.and_or_distrib_right]

/-- Settles O24: two commands at one register compose their functions of its byte, and each law is a law
of these functions. -/
theorem bitmaskLawsOnTheRegisterFile : Obligations.BitmaskLawsOnTheRegisterFile := by
  intro s regs a m hs hwf henv
  have hset := modifiesRegister_setbits a m
  have hclear := modifiesRegister_clrbits a m
  refine ⟨?_, ?_, ?_⟩
  · have h := hset.seq hset hs hwf henv
    rwa [or_or_mask] at h
  · have h := hclear.seq hset hs hwf henv
    rwa [clear_or_mask] at h
  · obtain ⟨t, _, u, regs2, ht, _, _, _, hu, henv2, hread, hothers⟩ := hset.seq hclear hs hwf henv
    rw [or_clear_mask] at hread
    exact ⟨t, u, regs2, ht, hu, henv2, hread, hothers⟩

end Sys2Proof.Machine
end

section
/-! PROOF. The chip control commands of a ready block (42_chip_control.md R151, R153, R154, R156): each completes in the state of its body, RESET and INIT also with no bound when the chip answers; and what the history holds when RESET's polls are spent. -/

namespace Sys2Proof.Machine

/-! ## ANTON and ANTOFF -/

/-- Settles O29: the completion of ANTON, whose body makes the test of R153. -/
theorem antonSetsTheAntennaBitsWhenNeeded : Obligations.AntonSetsTheAntennaBitsWhenNeeded := by
  intro s addr data hs
  exact completes_anton hs addr data

/-- Settles O30: the completion of ANTOFF, whose body is CLRBITS alone. -/
theorem antoffClearsTheAntennaBits : Obligations.AntoffClearsTheAntennaBits := by
  intro s addr data hs
  exact completes_antoff hs addr data

/-! ## RESET and INIT -/

/-- Settles O25: with a bound of at least 1 the run of RESET ends, and its end is the response. -/
theorem resetCommandWithBound : Obligations.ResetCommandWithBound := by
  intro s addr data n hs hmax hn
  obtain ⟨m, rfl⟩ := Nat.exists_eq_add_of_le' hn
  exact completes_reset_of_run hs (run_reset [] hs.deselected hs.noReset hmax)

/-- Settles O32: with a bound of at least 1 the RESET inside INIT ends, and INIT with it. -/
theorem initRunsItsStepsInOrder : Obligations.InitRunsItsStepsInOrder := by
  intro s addr data n hs hmax hn
  obtain ⟨m, rfl⟩ := Nat.exists_eq_add_of_le' hn
  exact completes_init_of_run hs (run_init [] (by exact hs.noReset) hmax)

/-- INIT succeeds exactly when the RESET inside it does. -/
theorem Body.init_fst (n : Nat) (s : State) : (init n s).1 = (reset n (initLines s)).1 := by
  cases h : (reset n (initLines s)).1 with
  | true => rw [init_ok h]
  | false => rw [init_unresponsive (by simp [h])]

/-- Settles O26: a poll that reads bit 4 as 0 ends the unbounded loop, outermost or inside INIT. -/
theorem resetAndInitWithoutBoundWhenTheChipAnswers : Obligations.ResetAndInitWithoutBoundWhenTheChipAnswers := by
  intro s addr data n hs hmax
  constructor
  · intro hclear
    have hcompletes := completes_reset_of_run hs (run_reset_none [] hs.deselected hs.noReset hmax hclear)
    rwa [hclear] at hcompletes
  · intro hclear
    have hreset := run_reset_none [.init .s4] (s := Body.initLines (accepted 0x8 addr data s)) rfl
      (by exact hs.noReset) (by exact hmax) ((Body.init_fst n _).symm.trans hclear)
    have hcompletes := completes_init_of_run hs (run_init_of [] (by exact hs.noReset) hreset)
    rwa [hclear] at hcompletes

/-! ## Spent polls (42_chip_control.md R151; 60_exceptions.md R214) -/

/-- The events of one failing poll of RESET: a read bracket of CommandReg with the two bytes received, and
the delay S6. -/
def pollEvents (c : Config) (rx : Byte × Byte) : List Event :=
  [.bus .csl, .bus (.x (rframeByte c.aCommand.toNat) rx.1), .bus (.x c.readFill rx.2), .bus .csh, .bus (.dly 1)]

namespace Body

@[simp] theorem toNat_reg (a : RegAddr) : (reg a).toNat = a.toNat := by
  have ha : a.toNat < 2 ^ 8 := a.isLt.trans (by decide)
  rw [reg, BitVec.toNat_setWidth, Nat.mod_eq_of_lt ha]

/-! What each part of RESET appends to the history. -/

theorem wrReg_history (a : RegAddr) (v : Byte) (s : State) : ∃ r0 r1, (wrReg a v s).history =
    s.history ++ [.bus .csl, .bus (.x (wframeByte a.toNat) r0), .bus (.x v r1), .bus .csh] :=
  ⟨_, _, by rw [wrReg, wr_eq Prod.mk.eta.symm Prod.mk.eta.symm, toNat_reg]⟩

theorem readTmp_history (a : RegAddr) (s : State) : ∃ r0, (readTmp (reg a) s).history = s.history ++
    [.bus .csl, .bus (.x (rframeByte a.toNat) r0), .bus (.x s.cfg.readFill (readTmp (reg a) s).tmp), .bus .csh] :=
  ⟨_, by rw [readTmp, rd_eq Prod.mk.eta.symm Prod.mk.eta.symm, toNat_reg]; rfl⟩

theorem countPoll_resetRead_history (s : State) : ∃ r0, (countPoll (resetRead s)).history =
    s.history ++ pollEvents s.cfg (r0, (resetRead s).tmp) := by
  obtain ⟨r0, hread⟩ := readTmp_history s.cfg.aCommand s
  exact ⟨r0, by simp [countPoll, wait, pollEvents, hread]⟩

theorem resetSend_history (s : State) : ∃ w0 w1, (resetSend s).history = s.history ++
    [.bus .csl, .bus (.x (wframeByte s.cfg.aCommand.toNat) w0), .bus (.x s.cfg.cmdSoftReset w1), .bus .csh,
      .bus (.dly 50)] := by
  obtain ⟨w0, w1, hwrite⟩ := wrReg_history s.cfg.aCommand s.cfg.cmdSoftReset s
  exact ⟨w0, w1, by simp [resetSend, wait, hwrite]⟩

/-- A poll loop that is spent has counted every poll, and each was a failing one. -/
theorem resetPoll_spent (n : Nat) : ∀ {s : State}, (resetPoll n s).1 = false →
    (resetPoll n s).2.cnt = s.cnt + n ∧
    ∃ rx : List (Byte × Byte), rx.length = n ∧ (∀ p ∈ rx, p.2 &&& 0x10 ≠ 0) ∧
      (resetPoll n s).2.history = s.history ++ rx.flatMap (pollEvents s.cfg) := by
  induction n with
  | zero => intro s _; exact ⟨rfl, [], rfl, by simp, by simp [resetPoll]⟩
  | succ n ih =>
    intro s hspent
    by_cases hbit : (resetRead s).tmp &&& 0x10 = 0
    · rw [resetPoll_clear n hbit] at hspent
      cases hspent
    · rw [resetPoll_busy n hbit] at hspent ⊢
      obtain ⟨hcnt, rx, hlen, hbits, hhist⟩ := ih hspent
      obtain ⟨r0, hpoll⟩ := countPoll_resetRead_history s
      refine ⟨?_, (r0, (resetRead s).tmp) :: rx, by simp [hlen], List.forall_mem_cons.2 ⟨hbit, hbits⟩, ?_⟩
      · simp only [hcnt, countPoll_cnt, readTmp_cnt]; omega
      · simp [hhist, hpoll]

end Body

/-- Settles O28: the loop starts with the counter at 0, after the events of S1 and S2. -/
theorem unresponsiveAfterExactlyTheBound : Obligations.UnresponsiveAfterExactlyTheBound := by
  intro s n hspent
  obtain ⟨hcnt, rx, hlen, hbits, hhist⟩ := Body.resetPoll_spent n (s := Body.resetSend s) hspent
  obtain ⟨w0, w1, hsend⟩ := Body.resetSend_history s
  rw [hsend] at hhist
  exact ⟨hcnt.trans (Nat.zero_add n), w0, w1, rx, hlen, hbits, hhist⟩

end Sys2Proof.Machine
end

section
/-! PROOF. ANTON and ANTOFF against the plain register file (42_chip_control.md R155): both apply one mask function to TxControlReg, and ANTON only reads once the bits are set. -/

namespace Sys2Proof.Machine

/-! ## The antenna mask (41_bitmask.md R143) -/

theorem or_eq_self_of_and_eq {r m : Byte} (h : r &&& m = m) : r ||| m = r := by
  rw [← h]
  ext k hk
  simp +contextual

theorem or_and_mask (r m : Byte) : (r ||| m) &&& m = m := by
  ext k hk
  simpa using Or.inr

theorem clear_and_mask (r m : Byte) : (r &&& ~~~m) &&& m = 0 := by
  ext k hk
  simp

theorem clear_clear_mask (r m : Byte) : (r &&& ~~~m) &&& ~~~m = r &&& ~~~m := by
  rw [BitVec.and_assoc, BitVec.and_self]

/-! ## The bytes transmitted -/

theorem transmitted_append (es es' : List BusEvent) : transmitted (es ++ es') = transmitted es ++ transmitted es' := by
  induction es with
  | nil => rfl
  | cons e es ih => cases e <;> simp [transmitted, ih]

namespace Body

/-- A read sends its frame byte and the fill byte. -/
theorem readTmp_transmitted (a : RegAddr) (s : State) :
    transmitted (readTmp (reg a) s).trace = transmitted s.trace ++ [rframeByte a.toNat, s.cfg.readFill] := by
  obtain ⟨r0, hread⟩ := readTmp_history a s
  simp [State.trace, hread, Event.bus?, transmitted_append, transmitted]

/-! ## The bodies at a configured address of the plain register file -/

section
variable {s : State} {regs : Memory} (henv : s.env = Env.simple regs)
include henv

theorem readTmp_tmp_simple (a : RegAddr) : (readTmp (reg a) s).tmp = regs.read a.toNat := by
  have hbyte := rdByte_of_queue_empty henv (reg a) s.cfg.readFill rfl
  rwa [setWidth_reg] at hbyte

theorem rmw_reg_simple (g : Byte → Byte) (a : RegAddr) :
    (rmw g (reg a) s).env = Env.simple (regs.write a.toNat (g (regs.read a.toNat))) := by
  rw [rmw_env_simple henv, ← toNat_setWidth_six, setWidth_reg]

/-- With both bits set ANTON is one read. -/
theorem anton_of_set (hset : regs.read s.cfg.aTxControl.toNat &&& 0x03 = 0x03) :
    anton s = readTmp (reg s.cfg.aTxControl) s :=
  anton_on (by rwa [readTmp_tmp_simple henv])

/-- ANTON sets the two bits, whether it writes or finds them set. -/
theorem anton_env_simple (hwf : regs.wf = true) :
    ∃ regs', (anton s).env = Env.simple regs' ∧
      ∀ y, regs'.read y = if y = s.cfg.aTxControl.toNat then regs.read s.cfg.aTxControl.toNat ||| 0x03
        else regs.read y := by
  by_cases hset : regs.read s.cfg.aTxControl.toNat &&& 0x03 = 0x03
  · refine ⟨regs, by rw [anton_of_set henv hset, readTmp_env_simple henv], fun y => ?_⟩
    rw [or_eq_self_of_and_eq hset]
    split
    · next hy => rw [hy]
    · rfl
  · have hread := readTmp_env_simple henv (reg s.cfg.aTxControl)
    rw [anton_off (by rwa [readTmp_tmp_simple henv]), setb_eq_rmw, rmw_reg_simple hread]
    exact ⟨_, rfl, fun y => Memory.read_write hwf _ y _⟩

end

end Body

theorem accepted_trace (op : OpCode) (a d : Byte) (s : State) : (accepted op a d s).trace = s.trace :=
  latchCommand_trace op a d s

theorem answered_trace (r : Response) (s : State) : (answered r s).trace = s.trace :=
  respond_trace r s

/-- ANTON of a ready block against the plain register file. -/
theorem anton_simple {s : State} {regs : Memory} (hs : s.Ready) (hwf : regs.wf = true)
    (henv : s.env = Env.simple regs) (addr data : Byte) :
    ∃ t regs1, Completes (.anton addr data) s t ∧ t.Ready ∧ t.cfg = s.cfg ∧ t.env = Env.simple regs1 ∧
      ∀ y, regs1.read y = if y = s.cfg.aTxControl.toNat then regs.read s.cfg.aTxControl.toNat ||| 0x03
        else regs.read y := by
  let u := accepted 0x6 addr data s
  obtain ⟨regs1, henv1, hread1⟩ := Body.anton_env_simple (s := u) henv hwf
  obtain ⟨hcs, hreset, _⟩ := Body.anton_frame u
  have hcfg : (Body.anton u).cfg = s.cfg := by
    obtain ⟨_, _, _, he⟩ := Body.anton_fields u
    rw [he]
    rfl
  exact ⟨_, regs1, completes_anton hs addr data, ⟨rfl, hcs, hreset.trans hs.noReset⟩, hcfg, henv1, hread1⟩

/-- ANTON where both bits are set already: one read frame and no write. -/
theorem anton_simple_of_set {s : State} {regs : Memory} (hs : s.Ready) (henv : s.env = Env.simple regs)
    (hset : regs.read s.cfg.aTxControl.toNat &&& 0x03 = 0x03) (addr data : Byte) :
    ∃ t, Completes (.anton addr data) s t ∧ t.env = Env.simple regs ∧
      transmitted t.trace = transmitted s.trace ++ [rframeByte s.cfg.aTxControl.toNat, s.cfg.readFill] := by
  have hdone := completes_anton hs addr data
  rw [Body.anton_of_set (s := accepted 0x6 addr data s) henv hset] at hdone
  have hregs := Body.readTmp_env_simple (s := accepted 0x6 addr data s) henv (Body.reg s.cfg.aTxControl)
  refine ⟨_, hdone, hregs, ?_⟩
  rw [answered_trace, Body.readTmp_transmitted, accepted_trace]
  rfl

/-- Settles O31: ANTON is `r ||| 0x03` and ANTOFF `r &&& ~~~0x03` at TxControlReg, and a second ANTON finds the
bits set. -/
theorem antennaLawsOnTheRegisterFile : Obligations.AntennaLawsOnTheRegisterFile := by
  intro s regs addr data hs hwf henv x others
  have hkept : (0xFC : Byte) = ~~~0x03 := by decide
  rw [hkept]
  constructor
  · obtain ⟨t, regs1, ht, hready, hcfg, henv1, hread1⟩ := anton_simple hs hwf henv addr data
    have hx : regs1.read x = regs.read x ||| 0x03 := (hread1 x).trans (if_pos rfl)
    have hset : regs1.read x &&& 0x03 = 0x03 := by rw [hx, or_and_mask]
    obtain ⟨u, hu, henv2, hsent⟩ := anton_simple_of_set hready henv1 (by rwa [hcfg]) addr data
    rw [hcfg] at hsent
    exact ⟨t, regs1, u, ht, henv1, hset, by rw [hx, or_clear_mask], fun y hy => (hread1 y).trans (if_neg hy),
      hu, henv2, hsent⟩
  · refine ⟨_, _, completes_antoff hs addr data,
      Body.rmw_reg_simple (s := accepted 0x7 addr data s) henv (· &&& ~~~0x03) s.cfg.aTxControl,
      ?_, ?_, fun y hy => ?_⟩
    · rw [Memory.read_write hwf, if_pos rfl, clear_and_mask]
    · rw [Memory.read_write hwf, if_pos rfl, clear_clear_mask]
    · rw [Memory.read_write hwf, if_neg hy]

end Sys2Proof.Machine
end

section
/-! PROOF. The card protocol commands of a ready block (43_card_protocol.md R171, R175, R178): each completes in the state of its body; and what REQP's polls leave in its counter and flags (R174). -/

namespace Sys2Proof.Machine

/-! ## REQP -/

/-- Settles O34: the completion of REQP, whose body leaves the presence flag and what selects the status. -/
theorem reqpReportsPresence : Obligations.ReqpReportsPresence := by
  intro s addr mode hs
  exact completes_reqp hs addr mode

namespace Body

/-- REQP's poll loop with `n` polls left ends in one of two ways (43_card_protocol.md R171): a poll sees a bit of
mask 0x30, or every poll has failed and been counted. -/
theorem irqPoll_ends (n : Nat) : ∀ {s : State}, s.timedOut = false →
    ((irqPoll n s).timedOut = false ∧ (irqPoll n s).cnt < s.cnt + n ∧ (irqPoll n s).irq &&& 0x30 ≠ 0) ∨
    ((irqPoll n s).timedOut = true ∧ (irqPoll n s).cnt = s.cnt + n) := by
  induction n with
  | zero => intro s _; exact .inr ⟨rfl, rfl⟩
  | succ n ih =>
    intro s hflag
    by_cases hbit : (readIrq s).irq &&& 0x30 ≠ 0
    · rw [irqPoll_seen n hbit]
      exact .inl ⟨hflag, Nat.lt_add_of_pos_right n.succ_pos, hbit⟩
    · rw [irqPoll_unseen n hbit]
      have hpolled := ih (s := countPoll (readIrq s)) hflag
      have hcount : (countPoll (readIrq s)).cnt + n = s.cnt + (n + 1) := by
        rw [countPoll_cnt, readIrq_cnt, Nat.add_right_comm, Nat.add_assoc]
      rwa [hcount] at hpolled

/-- The length byte decides the presence flag, all eight bits of it (43_card_protocol.md R173, R174). -/
theorem judge_presence_iff (s : State) : (judge s).presence = true ↔ (judge s).lvl = 2 :=
  beq_iff_eq

/-- The polls start with the counter and the flag clear (REQP S8), and the steps after them keep both and the last
byte of ComIrqReg. -/
theorem reqp_ends (m : Byte) (s : State) :
    ((reqp m s).timedOut = false ∧ (reqp m s).cnt < 25 ∧ (reqp m s).irq &&& 0x30 ≠ 0) ∨
    ((reqp m s).timedOut = true ∧ (reqp m s).cnt = 25) :=
  irqPoll_ends 25 (s := reqpStart m s) rfl

end Body

/-- Settles O35: by the two ways the poll loop ends. -/
theorem reqpFlagsFollowTheirRules : Obligations.ReqpFlagsFollowTheirRules := by
  intro s mode
  refine ⟨Body.judge_presence_iff _, ?_⟩
  rcases Body.reqp_ends mode s with ⟨hflag, hcnt, hbit⟩ | ⟨hflag, hcnt⟩
  · exact ⟨hcnt.le, by simp [hflag, hcnt.ne], fun _ => hbit⟩
  · exact ⟨hcnt.le, by simp [hflag, hcnt], by simp [hflag]⟩

/-! ## ANTICOLL and GETUID -/

/-- Settles O36: the completion of ANTICOLL, whose body makes the test of the length byte and the drain. -/
theorem anticollDrainsFiveBytesOrNone : Obligations.AnticollDrainsFiveBytesOrNone := by
  intro s addr data hs
  exact completes_anticoll hs addr data

/-- Settles O37: the completion of GETUID, which branches at S2 on the presence flag REQP leaves. -/
theorem getuidRunsReqpThenAnticoll : Obligations.GetuidRunsReqpThenAnticoll := by
  intro s addr data hs
  exact completes_getuid hs addr data

end Sys2Proof.Machine
end

section
/-! PROOF. The drain and the format (44_fifo_drain_parse.md R192 to R197): each drain read is one bracket into one element of the buffer; the string is the two digits of each drained byte in order, and the bytes can be read back from it. -/

namespace Sys2Proof.Machine

/-! ## The drain (44_fifo_drain_parse.md R192) -/

/-- The events of one drain read: a read bracket of FIFODataReg in which `x` and then `r` are received. -/
def drainEvents (c : Config) (x r : Byte) : List Event :=
  [.bus .csl, .bus (.x (rframeByte c.aFifoData.toNat) x), .bus (.x c.readFill r), .bus .csh]

/-- A drain read stores the byte of its second exchange and changes nothing else of the block. -/
theorem Body.drainRead_changes {put : Byte → Buf → Buf} {s t : State} (h : drainRead put s = t) :
    ∃ (x r : Byte) (e : Env), t = { s with
      cs := .high, env := e, buf := put r s.buf, history := s.history ++ drainEvents s.cfg x r } :=
  ⟨_, rdRegByte s.cfg.aFifoData s, _, by
    rw [← h, drainRead, rdReg, rd_eq Prod.mk.eta.symm Prod.mk.eta.symm, toNat_reg]; rfl⟩

/-- Settles O39: the five drain reads one after another, each into its own element of the buffer. -/
theorem drainReadsFiveBytesInOrder : Obligations.DrainReadsFiveBytesInOrder := by
  intro s
  let s1 := Body.drainRead (fun r b => { b with b0 := r }) s
  let s2 := Body.drainRead (fun r b => { b with b1 := r }) s1
  let s3 := Body.drainRead (fun r b => { b with b2 := r }) s2
  let s4 := Body.drainRead (fun r b => { b with b3 := r }) s3
  obtain ⟨x0, r0, e0, h0⟩ := Body.drainRead_changes (t := s1) rfl
  obtain ⟨x1, r1, e1, h1⟩ := Body.drainRead_changes (t := s2) rfl
  obtain ⟨x2, r2, e2, h2⟩ := Body.drainRead_changes (t := s3) rfl
  obtain ⟨x3, r3, e3, h3⟩ := Body.drainRead_changes (t := s4) rfl
  obtain ⟨x4, r4, e4, h4⟩ := Body.drainRead_changes (s := s4) (t := Body.drain s) rfl
  refine ⟨x0, x1, x2, x3, x4, ⟨r0, r1, r2, r3, r4⟩, e4, ?_⟩
  rw [h4, h3, h2, h1, h0]
  rfl

/-! ## The digits (44_fifo_drain_parse.md R195) -/

/-- Settles O40: the sixteen rows of the table. -/
theorem hexcharTable : Obligations.HexcharTable := by
  unfold Obligations.HexcharTable
  decide

theorem toNat_hexchar_of_le {n : BitVec 4} (h : n.toNat ≤ 9) : (hexchar n).toNat = 0x30 + n.toNat := by
  rw [hexchar, if_pos h, BitVec.toNat_ofNat]
  omega

theorem toNat_hexchar_of_gt {n : BitVec 4} (h : 9 < n.toNat) : (hexchar n).toNat = 0x41 + (n.toNat - 10) := by
  have hn : n.toNat < 16 := n.isLt
  rw [hexchar, if_neg h.not_ge, BitVec.toNat_ofNat]
  omega

/-- Every character is '0' to '9' or 'A' to 'F'. -/
theorem hexchar_range (n : BitVec 4) :
    (0x30 ≤ (hexchar n).toNat ∧ (hexchar n).toNat ≤ 0x39) ∨
    (0x41 ≤ (hexchar n).toNat ∧ (hexchar n).toNat ≤ 0x46) := by
  have hn : n.toNat < 16 := n.isLt
  rcases le_or_gt n.toNat 9 with h | h
  · left; rw [toNat_hexchar_of_le h]; omega
  · right; rw [toNat_hexchar_of_gt h]; omega

/-- The digits and the letters lie in separate ranges, and in each range the character counts up with `n`. -/
theorem hexchar_injective {m n : BitVec 4} (h : hexchar m = hexchar n) : m = n := by
  have hval := congrArg BitVec.toNat h
  apply BitVec.eq_of_toNat_eq
  rcases le_or_gt m.toNat 9 with hm | hm <;> rcases le_or_gt n.toNat 9 with hn | hn
  · rw [toNat_hexchar_of_le hm, toNat_hexchar_of_le hn] at hval; omega
  · rw [toNat_hexchar_of_le hm, toNat_hexchar_of_gt hn] at hval; omega
  · rw [toNat_hexchar_of_gt hm, toNat_hexchar_of_le hn] at hval; omega
  · rw [toNat_hexchar_of_gt hm, toNat_hexchar_of_gt hn] at hval; omega

/-! ## The two digits of a byte (44_fifo_drain_parse.md R196) -/

theorem highNibble_eq_ofNat (x : Byte) : highNibble x = BitVec.ofNat 4 (x.toNat / 16) := by
  rw [highNibble, BitVec.extractLsb', Nat.shiftRight_eq_div_pow]

theorem lowNibble_eq_ofNat (x : Byte) : lowNibble x = BitVec.ofNat 4 x.toNat := rfl

theorem nibbles_injective {x y : Byte} (hhigh : highNibble x = highNibble y) (hlow : lowNibble x = lowNibble y) :
    x = y := by
  rw [highNibble_eq_ofNat, highNibble_eq_ofNat] at hhigh
  rw [lowNibble_eq_ofNat, lowNibble_eq_ofNat] at hlow
  have hdiv := congrArg BitVec.toNat hhigh
  have hmod := congrArg BitVec.toNat hlow
  rw [BitVec.toNat_ofNat, BitVec.toNat_ofNat] at hdiv hmod
  apply BitVec.eq_of_toNat_eq
  omega

/-- The two characters of a byte, the high nibble's first. -/
def hexPair (x : Byte) : List Byte := [hexchar (highNibble x), hexchar (lowNibble x)]

theorem hexPair_eq_ofNat (x : Byte) :
    hexPair x = [hexchar (BitVec.ofNat 4 (x.toNat / 16)), hexchar (BitVec.ofNat 4 (x.toNat % 16))] := by
  have hlow : BitVec.ofNat 4 (x.toNat % 16) = lowNibble x := by
    rw [lowNibble_eq_ofNat]
    exact BitVec.eq_of_toNat_eq (by simp)
  rw [hexPair, highNibble_eq_ofNat, hlow]

/-- A byte 0x00 to 0x0F has a leading zero. -/
theorem hexPair_of_le {x : Byte} (h : x.toNat ≤ 0x0F) : hexPair x = [0x30, hexchar (BitVec.ofNat 4 x.toNat)] := by
  have hdiv : x.toNat / 16 = 0 := by omega
  rw [hexPair, highNibble_eq_ofNat, hdiv, lowNibble_eq_ofNat]
  rfl

/-! ## The digits of a list of bytes -/

theorem exists_eq_hexchar_of_mem {xs : List Byte} {c : Byte} (h : c ∈ xs.flatMap hexPair) : ∃ n, c = hexchar n := by
  obtain ⟨x, -, hc⟩ := List.mem_flatMap.1 h
  rcases List.mem_pair.1 hc with rfl | rfl
  · exact ⟨_, rfl⟩
  · exact ⟨_, rfl⟩

/-- The two characters of the byte at index `i` stand at `2 * i` and `2 * i + 1`. -/
theorem getElem?_flatMap_hexPair (xs : List Byte) : ∀ {i : Nat} {x : Byte}, xs[i]? = some x →
    (xs.flatMap hexPair)[2 * i]? = (hexPair x)[0]? ∧ (xs.flatMap hexPair)[2 * i + 1]? = (hexPair x)[1]? := by
  induction xs with
  | nil => intro i x h; cases h
  | cons y ys ih =>
    intro i x h
    cases i with
    | zero => cases h; exact ⟨rfl, rfl⟩
    | succ i => exact ih h

theorem flatMap_hexPair_injective : ∀ {xs ys : List Byte}, xs.flatMap hexPair = ys.flatMap hexPair → xs = ys
  | [], [], _ => rfl
  | [], _ :: _, h => by cases h
  | _ :: _, [], h => by cases h
  | x :: xs, y :: ys, h => by
    obtain ⟨hhigh, hlow, hrest⟩ : hexchar (highNibble x) = hexchar (highNibble y) ∧
        hexchar (lowNibble x) = hexchar (lowNibble y) ∧ xs.flatMap hexPair = ys.flatMap hexPair := by
      simpa [hexPair] using h
    rw [nibbles_injective (hexchar_injective hhigh) (hexchar_injective hlow), flatMap_hexPair_injective hrest]

/-! ## The format (44_fifo_drain_parse.md R196, R197) -/

theorem formatUid_toList (b : Buf) : (formatUid b).toList = b.toList.flatMap hexPair := rfl

theorem Buf.toList_injective {b b' : Buf} (h : b.toList = b'.toList) : b = b' := by
  cases b
  cases b'
  simpa [Buf.toList] using h

theorem formatUid_injective {b b' : Buf} (h : formatUid b = formatUid b') : b = b' := by
  have hchars := congrArg UidStr.toList h
  rw [formatUid_toList, formatUid_toList] at hchars
  exact Buf.toList_injective (flatMap_hexPair_injective hchars)

/-- Settles O41: the ten characters are the pairs of the five bytes. -/
theorem formatIsTwoDigitsPerByte : Obligations.FormatIsTwoDigitsPerByte := by
  intro b
  rw [formatUid_toList]
  exact congrArg (b.toList.flatMap ·) (funext hexPair_eq_ofNat)

/-- Settles O42: the ranges and the injectivity of the digits, carried from a nibble to a byte, to the string. -/
theorem formatIsInjectiveAndHexadecimal : Obligations.FormatIsInjectiveAndHexadecimal := by
  refine ⟨fun b => rfl, fun b c hc => ?_, fun b i x hx hle => ?_, fun b b' => formatUid_injective, by decide⟩
  · rw [formatUid_toList] at hc
    obtain ⟨n, rfl⟩ := exists_eq_hexchar_of_mem hc
    exact hexchar_range n
  · have hpair := getElem?_flatMap_hexPair b.toList hx
    rwa [hexPair_of_le hle] at hpair

end Sys2Proof.Machine
end

section
/-! PROOF. The exceptions of the block (60_exceptions.md R213, R215, R221): the reserved op codes, the selection of a failed card command's status, and the hang of RESET and INIT with no bound. -/

namespace Sys2Proof.Machine

/-! ## Reserved op codes (60_exceptions.md R215) -/

/-- Settles O13: each reserved op code is accepted and raises ILLEGAL_OP in the same step. -/
theorem reservedOpCodesAnswerIllegalOp : Obligations.ReservedOpCodesAnswerIllegalOp := by
  intro s addr data hrun hcs op i hmem
  have hexec : exec i s = beginReserved op addr data s := by
    simp only [List.mem_cons, Prod.mk.injEq, List.not_mem_nil, or_false] at hmem
    obtain ⟨rfl, rfl⟩ | ⟨rfl, rfl⟩ | ⟨rfl, rfl⟩ | ⟨rfl, rfl⟩ | ⟨rfl, rfl⟩ := hmem <;> rfl
  rw [hexec, beginReserved_idle hrun, acceptReserved_of_deselected hcs, hrun]

/-! ## The status of an absent card (60_exceptions.md R213) -/

/-- Settles O38: the tests are made in the order of R213, and ANTICOLL's result is empty for every length
but 5. -/
theorem absentStatusPriority : Obligations.AbsentStatusPriority := by
  refine ⟨fun timedOut lvl => ⟨fun ht => ?_, fun ht hl => ?_, fun ht hl => ?_⟩, fun s hlvl => ?_⟩
  · rw [absentStatus, if_pos ht]
  · rw [absentStatus, if_neg (by simp [ht]), if_pos (by simp [hl])]
  · rw [absentStatus, if_neg (by simp [ht]), if_neg (by simpa using hl)]
  · rw [Body.anticoll_empty hlvl]
    rfl

/-! ## The hang (60_exceptions.md R221) -/

namespace Body

@[simp] theorem readTmp_responses (a : Byte) (s : State) : (readTmp a s).responses = s.responses :=
  rd_responses a s.cfg.readFill s

@[simp] theorem wait_responses (n : Nat) (s : State) : (wait n s).responses = s.responses := by
  simp [wait, emit, State.responses, Event.response?]

@[simp] theorem countPoll_responses (s : State) : (countPoll s).responses = s.responses :=
  wait_responses 1 s

/-- The polls of RESET answer nothing. -/
theorem resetPoll_responses (n : Nat) : ∀ s : State, (resetPoll n s).2.responses = s.responses := by
  induction n with
  | zero => exact fun _ => rfl
  | succ n ih =>
    intro s
    by_cases h : (resetRead s).tmp &&& 0x10 = 0
    · rw [resetPoll_clear n h, readTmp_responses]
    · rw [resetPoll_busy n h, ih, countPoll_responses, readTmp_responses]

theorem resetSend_responses (s : State) : (resetSend s).responses = s.responses :=
  (wait_responses 50 _).trans (wr_responses _ _ s)

theorem reset_responses (n : Nat) (s : State) : (reset n s).2.responses = s.responses :=
  (resetPoll_responses n _).trans (resetSend_responses s)

end Body

@[simp] theorem rsth_responses (s : State) : (rsth s).responses = s.responses := by
  simp [State.responses, Event.response?]

theorem run_responses {k : Nat} {s t : State} (hreset : s.resetIn = []) (h : Runs k s t) :
    ∃ rs, t.responses = s.responses ++ rs := by
  obtain ⟨_, ⟨es, hes⟩, _⟩ := run_monotone hreset h
  exact ⟨es.filterMap Event.response?, by rw [State.responses, hes, List.filterMap_append]; rfl⟩

/-- Before a busy state that a run reaches with no command taken and no response added, the block was
busy all the time and had answered nothing. -/
theorem busy_before_busy {k m : Nat} {s v : State} (hreset : s.resetIn = []) (hle : k ≤ m) (hrun : Runs m s v)
    (hbusy : v.run ≠ .idle) (hcmds : v.cmds = s.cmds) (hresponses : v.responses = s.responses) :
    ∃ u, Runs k s u ∧ u.cmdReady = false ∧ u.responses = s.responses := by
  obtain ⟨u, hsu, huv⟩ := hrun.prefix hle
  obtain ⟨hreset', _, htaken⟩ := run_monotone hreset hsu
  refine ⟨u, hsu, Bool.eq_false_iff.2 fun hready => hbusy ?_, ?_⟩
  · have hidle : u.run = .idle := (cmdReady_iff u).1 hready
    rw [idle_run hidle hreset' huv (by rw [hcmds]; exact htaken), hidle]
  · obtain ⟨rs, hu⟩ := run_responses hreset hsu
    obtain ⟨rs', hv⟩ := run_responses hreset' huv
    have hnone : rs ++ rs' = [] := by
      rw [hu, hresponses, List.append_assoc] at hv
      exact List.append_right_eq_self.1 hv.symm
    rw [hu, (List.append_eq_nil_iff.1 hnone).1, List.append_nil]

/-- RESET against a chip that never clears its busy bit, with no bound, over any callers: after `n` polls it
is at S4 again. -/
theorem runs_reset_polls {u : State} (K : List Frame) (hcs : u.cs = .high) (hreset : u.resetIn = [])
    (hmax : u.cfg.resetPollMax = none) (n : Nat) (hspent : (Body.reset n u).1 = false) :
    Runs (7 + 10 * n) (goto (.reset .s1) K u) (goto (.reset .s4) K (Body.reset n u).2) :=
  (run_resetSend K hcs hreset).trans
    (run_resetPoll_hang K n (s := Body.resetSend u) rfl (by exact hreset) (by exact hmax) hspent)

/-- A run that comes to RESET's first step before any answer hangs there, if no poll ever reads bit 4 as 0
and no bound is set. -/
theorem hangs_of_runs_reset {j : Nat} {s u : State} {K : List Frame} (hreset : s.resetIn = [])
    (hrun : Runs j s (goto (.reset .s1) K u)) (hcs : u.cs = .high) (hmax : u.cfg.resetPollMax = none)
    (hspent : ∀ n, (Body.reset n u).1 = false) (hcmds : u.cmds = s.cmds) (hresponses : u.responses = s.responses)
    (k : Nat) : ∃ t, Runs k s t ∧ t.cmdReady = false ∧ t.responses = s.responses := by
  have hreset' : u.resetIn = [] := (run_monotone hreset hrun).1
  obtain ⟨_, _, hcmds'⟩ := Body.reset_frame k u
  exact busy_before_busy hreset (m := j + (7 + 10 * k)) (by omega)
    (hrun.trans (runs_reset_polls K hcs hreset' hmax k (hspent k))) nofun (hcmds'.trans hcmds)
    ((Body.reset_responses k u).trans hresponses)

/-- Settles O27: whatever the number of steps, a later round of the polls is reached with no answer given,
from RESET's first step and from INIT's. -/
theorem resetAndInitWithoutBoundHang : Obligations.ResetAndInitWithoutBoundHang := by
  intro s addr data hs hmax
  constructor
  · intro hspent
    let u := accepted 0x5 addr data s
    refine ⟨goto (.reset .s1) [] u, beginCommand_idle hs.idle _ _ _ _, fun k => ?_⟩
    rw [← accepted_responses 0x5 addr data s]
    exact hangs_of_runs_reset (s := goto (.reset .s1) [] u) (u := u) hs.noReset (Runs.refl _) hs.deselected hmax
      hspent rfl rfl k
  · intro hspent
    let u := accepted 0x8 addr data s
    refine ⟨goto (.init .s1) [] u, beginCommand_idle hs.idle _ _ _ _, fun k => ?_⟩
    rw [← accepted_responses 0x8 addr data s]
    exact hangs_of_runs_reset (s := goto (.init .s1) [] u) (u := Body.initLines u) hs.noReset
      (run_initLines [] (by exact hs.noReset)) rfl hmax (fun n => (Body.init_fst n u).symm.trans (hspent n)) rfl
      ((rsth_responses _).trans (csh_responses u)) k

end Sys2Proof.Machine
end

section
/-! PROOF. Every command ends when RESET_POLL_MAX is a number (60_exceptions.md R221): the steps left at each label, which every step of a busy block makes fewer. -/

namespace Sys2Proof.Machine

/-! ## The steps left in a body

At each label a bound on the steps the body still takes, this one included, with those of the bodies it calls.
A call is one step and the steps of the body called; `n` is RESET_POLL_MAX and `cnt` the counter of the polls. -/

def WrAt.stepsLeft : WrAt → Nat
  | .s1 => 4 | .s2 => 3 | .s3 => 2 | .s4 => 1

def RdAt.stepsLeft : RdAt → Nat
  | .s1 => 4 | .s2 => 3 | .s3 => 2 | .s4 _ => 1

def BurstAt.stepsLeft : BurstAt → Nat
  | .s1 => 5 | .s2 => 4 | .s3 => 3 | .s4 => 2 | .s5 => 1

def RmwAt.stepsLeft : RmwAt → Nat
  | .s1 => 10 | .s2 => 5

/-- A round of the polls, S4 to S9, is ten steps, and S7 counts the round at hand (42_chip_control.md R151). -/
def ResetAt.stepsLeft (n cnt : Nat) : ResetAt → Nat
  | .s1 => 10 * n + 17
  | .s2 => 10 * n + 12
  | .s3 => 10 * n + 11
  | .s4 => 10 * (n - (cnt + 1)) + 10
  | .s5 => 10 * (n - (cnt + 1)) + 5
  | .s6 => 10 * (n - (cnt + 1)) + 4
  | .s7 => 10 * (n - (cnt + 1)) + 3
  | .s8 => 10 * (n - cnt) + 2
  | .s9 => 10 * (n - cnt) + 1

def AntonAt.stepsLeft : AntonAt → Nat
  | .s1 => 17 | .s2 => 12 | .s3 => 11

def InitAt.stepsLeft (n : Nat) : InitAt → Nat
  | .s1 => 10 * n + 64
  | .s2 => 10 * n + 63
  | .s3 => 10 * n + 62
  | .s4 => 10 * n + 61
  | .s5 => 43 | .s6 => 38 | .s7 => 33 | .s8 => 28 | .s9 => 23 | .s10 => 18

/-- A round of the polls, S9 to S13, is nine steps, and S12 counts the round at hand, of at most 25
(43_card_protocol.md R171). -/
def ReqpAt.stepsLeft (cnt : Nat) : ReqpAt → Nat
  | .s1 => 281 | .s2 => 276 | .s3 => 265 | .s4 => 260 | .s5 => 255 | .s6 => 244 | .s7 => 243 | .s8 => 232
  | .s9 => 9 * (25 - (cnt + 1)) + 15
  | .s10 => 9 * (25 - (cnt + 1)) + 10
  | .s11 => 9 * (25 - (cnt + 1)) + 9
  | .s12 => 9 * (25 - (cnt + 1)) + 8
  | .s13 => 9 * (25 - cnt) + 7
  | .s14 => 6 | .s15 => 1

def DrainAt.stepsLeft : DrainAt → Nat
  | .d1 => 25 | .d2 => 20 | .d3 => 15 | .d4 => 10 | .d5 => 5

def AnticollAt.stepsLeft : AnticollAt → Nat
  | .s1 => 79 | .s2 => 68 | .s3 => 62 | .s4 => 57 | .s5 => 46 | .s6 => 45 | .s7 => 34 | .s8 => 29
  | .s9 => 28 | .s10 => 2 | .s11 _ => 1

def GetuidAt.stepsLeft : GetuidAt → Nat
  | .s1 => 364 | .s2 => 82 | .s3 => 81 | .s4 _ => 1

def Frame.stepsLeft (n cnt : Nat) : Frame → Nat
  | .wrreg _ _ l => l.stepsLeft
  | .rdreg _ _ l => l.stepsLeft
  | .wburst2 _ _ _ l => l.stepsLeft
  | .setbits _ _ l => l.stepsLeft
  | .clrbits _ _ l => l.stepsLeft
  | .reset l => l.stepsLeft n cnt
  | .anton l => l.stepsLeft
  | .antoff _ => 11
  | .init l => l.stepsLeft n
  | .reqp _ l => l.stepsLeft cnt
  | .anticoll l => l.stepsLeft
  | .drain l => l.stepsLeft
  | .getuid l => l.stepsLeft

theorem Frame.stepsLeft_pos (n cnt : Nat) (f : Frame) : 0 < f.stepsLeft n cnt := by
  cases f with
  | antoff l => exact Nat.succ_pos _
  | _ => next l => cases l <;> exact Nat.succ_pos _

/-- A body has the most steps left at its first step. -/
theorem Frame.stepsLeft_le_start (n cnt : Nat) (f : Frame) : f.stepsLeft n cnt ≤ f.start.stepsLeft n cnt := by
  cases f with
  | antoff l => exact Nat.le_refl _
  | reset l => cases l <;> simp only [start, stepsLeft, ResetAt.stepsLeft] <;> omega
  | init l => cases l <;> simp only [start, stepsLeft, InitAt.stepsLeft] <;> omega
  | reqp m l => cases l <;> simp only [start, stepsLeft, ReqpAt.stepsLeft] <;> omega
  | _ => next l => cases l <;> exact Nat.le_of_ble_eq_true rfl

/-- The longest bodies are INIT and, beside its polls, GETUID. -/
theorem Frame.stepsLeft_start_le (n cnt : Nat) (f : Frame) : f.start.stepsLeft n cnt ≤ 364 + 10 * n := by
  cases f with
  | reset l => simp only [start, stepsLeft, ResetAt.stepsLeft]; omega
  | init l => simp only [start, stepsLeft, InitAt.stepsLeft]; omega
  | _ => exact Nat.le_add_right_of_le (Nat.le_of_ble_eq_true rfl)

theorem Frame.stepsLeft_le (n cnt : Nat) (f : Frame) : f.stepsLeft n cnt ≤ 364 + 10 * n :=
  (f.stepsLeft_le_start n cnt).trans (f.stepsLeft_start_le n cnt)

/-- Only the poll loops count. -/
theorem stepsLeft_of_not_loop {f : Frame} (h : f.isLoop = false) (n cnt cnt' : Nat) :
    f.stepsLeft n cnt = f.stepsLeft n cnt' := by
  cases f with
  | reset l => cases h
  | reqp m l => cases h
  | _ => rfl

/-- The counter plays no part where a body starts. -/
theorem stepsLeft_start (f : Frame) (n cnt cnt' : Nat) : f.start.stepsLeft n cnt = f.start.stepsLeft n cnt' := by
  cases f <;> rfl

/-- A call and its body take no more steps than the label that calls has left. -/
theorem stepsLeft_callee {c g : Frame} {s : State} (h : callee c s = some g) (n cnt : Nat) :
    g.stepsLeft n cnt < c.stepsLeft n cnt := by
  cases c with
  | wrreg a v l => cases h
  | rdreg a fill l => cases h
  | wburst2 a v w l => cases h
  | reset l =>
    cases l <;> cases h <;>
      simp only [Frame.stepsLeft, callWr, callRd, WrAt.stepsLeft, RdAt.stepsLeft, ResetAt.stepsLeft] <;> omega
  | init l =>
    cases l with
    | s4 => cases h; simp only [Frame.stepsLeft, ResetAt.stepsLeft, InitAt.stepsLeft]; omega
    | _ => cases h <;> exact Nat.le_of_ble_eq_true rfl
  | reqp m l =>
    cases l with
    | s9 => cases h; simp only [Frame.stepsLeft, callRd, RdAt.stepsLeft, ReqpAt.stepsLeft]; omega
    | _ => cases h <;> exact Nat.le_of_ble_eq_true rfl
  | _ => next l => cases l <;> cases h <;> exact Nat.le_of_ble_eq_true rfl

/-! ## The steps left in the callers -/

/-- The steps the callers still take when the body of `f` has returned. -/
def callersLeft (n cnt : Nat) (f : Frame) : List Frame → Nat
  | [] => 0
  | c :: K => c.stepsLeft n cnt - (1 + f.start.stepsLeft n cnt) + callersLeft n cnt c K

/-- A bound on the steps the block takes until it is Idle, with RESET_POLL_MAX = `n`. -/
def State.stepsLeft (n : Nat) (s : State) : Nat :=
  match s.run with
  | .idle => 0
  | .busy f K => f.stepsLeft n s.cnt + callersLeft n s.cnt f K

theorem stepsLeft_idle {s : State} (h : s.run = .idle) (n : Nat) : s.stepsLeft n = 0 := by
  rw [State.stepsLeft, h]

theorem stepsLeft_busy {s : State} {f : Frame} {K : List Frame} (h : s.run = .busy f K) (n : Nat) :
    s.stepsLeft n = f.stepsLeft n s.cnt + callersLeft n s.cnt f K := by
  rw [State.stepsLeft, h]

theorem callersLeft_of_start_eq {f g : Frame} (h : g.start = f.start) (n cnt : Nat) (K : List Frame) :
    callersLeft n cnt g K = callersLeft n cnt f K := by
  cases K with
  | nil => rfl
  | cons c K => rw [callersLeft, callersLeft, h]

/-- A loop's only caller is one outermost frame, which counts nothing. -/
theorem callers_of_loop {s : State} {f : Frame} {K : List Frame} (h : stackLegal s f K = true)
    (hf : f.isLoop = true) : K = [] ∨ ∃ c, K = [c] ∧ c.isLoop = false := by
  cases K with
  | nil => exact .inl rfl
  | cons c K =>
    obtain ⟨hcallee, hK⟩ := stackLegal_cons.1 h
    have hrank : c.rank = 3 := rank_of_calls_loop (callee_called hcallee) (f.isLoop_start.trans hf)
    have hle := length_add_rank_le hK
    have hnil : K = [] := List.eq_nil_of_length_eq_zero (by omega)
    exact .inr ⟨c, by rw [hnil], Frame.isLoop_of_rank hrank⟩

theorem callersLeft_of_loop {s : State} {f : Frame} {K : List Frame} (h : stackLegal s f K = true)
    (hf : f.isLoop = true) (n cnt cnt' : Nat) : callersLeft n cnt f K = callersLeft n cnt' f K := by
  obtain rfl | ⟨c, rfl, hc⟩ := callers_of_loop h hf
  · rfl
  · simp only [callersLeft, stepsLeft_of_not_loop hc n cnt cnt', stepsLeft_start f n cnt cnt']

/-- The steps left on a legal stack are at most those of the outermost body at its label. -/
theorem stepsLeft_le_outermost {s : State} (n cnt : Nat) : ∀ {f : Frame} {K : List Frame},
    stackLegal s f K = true → f.stepsLeft n cnt + callersLeft n cnt f K ≤ (outermost f K).stepsLeft n cnt
  | _, [], _ => Nat.le_refl _
  | f, c :: K, h => by
    obtain ⟨hcallee, hK⟩ := stackLegal_cons.1 h
    have hstart := f.stepsLeft_le_start n cnt
    have hcall := stepsLeft_callee hcallee n cnt
    have hrest := stepsLeft_le_outermost n cnt hK
    rw [callersLeft, outermost]
    omega

theorem stepsLeft_le_of_posLegal {s : State} (h : s.PosLegal) (n : Nat) : s.stepsLeft n ≤ 364 + 10 * n := by
  cases hrun : s.run with
  | idle => rw [stepsLeft_idle hrun]; exact Nat.zero_le _
  | busy f K =>
    rw [stepsLeft_busy hrun]
    exact (stepsLeft_le_outermost n s.cnt ((posLegal_busy_iff hrun).1 h).stack).trans (Frame.stepsLeft_le n s.cnt _)

/-! ## The return -/

/-- The kind of result a body ends with: `rd` a byte, ANTICOLL its result, the other bodies that are called
nothing. -/
def Frame.gives (f : Frame) (r : Ret) : Prop :=
  match f with
  | .rdreg _ _ _ => ∃ b, r = .byte b
  | .anticoll _ => ∃ u, r = .anticoll u
  | .getuid _ => True
  | _ => r = .nothing

theorem Frame.gives_start (f : Frame) (r : Ret) : f.start.gives r = f.gives r := by cases f <;> rfl

/-- What a caller does when the body `f` it called has ended with result `r`: it goes on with no more steps
left than the call has left it, or it ends too. -/
inductive Resumes (c f : Frame) (r : Ret) (s : State) : Prop
  | goesOn {g s'} : afterCall c r s = some (.goesOn g s') → g.start = c.start → s'.cnt = s.cnt →
      (∀ n, g.stepsLeft n s.cnt + (1 + f.stepsLeft n s.cnt) ≤ c.stepsLeft n s.cnt) → Resumes c f r s
  | ends {s'} : afterCall c r s = some (.ends s') → s'.cnt = s.cnt → c.gives .nothing → Resumes c f r s

theorem resumes_of_callee {c f : Frame} {r : Ret} {s : State} (h : callee c s = some f) (hr : f.gives r) :
    Resumes c f r s := by
  cases c with
  | wrreg a v l => cases h
  | rdreg a fill l => cases h
  | wburst2 a v w l => cases h
  | setbits a m l =>
    cases l with
    | s1 => cases h; obtain ⟨b, rfl⟩ := hr; exact .goesOn rfl rfl rfl fun _ => Nat.le_of_ble_eq_true rfl
    | s2 => cases h; cases hr; exact .ends rfl rfl rfl
  | clrbits a m l =>
    cases l with
    | s1 => cases h; obtain ⟨b, rfl⟩ := hr; exact .goesOn rfl rfl rfl fun _ => Nat.le_of_ble_eq_true rfl
    | s2 => cases h; cases hr; exact .ends rfl rfl rfl
  | reset l =>
    cases l with
    | s1 => cases h; cases hr; exact .goesOn rfl rfl rfl fun _ => Nat.le_refl _
    | s4 => cases h; obtain ⟨b, rfl⟩ := hr; exact .goesOn rfl rfl rfl fun _ => Nat.le_refl _
    | _ => cases h
  | anton l =>
    cases l with
    | s1 => cases h; obtain ⟨b, rfl⟩ := hr; exact .goesOn rfl rfl rfl fun _ => Nat.le_of_ble_eq_true rfl
    | s2 => cases h
    | s3 => cases h; cases hr; exact .ends rfl rfl rfl
  | antoff l => cases l; cases h; cases hr; exact .ends rfl rfl rfl
  | init l =>
    cases l with
    | s1 => cases h
    | s2 => cases h
    | s3 => cases h
    | s4 =>
      cases h
      cases hr
      refine .goesOn rfl rfl rfl fun n => ?_
      simp only [Frame.stepsLeft, InitAt.stepsLeft, ResetAt.stepsLeft]
      omega
    | s10 => cases h; cases hr; exact .ends rfl rfl rfl
    | _ => cases h; cases hr; exact .goesOn rfl rfl rfl fun _ => Nat.le_of_ble_eq_true rfl
  | reqp m l =>
    cases l with
    | s9 =>
      cases h
      obtain ⟨b, rfl⟩ := hr
      refine .goesOn rfl rfl rfl fun n => ?_
      simp only [Frame.stepsLeft, callRd, RdAt.stepsLeft, ReqpAt.stepsLeft]
      omega
    | s14 => cases h; obtain ⟨b, rfl⟩ := hr; exact .goesOn rfl rfl rfl fun _ => Nat.le_of_ble_eq_true rfl
    | _ => cases h <;> cases hr <;> exact .goesOn rfl rfl rfl fun _ => Nat.le_of_ble_eq_true rfl
  | anticoll l =>
    cases l with
    | s7 => cases h; obtain ⟨b, rfl⟩ := hr; exact .goesOn rfl rfl rfl fun _ => Nat.le_of_ble_eq_true rfl
    | _ => cases h <;> cases hr <;> exact .goesOn rfl rfl rfl fun _ => Nat.le_of_ble_eq_true rfl
  | drain l =>
    cases h
    obtain ⟨b, rfl⟩ := hr
    cases l with
    | d5 => exact .ends rfl rfl rfl
    | _ => exact .goesOn rfl rfl rfl fun _ => Nat.le_of_ble_eq_true rfl
  | getuid l =>
    cases l with
    | s1 => cases h; cases hr; exact .goesOn rfl rfl rfl fun _ => Nat.le_of_ble_eq_true rfl
    | s3 => cases h; obtain ⟨u, rfl⟩ := hr; exact .goesOn rfl rfl rfl fun _ => Nat.le_of_ble_eq_true rfl
    | _ => cases h

theorem complete_run (f : Frame) (r : Ret) (s : State) : (complete f r s).run = .idle := by
  unfold complete
  split <;> rfl

/-- A return over a legal stack has a next state, with no more steps left than the callers have. -/
theorem ret_stepsLeft {K : List Frame} : ∀ {f : Frame} {r : Ret} {s : State}, stackLegal s f K = true →
    f.gives r → ∃ t, ret K f r s = .next t ∧ ∀ n, t.stepsLeft n ≤ callersLeft n s.cnt f K := by
  induction K with
  | nil => exact fun _ _ => ⟨_, rfl, fun n => by rw [stepsLeft_idle (complete_run _ _ _)]; exact Nat.zero_le _⟩
  | cons c K ih =>
    intro f r s hstack hr
    obtain ⟨hcallee, hK⟩ := stackLegal_cons.1 hstack
    obtain ⟨hgoes, hstart, hcnt, hleft⟩ | ⟨hends, hcnt, hc⟩ :=
      resumes_of_callee hcallee (f.gives_start r ▸ hr)
    · refine ⟨_, by rw [ret, hgoes], fun n => ?_⟩
      rw [stepsLeft_busy (goto_run _ _ _), callersLeft, goto_cnt, hcnt, callersLeft_of_start_eq hstart]
      exact Nat.add_le_add_right (Nat.le_sub_of_add_le (hleft n)) _
    · have hlt := rank_lt_of_calls hcallee
      have hK' := stackLegal_congr hK (afterCall_ends hends).cfg (afterCall_ends hends).dLat (.inr (by omega))
      obtain ⟨t, ht, hleft⟩ := ih hK' hc
      refine ⟨t, by rw [ret, hends]; exact ht, fun n => ?_⟩
      rw [callersLeft, ← hcnt]
      exact Nat.le_add_left_of_le (hleft n)

/-! ## The step of each body -/

/-- The outcomes of a step of frame `f` over the callers `K`. A body that goes on has fewer steps left; after
the other three the sum over the stack is smaller (`Progresses.next`). -/
inductive Progresses (f : Frame) (K : List Frame) (s : State) : Outcome → Prop
  | goes {g s'} : g.start = f.start → (f.isLoop = true ∨ s'.cnt = s.cnt) →
      (∀ n, s.cfg.resetPollMax = some n → g.stepsLeft n s'.cnt < f.stepsLeft n s.cnt) →
      Progresses f K s (.next (goto g K s'))
  | calls {g} : callee f s = some g → Progresses f K s (.next (call g f K s))
  | returns {r s'} : Works s s' → s'.tmp = s.tmp → s'.cnt = s.cnt → f.gives r → Progresses f K s (ret K f r s')
  | raises {op st} : Progresses f K s (.next (raise op st s))

section
variable {f g : Frame} {K : List Frame} {s : State}

theorem Progresses.of_csl (hcs : s.cs = .high) (hstart : g.start = f.start)
    (hleft : ∀ n, g.stepsLeft n s.cnt < f.stepsLeft n s.cnt) :
    Progresses f K s (andThen (csl s) fun s => .next (goto g K s)) := by
  rw [csl_eq hcs]
  exact .goes hstart (.inr rfl) fun n _ => hleft n

theorem Progresses.of_transmit {tx : Byte} (hcs : s.cs = .low) (hstart : g.start = f.start)
    (hleft : ∀ n, g.stepsLeft n s.cnt < f.stepsLeft n s.cnt) :
    Progresses f K s (andThen (transmit tx s) fun s => .next (goto g K s)) := by
  rw [transmit_eq tx hcs]
  exact .goes hstart (.inr rfl) fun n _ => hleft n

theorem Progresses.of_delay {d : Nat} (hcs : s.cs = .high) (hstart : g.start = f.start)
    (hleft : ∀ n, g.stepsLeft n s.cnt < f.stepsLeft n s.cnt) :
    Progresses f K s (andThen (delay d s) fun s => .next (goto g K s)) := by
  rw [delay_eq d hcs]
  exact .goes hstart (.inr rfl) fun n _ => hleft n

theorem Progresses.of_goto (hstart : g.start = f.start) (hleft : ∀ n, g.stepsLeft n s.cnt < f.stepsLeft n s.cnt) :
    Progresses f K s (.next (goto g K s)) :=
  .goes hstart (.inr rfl) fun n _ => hleft n

theorem stepWrreg_progresses {a v : Operand} {l : WrAt} (hcs : s.cs = (Frame.wrreg a v l).level) :
    Progresses (.wrreg a v l) K s (stepWrreg a v l K s) := by
  cases l with
  | s1 => exact .of_csl hcs rfl fun _ => Nat.lt_succ_self _
  | s2 => exact .of_transmit hcs rfl fun _ => Nat.lt_succ_self _
  | s3 => exact .of_transmit hcs rfl fun _ => Nat.lt_succ_self _
  | s4 => exact .returns (.of_prim .csh) rfl rfl rfl

theorem stepRdreg_progresses {a : Operand} {fill : Fill} {l : RdAt} (hcs : s.cs = (Frame.rdreg a fill l).level) :
    Progresses (.rdreg a fill l) K s (stepRdreg a fill l K s) := by
  cases l with
  | s1 => exact .of_csl hcs rfl fun _ => Nat.lt_succ_self _
  | s2 => exact .of_transmit hcs rfl fun _ => Nat.lt_succ_self _
  | s3 =>
    rw [stepRdreg, exchange_eq _ hcs]
    exact .goes rfl (.inr rfl) fun _ _ => Nat.lt_succ_self _
  | s4 r => exact .returns (.of_prim .csh) rfl rfl ⟨r, rfl⟩

theorem stepWburst2_progresses {a v w : Operand} {l : BurstAt} (hcs : s.cs = (Frame.wburst2 a v w l).level) :
    Progresses (.wburst2 a v w l) K s (stepWburst2 a v w l K s) := by
  cases l with
  | s1 => exact .of_csl hcs rfl fun _ => Nat.lt_succ_self _
  | s2 => exact .of_transmit hcs rfl fun _ => Nat.lt_succ_self _
  | s3 => exact .of_transmit hcs rfl fun _ => Nat.lt_succ_self _
  | s4 => exact .of_transmit hcs rfl fun _ => Nat.lt_succ_self _
  | s5 => exact .returns (.of_prim .csh) rfl rfl rfl

theorem stepReset_progresses {l : ResetAt} (hcs : s.cs = .high) (hcount : countLegal s (.reset l) = true) :
    Progresses (.reset l) K s (stepReset l K s) := by
  cases l with
  | s1 => exact .calls rfl
  | s2 => exact .of_delay hcs rfl fun _ => Nat.lt_succ_self _
  | s3 =>
    refine .goes rfl (.inl rfl) fun n _ => ?_
    simp only [Frame.stepsLeft, ResetAt.stepsLeft]
    omega
  | s4 => exact .calls rfl
  | s5 =>
    simp only [stepReset]
    split
    · exact .returns (.refl s) rfl rfl rfl
    · exact .of_goto rfl fun _ => Nat.lt_succ_self _
  | s6 => exact .of_delay hcs rfl fun _ => Nat.lt_succ_self _
  | s7 => exact .goes rfl (.inl rfl) fun _ _ => Nat.lt_succ_self _
  | s8 =>
    simp only [stepReset]
    split
    · exact .raises
    · exact .of_goto rfl fun _ => Nat.lt_succ_self _
  | s9 =>
    refine .goes rfl (.inl rfl) fun n hmax => ?_
    have hlt : s.cnt < n := countLegal_reset.1 hcount n hmax
    simp only [Frame.stepsLeft, ResetAt.stepsLeft]
    omega

theorem stepAnton_progresses {l : AntonAt} : Progresses (.anton l) K s (stepAnton l K s) := by
  cases l with
  | s1 => exact .calls rfl
  | s2 =>
    simp only [stepAnton]
    split
    · exact .returns (.refl s) rfl rfl rfl
    · exact .of_goto rfl fun _ => Nat.lt_succ_self _
  | s3 => exact .calls rfl

theorem stepInit_progresses {l : InitAt} : Progresses (.init l) K s (stepInit l K s) := by
  cases l with
  | s1 => exact .of_goto rfl fun _ => Nat.lt_succ_self _
  | s2 => exact .goes rfl (.inr rfl) fun _ _ => Nat.lt_succ_self _
  | s3 => exact .goes rfl (.inr rfl) fun _ _ => Nat.lt_succ_self _
  | _ => exact .calls rfl

theorem stepReqp_progresses {m : Operand} {l : ReqpAt} (hcs : s.cs = .high) :
    Progresses (.reqp m l) K s (stepReqp m l K s) := by
  cases l with
  | s6 => exact .of_delay hcs rfl fun _ => Nat.lt_succ_self _
  | s8 => exact .goes rfl (.inl rfl) fun _ _ => Nat.lt_succ_self _
  | s10 =>
    simp only [stepReqp]
    split
    · refine .of_goto rfl fun _ => ?_
      simp only [Frame.stepsLeft, ReqpAt.stepsLeft]
      omega
    · exact .of_goto rfl fun _ => Nat.lt_succ_self _
  | s11 => exact .of_delay hcs rfl fun _ => Nat.lt_succ_self _
  | s12 => exact .goes rfl (.inl rfl) fun _ _ => Nat.lt_succ_self _
  | s13 =>
    simp only [stepReqp]
    split
    · next hlt =>
      have hbound : s.cnt < 25 := hlt
      refine .of_goto rfl fun _ => ?_
      simp only [Frame.stepsLeft, ReqpAt.stepsLeft]
      omega
    · refine .goes rfl (.inl rfl) fun _ _ => ?_
      simp only [Frame.stepsLeft, ReqpAt.stepsLeft]
      omega
  | s15 =>
    exact .returns (s' := { s with presence := presenceOf s.lvl })
      (.of_silent ⟨rfl, rfl, rfl, rfl, rfl, rfl, rfl, rfl, rfl⟩) rfl rfl rfl
  | _ => exact .calls rfl

theorem stepAnticoll_progresses {l : AnticollAt} (hcs : s.cs = .high) :
    Progresses (.anticoll l) K s (stepAnticoll l K s) := by
  cases l with
  | s5 => exact .of_delay hcs rfl fun _ => Nat.lt_succ_self _
  | s8 =>
    simp only [stepAnticoll]
    split
    · exact .of_goto rfl fun _ => Nat.lt_succ_self _
    · exact .returns (.refl s) rfl rfl ⟨_, rfl⟩
  | s10 => exact .of_goto rfl fun _ => Nat.lt_succ_self _
  | s11 str => exact .returns (.refl s) rfl rfl ⟨_, rfl⟩
  | _ => exact .calls rfl

theorem stepGetuid_progresses {l : GetuidAt} : Progresses (.getuid l) K s (stepGetuid l K s) := by
  cases l with
  | s2 =>
    simp only [stepGetuid]
    split
    · exact .of_goto rfl fun _ => Nat.lt_succ_self _
    · exact .returns (.refl s) rfl rfl trivial
  | s4 u => exact .returns (.refl s) rfl rfl trivial
  | _ => exact .calls rfl

/-- A busy block with chip-select and counter as its innermost frame says progresses. -/
theorem advance_progresses (hcs : s.cs = f.level) (hcount : countLegal s f = true) :
    Progresses f K s (advance f K s) := by
  cases f with
  | wrreg a v l => exact stepWrreg_progresses hcs
  | rdreg a fill l => exact stepRdreg_progresses hcs
  | wburst2 a v w l => exact stepWburst2_progresses hcs
  | setbits a m l => cases l <;> exact .calls rfl
  | clrbits a m l => cases l <;> exact .calls rfl
  | reset l => exact stepReset_progresses hcs hcount
  | anton l => exact stepAnton_progresses
  | antoff l => cases l; exact .calls rfl
  | init l => exact stepInit_progresses
  | reqp m l => exact stepReqp_progresses hcs
  | anticoll l => exact stepAnticoll_progresses hcs
  | drain l => exact .calls rfl
  | getuid l => exact stepGetuid_progresses

end

/-! ## The step -/

theorem raise_run (op : Option OpCode) (st : Status) (s : State) : (raise op st s).run = .idle := by
  cases op with
  | some o => obtain ⟨u, _, e⟩ := raise_some o st s; rw [e]; rfl
  | none => obtain ⟨u, _, e⟩ := raise_none st s; rw [e]

/-- Over a legal stack an outcome is a next state, with fewer steps left. -/
theorem Progresses.next {f : Frame} {K : List Frame} {s : State} {o : Outcome} (h : Progresses f K s o)
    (hstack : stackLegal s f K = true) : ∃ t, o = .next t ∧ ∀ n, s.cfg.resetPollMax = some n →
      t.stepsLeft n < f.stepsLeft n s.cnt + callersLeft n s.cnt f K := by
  cases h with
  | @goes g s' hstart hcnt hleft =>
    refine ⟨_, rfl, fun n hmax => ?_⟩
    have hcallers : callersLeft n s'.cnt f K = callersLeft n s.cnt f K := by
      obtain hloop | heq := hcnt
      · exact callersLeft_of_loop hstack hloop n _ _
      · rw [heq]
    rw [stepsLeft_busy (goto_run _ _ _), goto_cnt, callersLeft_of_start_eq hstart, hcallers]
    exact Nat.add_lt_add_right (hleft n hmax) _
  | @calls g hcallee =>
    refine ⟨_, rfl, fun n _ => ?_⟩
    have hlt := stepsLeft_callee hcallee n s.cnt
    rw [stepsLeft_busy (call_run _ _ _ _), call_cnt, callersLeft, (callee_called hcallee).start]
    omega
  | @returns r s' hworks htmp hcnt hr =>
    obtain ⟨t, ht, hleft⟩ := ret_stepsLeft (stackLegal_congr hstack hworks.cfg hworks.dLat (.inl htmp)) hr
    refine ⟨t, ht, fun n _ => ?_⟩
    have hle := hleft n
    have hpos := f.stepsLeft_pos n s.cnt
    rw [hcnt] at hle
    omega
  | raises =>
    refine ⟨_, rfl, fun n _ => ?_⟩
    rw [stepsLeft_idle (raise_run _ _ _)]
    exact Nat.add_pos_left (f.stepsLeft_pos n s.cnt) _

/-- A busy block in a legal position has a next state, with fewer steps left where RESET_POLL_MAX is a
number. -/
theorem step_of_busy {s : State} {f : Frame} {K : List Frame} (hpos : s.PosLegal) (hreset : s.resetIn = [])
    (hrun : s.run = .busy f K) :
    ∃ t, step s = .next t ∧ ∀ n, s.cfg.resetPollMax = some n → t.stepsLeft n < s.stepsLeft n := by
  have hs := (posLegal_busy_iff hrun).1 hpos
  obtain ⟨t, ht, hleft⟩ := (advance_progresses hs.level (hs.count f List.mem_cons_self)).next hs.stack
  refine ⟨t, (step_busy hrun hreset).trans ht, fun n hmax => ?_⟩
  rw [stepsLeft_busy hrun]
  exact hleft n hmax

/-- The block is Idle after no more steps than it has left. -/
theorem runs_to_idle {n : Nat} (m : Nat) : ∀ {s : State}, s.stepsLeft n = m → s.PosLegal → s.resetIn = [] →
    s.cfg.resetPollMax = some n → ∃ k t, k ≤ m ∧ Runs k s t ∧ t.run = .idle := by
  induction m using Nat.strong_induction_on with
  | _ m ih =>
    intro s hleft hpos hreset hmax
    cases hrun : s.run with
    | idle => exact ⟨0, s, Nat.zero_le m, .refl s, hrun⟩
    | busy f K =>
      obtain ⟨u, hstep, hfewer⟩ := step_of_busy hpos hreset hrun
      have hlt : u.stepsLeft n < m := hleft ▸ hfewer n hmax
      have hcfg : u.cfg = s.cfg := (configurationAndResetLineAreKept s u hstep).1
      obtain ⟨k, t, hk, hut, hidle⟩ := ih _ hlt rfl (stepKeepsPositionsLegal s u hpos hstep)
        (step_monotone hreset hstep).1 (hcfg ▸ hmax)
      exact ⟨1 + k, t, by omega, (Runs.one hstep).trans hut, hidle⟩

/-- Settles O56: every step leaves fewer steps, and no position has more than 364 left and ten for each poll of
RESET. -/
theorem everyCommandEnds : Obligations.EveryCommandEnds := by
  intro s n hpos hreset hmax _
  obtain ⟨k, t, hk, hrun, hidle⟩ := runs_to_idle _ rfl hpos hreset hmax
  have hle := stepsLeft_le_of_posLegal hpos n
  exact ⟨k, t, by omega, hrun, hidle⟩

end Sys2Proof.Machine
end

section
/-! PROOF. Determinism and progress (70_reset_and_hazards.md R251, R252): a completion is unique, and a legal position has a next state, whatever stands on the reset input and on the port. -/

namespace Sys2Proof.Machine

/-- Settles O43: past the first Idle state with no command taken the block does not move. -/
theorem completionIsUnique : Obligations.CompletionIsUnique :=
  fun _ _ _ _ hs ht hu => ht.unique hs hu

/-- With the reset input inactive a legal position has a next state: a busy block progresses, an idle one waits,
accepts the word on its port or answers it with ILLEGAL_OP. -/
theorem work_next {s : State} (hpos : s.PosLegal) : ∃ t, work s = .next t := by
  cases hrun : s.run with
  | busy f K =>
    have hs := (posLegal_busy_iff hrun).1 hpos
    obtain ⟨t, ht, _⟩ := (advance_progresses hs.level (hs.count f List.mem_cons_self)).next hs.stack
    exact ⟨t, (work_busy hrun).trans ht⟩
  | idle =>
    cases hcmds : s.cmds with
    | nil => exact ⟨s, work_waits hrun hcmds⟩
    | cons w ws =>
      rw [work_port hrun hcmds]
      obtain ⟨_, _, _, _, _, _, _, he⟩ | ⟨_, _, _, _, he⟩ :=
        exec_decodeCommand_idle (s := { s with cmds := ws }) w hrun
      · exact ⟨_, he⟩
      · exact ⟨_, he⟩

/-- Settles O47: an active level of the reset input is the block's reset, and taking an inactive one keeps the
position legal. -/
theorem legalPositionAlwaysSteps : Obligations.LegalPositionAlwaysSteps := by
  intro s hpos
  rw [step_eq]
  split
  · exact ⟨_, rfl⟩
  · exact work_next (takeReset_posLegal hpos)

end Sys2Proof.Machine
end

section
/-! PROOF. The levels of the reset input still to come play no part in a step (70_reset_and_hazards.md R241): neither the sequencer nor acceptance looks at them. -/

namespace Sys2Proof.Machine

/-- `s` with other levels of the reset input to come. -/
def State.withLevels (bs : List Bool) (s : State) : State := { s with resetIn := bs }

/-! ## The commands presented -/

theorem raise_cmds (op : Option OpCode) (st : Status) (s : State) : (raise op st s).cmds = s.cmds := by
  cases op with
  | some o => obtain ⟨u, rfl | rfl, e⟩ := raise_some o st s <;> simp [e]
  | none => obtain ⟨u, rfl | rfl, e⟩ := raise_none st s <;> simp [e]

theorem Ends.cmds {s t : State} (h : Ends s t) : t.cmds = s.cmds := by
  obtain ⟨g, K, rfl⟩ | ⟨r, rfl⟩ | rfl := h <;> rfl

theorem Prim.cmds {s t : State} (h : Prim s t) : t.cmds = s.cmds := by
  cases h <;> rfl

theorem Advances.cmds {s t : State} (h : Advances s t) : t.cmds = s.cmds := by
  obtain ⟨s1, s2, hprim, hsilent, hends⟩ | ⟨op, st, rfl⟩ := h
  · exact hends.cmds.trans (hsilent.cmds.trans hprim.cmds)
  · exact raise_cmds op st s

/-! ## Steps with other levels to come -/

section
variable (bs : List Bool)

theorem advance_withLevels (f : Frame) (K : List Frame) (s : State) :
    advance f K (s.withLevels bs) = mapNext (State.withLevels bs) (advance f K s) := by
  have hinputs : advance f K (s.withLevels bs) = mapNext (State.withInputs s.cmds bs) (advance f K s) :=
    advance_withInputs s.cmds bs f K s
  rw [hinputs]
  cases hadvance : advance f K s with
  | next t => exact congrArg Host.Outcome.next (by rw [State.withInputs, ← (advance_cases hadvance).cmds]; rfl)
  | fault r => rfl
  | refused r => rfl

theorem whenIdle_withLevels {begins : State → Outcome}
    (h : ∀ s : State, begins (s.withLevels bs) = mapNext (State.withLevels bs) (begins s)) (s : State) :
    whenIdle (s.withLevels bs) begins = mapNext (State.withLevels bs) (whenIdle s begins) := by
  unfold whenIdle
  rw [show (s.withLevels bs).run = s.run from rfl]
  cases s.run with
  | idle => exact h s
  | busy f K => exact advance_withLevels bs f K s

theorem acceptReserved_withLevels (op : OpCode) (a d : Byte) (s : State) :
    acceptReserved op a d (s.withLevels bs) = (acceptReserved op a d s).withLevels bs := by
  refine (raise_withInputs s.cmds bs (some op) .illegalOp (latchCommand op a d s)).trans ?_
  rw [State.withInputs, ← acceptReserved_cmds op a d s]
  rfl

theorem exec_withLevels (i : Instr) (s : State) :
    exec i (s.withLevels bs) = mapNext (State.withLevels bs) (exec i s) := by
  have command (op : OpCode) (a d : Byte) (f : Frame) :
      beginCommand op a d f (s.withLevels bs) = mapNext (State.withLevels bs) (beginCommand op a d f s) :=
    whenIdle_withLevels bs (fun _ => rfl) s
  have reserved (op : OpCode) (a d : Byte) :
      beginReserved op a d (s.withLevels bs) = mapNext (State.withLevels bs) (beginReserved op a d s) :=
    whenIdle_withLevels bs (fun u => by simp only [acceptReserved_withLevels, mapNext]) s
  have frame (f : Frame) : beginFrame f (s.withLevels bs) = mapNext (State.withLevels bs) (beginFrame f s) :=
    whenIdle_withLevels bs (advance_withLevels bs f []) s
  cases i with
  | reserved0 a d => exact reserved _ a d
  | reservedC a d => exact reserved _ a d
  | reservedD a d => exact reserved _ a d
  | reservedE a d => exact reserved _ a d
  | reservedF a d => exact reserved _ a d
  | wframe a v => exact frame _
  | rframe a f => exact frame _
  | wburst2 a v w => exact frame _
  | _ => exact command _ _ _ _

theorem work_withLevels (s : State) : work (s.withLevels bs) = mapNext (State.withLevels bs) (work s) := by
  cases hrun : s.run with
  | busy f K =>
    rw [work_busy hrun, work_busy (s := s.withLevels bs) hrun]
    exact advance_withLevels bs f K s
  | idle =>
    cases hcmds : s.cmds with
    | nil => rw [work_waits hrun hcmds, work_waits (s := s.withLevels bs) hrun hcmds]; rfl
    | cons w ws =>
      rw [work_port hrun hcmds, work_port (s := s.withLevels bs) hrun hcmds]
      exact exec_withLevels bs (decodeCommand w) { s with cmds := ws }

end

/-- Settles O58: both steps are the work of one state, but for the levels still to come. -/
theorem inactiveResetInputChangesNothing : Obligations.InactiveResetInputChangesNothing := by
  intro s bs hreset
  have hstep : step s = work (s.withLevels bs) := by rw [step, takeReset, hreset]; rfl
  have hstep' : step { s with resetIn := [] } = work (s.withLevels []) := rfl
  rw [hstep, hstep']
  exact work_withLevels bs (s.withLevels [])

end Sys2Proof.Machine
end

section
/-! PROOF. The delays of each command in time units (70_reset_and_hazards.md R250): only DLY adds to their total, and a poll loop adds one for each failing poll it counts. -/

namespace Sys2Proof.Machine

/-- The time units of the delays in the trace so far. -/
def State.delays (s : State) : Nat := delayTotal s.trace

theorem delayTotal_append (es es' : List BusEvent) : delayTotal (es ++ es') = delayTotal es + delayTotal es' := by
  induction es with
  | nil => exact (Nat.zero_add _).symm
  | cons e es ih => cases e <;> simp [delayTotal, ih, Nat.add_assoc]

/-! ## Primitives -/

theorem emit_delays (e : BusEvent) (s : State) : (emit e s).delays = s.delays + delayTotal [e] := by
  rw [State.delays, emit_trace, delayTotal_append]
  rfl

@[simp] theorem csh_delays (s : State) : (csh s).delays = s.delays := emit_delays .csh _
@[simp] theorem rsth_delays (s : State) : (rsth s).delays = s.delays := emit_delays .rsth _

@[simp] theorem accepted_delays (op : OpCode) (a d : Byte) (s : State) : (accepted op a d s).delays = s.delays :=
  congrArg delayTotal (accepted_trace op a d s)

@[simp] theorem answered_delays (r : Response) (s : State) : (answered r s).delays = s.delays :=
  congrArg delayTotal (answered_trace r s)

namespace Body

section
variable (a v w m : Byte) (s : State)

@[simp] theorem select_delays : (select s).delays = s.delays := emit_delays .csl _
@[simp] theorem send_delays (tx : Byte) : (send tx s).delays = s.delays := emit_delays (.x tx _) _
@[simp] theorem wait_delays (n : Nat) : (wait n s).delays = s.delays + n := emit_delays (.dly n) _

/-! ## Brackets and the bodies made of them -/

@[simp] theorem wr_delays : (wr a v s).delays = s.delays := by simp [wr]
@[simp] theorem rd_delays : (rd a v s).delays = s.delays := by simp [rd]
@[simp] theorem wburst2_delays : (wburst2 a v w s).delays = s.delays := by simp [wburst2]
@[simp] theorem wrReg_delays (x : RegAddr) : (wrReg x v s).delays = s.delays := wr_delays (reg x) v s
@[simp] theorem readTmp_delays : (readTmp a s).delays = s.delays := rd_delays a s.cfg.readFill s
@[simp] theorem readIrq_delays : (readIrq s).delays = s.delays := rd_delays (reg s.cfg.aComIrq) s.cfg.readFill s
@[simp] theorem readLevel_delays : (readLevel s).delays = s.delays :=
  rd_delays (reg s.cfg.aFifoLevel) s.cfg.readFill s
@[simp] theorem drainRead_delays (put : Byte → Buf → Buf) : (drainRead put s).delays = s.delays :=
  rd_delays (reg s.cfg.aFifoData) s.cfg.readFill s
@[simp] theorem setb_delays : (setb a m s).delays = s.delays := by simp [setb]
@[simp] theorem clrb_delays : (clrb a m s).delays = s.delays := by simp [clrb]
@[simp] theorem antoff_delays : (antoff s).delays = s.delays := clrb_delays _ _ s
@[simp] theorem initWrites_delays : (initWrites s).delays = s.delays := by simp [initWrites]
@[simp] theorem drain_delays : (drain s).delays = s.delays := by simp [drain]

@[simp] theorem anton_delays : (anton s).delays = s.delays := by
  by_cases h : (readTmp (reg s.cfg.aTxControl) s).tmp &&& 0x03 = 0x03
  · rw [anton_on h, readTmp_delays]
  · rw [anton_off h, setb_delays, readTmp_delays]

/-! ## The waits outside the poll loops -/

theorem countPoll_delays : (countPoll s).delays = s.delays + 1 := wait_delays s 1

theorem resetSend_delays : (resetSend s).delays = s.delays + 50 :=
  (wait_delays (wrReg s.cfg.aCommand s.cfg.cmdSoftReset s) 50).trans (by rw [wrReg_delays])

@[simp] theorem startSend_delays : (startSend s).delays = s.delays + 10 := by simp [startSend]

theorem reqpStart_delays : (reqpStart m s).delays = s.delays + 10 :=
  show (reqpSend m s).delays = s.delays + 10 by simp [reqpSend]

theorem anticollSend_delays : (anticollSend s).delays = s.delays + 10 := by simp [anticollSend]

theorem anticoll_delays : (anticoll s).2.delays = s.delays + 10 := by
  by_cases h : (anticollSend s).lvl = 5
  · rw [anticoll_uid h, drain_delays, anticollSend_delays]
  · rw [anticoll_empty h, anticollSend_delays]

end

/-! ## The poll loops (42_chip_control.md R151; 43_card_protocol.md R171) -/

/-- From `s` to `t` at most `n` polls have failed; each was counted and took one time unit. -/
def CountsPolls (n : Nat) (s t : State) : Prop :=
  ∃ k ≤ n, t.cnt = s.cnt + k ∧ t.delays = s.delays + k

theorem CountsPolls.of_eq {n : Nat} {s t : State} (hcnt : t.cnt = s.cnt) (hdelays : t.delays = s.delays) :
    CountsPolls n s t :=
  ⟨0, n.zero_le, hcnt, hdelays⟩

/-- A failing poll, which has left `u`, and then the rest of the loop. -/
theorem CountsPolls.of_countPoll {n : Nat} {s u t : State} (h : CountsPolls n (countPoll u) t)
    (hcnt : u.cnt = s.cnt) (hdelays : u.delays = s.delays) : CountsPolls (n + 1) s t := by
  obtain ⟨k, hk, hc, hd⟩ := h
  rw [countPoll_cnt] at hc
  rw [countPoll_delays] at hd
  exact ⟨k + 1, by omega, by omega, by omega⟩

theorem resetPoll_countsPolls (n : Nat) : ∀ s : State, CountsPolls n s (resetPoll n s).2 := by
  induction n with
  | zero => exact fun _ => .of_eq rfl rfl
  | succ n ih =>
    intro s
    by_cases h : (resetRead s).tmp &&& 0x10 = 0
    · rw [resetPoll_clear n h]; exact .of_eq rfl (readTmp_delays _ s)
    · rw [resetPoll_busy n h]; exact (ih _).of_countPoll rfl (readTmp_delays _ s)

theorem irqPoll_countsPolls (n : Nat) : ∀ s : State, CountsPolls n s (irqPoll n s) := by
  induction n with
  | zero => exact fun _ => .of_eq rfl rfl
  | succ n ih =>
    intro s
    by_cases h : (readIrq s).irq &&& 0x30 ≠ 0
    · rw [irqPoll_seen n h]; exact .of_eq rfl (readIrq_delays s)
    · rw [irqPoll_unseen n h]; exact (ih _).of_countPoll rfl (readIrq_delays s)

/-! ## The bodies that poll -/

theorem reset_delays (n : Nat) (s : State) :
    (reset n s).2.delays = s.delays + 50 + (reset n s).2.cnt ∧ (reset n s).2.cnt ≤ n := by
  obtain ⟨k, hk, hcnt, hdelays⟩ := resetPoll_countsPolls n (resetSend s)
  rw [resetSend_cnt, Nat.zero_add] at hcnt
  rw [resetSend_delays] at hdelays
  rw [reset, hcnt]
  exact ⟨hdelays, hk⟩

@[simp] theorem anton_cnt (s : State) : (anton s).cnt = s.cnt := by
  obtain ⟨_, _, _, he⟩ := anton_fields s
  rw [he]

/-- INIT takes the delays of the RESET inside it and counts its polls. -/
theorem init_delays (n : Nat) (s : State) : (init n s).2.delays = s.delays + 50 + (init n s).2.cnt := by
  have hreset : (reset n (initLines s)).2.delays = s.delays + 50 + (reset n (initLines s)).2.cnt := by
    simpa using (reset_delays n (initLines s)).1
  by_cases h : (reset n (initLines s)).1 = true
  · rw [init_ok h, anton_delays, initWrites_delays, anton_cnt]
    exact hreset
  · rw [init_unresponsive h]
    exact hreset

theorem reqp_delays (m : Byte) (s : State) :
    (reqp m s).delays = s.delays + 10 + (reqp m s).cnt ∧ (reqp m s).cnt ≤ 25 := by
  obtain ⟨k, hk, hcnt, hdelays⟩ := irqPoll_countsPolls 25 (reqpStart m s)
  have hcnt' : (reqp m s).cnt = k := hcnt.trans (Nat.zero_add k)
  have hjudge : (reqp m s).delays = (irqPoll 25 (reqpStart m s)).delays := readLevel_delays _
  rw [hcnt', hjudge, hdelays, reqpStart_delays]
  exact ⟨rfl, hk⟩

end Body

/-- GETUID's ANTICOLL is run when a card is present, and else there is nothing to wait for. -/
theorem getuidEnd_delays (u : State) : (getuidEnd u).delays = u.delays + if u.presence then 10 else 0 := by
  cases h : u.presence with
  | true => rw [getuidEnd_present h, anticollEnd, answered_delays, Body.anticoll_delays]; rfl
  | false => rw [getuidEnd_absent h, answered_delays]; rfl

/-- GETUID's delays are those of its REQP, and ANTICOLL's besides when a card is present. -/
theorem Completes.getuid_delays {s t : State} {addr data : Byte} (hs : s.Ready)
    (h : Completes (.getuid addr data) s t) :
    let p := Body.reqp 0x26 (accepted 0xB addr data s)
    t.delays = s.delays + 10 + p.cnt + (if p.presence then 10 else 0) := by
  rw [h.unique hs (completes_getuid hs addr data), getuidEnd_delays, (Body.reqp_delays _ _).1, accepted_delays]

/-- Settles O57: the delays of each body, and of GETUID's completion, whose bounds are those of REQP's polls and
of its presence flag. -/
theorem delaysOfEachCommand : Obligations.DelaysOfEachCommand := by
  refine ⟨fun s a v f v0 v1 => ?_, fun s n => ?_, fun s m => Body.reqp_delays m s, Body.anticoll_delays,
    fun s t addr data hs h => ?_⟩
  · exact ⟨Body.wr_delays a v s, Body.rd_delays a f s, Body.wburst2_delays a v0 v1 s, Body.setb_delays a v s,
      Body.clrb_delays a v s, Body.anton_delays s, Body.antoff_delays s⟩
  · obtain ⟨hreset, hcnt⟩ := Body.reset_delays n s
    exact ⟨hreset, Body.init_delays n s, hcnt⟩
  · intro p
    have htotal : t.delays = s.delays + 10 + p.cnt + (if p.presence then 10 else 0) := h.getuid_delays hs
    have hcnt : p.cnt ≤ 25 := (Body.reqp_delays _ _).2
    have hbounds : s.delays + 10 ≤ t.delays ∧ t.delays ≤ s.delays + 45 := by
      rw [htotal]
      split <;> omega
    exact ⟨htotal, hbounds⟩

end Sys2Proof.Machine
end
